-- ==== Sys2Proof/Word.lean ====
section
/-! DEFINITION. The word types of the block (00_scope.md R8, R11). -/

namespace Sys2Proof

/-- A byte, 0 to 255 (R8). -/
abbrev Byte := BitVec 8

/-- A 9-bit frame word (R8, R80). -/
abbrev FrameWord := BitVec 9

/-- A 32-bit operation word (R83). -/
abbrev OpWord := BitVec 32

/-- A line level (R11): `false` is 0 (low), `true` is 1 (high). -/
abbrev Level := Bool

end Sys2Proof
end

