-- ==== Sys2Proof/Config.lean ====
section
/-! DEFINITION. What is fixed at construction (00_scope.md R6), the fixed durations of the host protocol, and the
values the spec leaves open: opaque constants with no body, so that nothing can be proved of a particular value. -/

namespace Sys2Proof

/-- The Serial Transport Unit's backend (R2, R22): bit-banged or hardware-backed. -/
inductive Kind where
  | bb
  | hw
  deriving DecidableEq, Repr, Inhabited

/-- Which numbers beside 0 name a value of the opaque type `ERR` (R6, U8): open (log 3). -/
opaque Config.openErr : Nat → Bool

/-- A value of the opaque type `ERR` (R6, U8), a type with at least one value of which nothing else is known. DESIGN
CHOICE (log 3): its values are named by numbers, which no rule reads, and which numbers name one is open. -/
structure Err where
  code : Nat
  isValue : code = 0 ∨ Config.openErr code = true
  deriving DecidableEq, Repr

/-- Which of the two agents takes a step (20_memory.md R60, 60_exceptions.md R243). -/
inductive Agent where
  | host
  | dma
  deriving DecidableEq, Repr, Inhabited

/-- The parameters of R6 that a rule reads, fixed for a run. `PIN_MAP` and `LCD_TIMING` are "opaque, not modelled" there. -/
structure Config where
  /-- `KIND` -/
  kind : Kind
  /-- `C`, the ring capacity in bytes -/
  ringC : Nat
  /-- `N`, the number of descriptors -/
  ringN : Nat
  /-- `S`, the bytes of a descriptor -/
  ringS : Nat
  /-- `T_BIT`, ns -/
  tBit : Nat
  /-- `T_BYTE`, ns -/
  tByte : Nat
  /-- `T_CS_LEAD`, ns -/
  tCsLead : Nat
  /-- `T_CS_LAG`, ns -/
  tCsLag : Nat
  /-- `SLEEP_OUT_OPCODE` -/
  sleepOutOpcode : Byte
  /-- `DISPLAY_ON_OPCODE` -/
  displayOnOpcode : Byte
  /-- `INIT_TABLE`: opcode byte and parameter bytes of each entry -/
  initTable : List (Byte × List Byte)
  /-- `HW_WIRE_ORDER`: the frame word's bit numbers in the order the HW peripheral shifts them out (R82; log 21) -/
  hwWireOrder : List (Fin 9)
  deriving DecidableEq, Repr

namespace Config

/-- The configuration is well-formed (42_ring_buffer.md R150): `N ≥ 1`, `S ≥ 1` and `C = N * S`. -/
def ringOk (c : Config) : Bool :=
  decide (1 ≤ c.ringN) && decide (1 ≤ c.ringS) && decide (c.ringC = c.ringN * c.ringS)

/-- `T_RST` = 100 ms, in the microseconds of a DELAY_US (R6, 45_host_sequencing.md R192). -/
def rstDwellUs : BitVec 24 := 100000#24

/-- `T_SLPOUT` = 100 ms in microseconds (R6, R194). -/
def sleepOutUs : BitVec 24 := 100000#24

/-- `T_DISPON` = 50 ms in microseconds (R6, R194). -/
def displayOnUs : BitVec 24 := 50000#24

/-- The panel's width in pixels (R6): fixed, and no rule depends on it. -/
def panelWidth : Nat := 480

/-- The panel's height in pixels (R6): fixed, and no rule depends on it. -/
def panelHeight : Nat := 480

/-! The open parameters of the machine that `State.reset` constructs (log 1). -/

opaque openKind : Kind
/-- One less than `N`: the constructed machine has `N ≥ 1` (log 2). -/
opaque openExtraDescriptors : Nat
/-- One less than `S`: the constructed machine has `S ≥ 1` (log 2). -/
opaque openExtraBytes : Nat
opaque openTBit : Nat
opaque openTByte : Nat
opaque openTCsLead : Nat
opaque openTCsLag : Nat
opaque openSleepOutOpcode : Byte
opaque openDisplayOnOpcode : Byte
opaque openInitTable : List (Byte × List Byte)
opaque openHwWireOrder : List (Fin 9)

/-- The configuration of the constructed machine: every parameter open, `C = N * S` (R6). -/
def machine : Config where
  kind := openKind
  ringC := (openExtraDescriptors + 1) * (openExtraBytes + 1)
  ringN := openExtraDescriptors + 1
  ringS := openExtraBytes + 1
  tBit := openTBit
  tByte := openTByte
  tCsLead := openTCsLead
  tCsLag := openTCsLag
  sleepOutOpcode := openSleepOutOpcode
  displayOnOpcode := openDisplayOnOpcode
  initTable := openInitTable
  hwWireOrder := openHwWireOrder

/-! The draws of 10_state.md R49, past what a state's `draws` lists. -/

/-- `draw(sda_reset)` (R25; log 4). -/
opaque sdaReset : Level
/-- `draw(rst_reset)` (R29; log 4). -/
opaque rstReset : Level
/-- `draw(bus_fault_i)` with its `draw(e_i)`: the outcome of HW frame i, `none` where it completes (R117; log 5). -/
opaque freeBusOutcome : Nat → Option Err
/-- Byte j of `draw(underrun_bytes)` (R171; log 6). -/
opaque freeUnderrunByte : Nat → Byte
/-- `draw(schedule)`: how many choices in a row the host takes before the DMA agent's n-th one (R60, R172; log 7). -/
opaque freeGap : Nat → Nat

end Config

end Sys2Proof
end

