-- ==== Sys2Proof/Syntax.lean ====
section
/-! DEFINITION. The operations of the block: every row of spec/opcode_table.json is one constructor (30_encoding.md R86). -/

namespace Sys2Proof

/-- An operation as the host issues it: a 32-bit operation word and its payload operand (R83, R84). -/
structure Op where
  word : OpWord
  payload : List Byte
  deriving DecidableEq, Repr

/-- The nine operations with their operands (R85, R86). A format-L operation carries its bytes; its length field is
their number. -/
inductive Instr where
  /-- ST_BEGIN, format N -/
  | stBegin
  /-- ST_END, format N -/
  | stEnd
  /-- ST_CMD b, format B -/
  | stCmd (b : Byte)
  /-- ST_DATA bytes, format L -/
  | stData (bytes : List Byte)
  /-- RB_PUSH bytes, format L -/
  | rbPush (bytes : List Byte)
  /-- TX_START, format N -/
  | txStart
  /-- TX_PUSH bytes, format L -/
  | txPush (bytes : List Byte)
  /-- RST_SET v, format V -/
  | rstSet (v : Level)
  /-- DELAY_US us, format D -/
  | delayUs (us : BitVec 24)
  deriving DecidableEq, Repr

/-- The mnemonic of the instruction's row in spec/opcode_table.json. -/
def Instr.mnemonic : Instr → String
  | .stBegin => "ST_BEGIN"
  | .stEnd => "ST_END"
  | .stCmd _ => "ST_CMD"
  | .stData _ => "ST_DATA"
  | .rbPush _ => "RB_PUSH"
  | .txStart => "TX_START"
  | .txPush _ => "TX_PUSH"
  | .rstSet _ => "RST_SET"
  | .delayUs _ => "DELAY_US"

end Sys2Proof
end

