-- ==== Sys2Proof/WellFormed.lean ====
section
/-! DEFINITION. Which instructions the encoding admits: a payload length fits the 24-bit length field (00_scope.md R7,
30_encoding.md R85). Every other operand's type admits its encoded values only. -/

namespace Sys2Proof

/-- The payload lengths a length field can say: 0 to 16 777 215 (R85). -/
def maxPayload : Nat := 2 ^ 24

def Instr.wf : Instr → Bool
  | .stBegin => true
  | .stEnd => true
  | .stCmd _ => true
  | .stData bytes => decide (bytes.length < maxPayload)
  | .rbPush bytes => decide (bytes.length < maxPayload)
  | .txStart => true
  | .txPush bytes => decide (bytes.length < maxPayload)
  | .rstSet _ => true
  | .delayUs _ => true

end Sys2Proof
end

