-- ==== Sys2Proof/Decode.lean ====
section
/-! DEFINITION. The decoder of operation words (30_encoding.md R83 to R89), total, rejecting by name; then the encoder,
written from the same tables. -/

namespace Sys2Proof

/-- Why an operation is illegal (R84, R87). All of these raise ILLEGAL_OPERATION (60_exceptions.md R221). -/
inductive Reject where
  /-- `opc` is 0x00 or 0x0A to 0xFF. -/
  | reservedOpcode
  /-- a field marked must-be-zero is not zero. -/
  | mustBeZero
  /-- the payload's length is not the length field. -/
  | lengthMismatch
  /-- a payload beside a word whose format has none (DESIGN CHOICE, log 9). -/
  | payloadNotAllowed
  deriving DecidableEq, Repr

/-- Field `opc`, bits 31:24 (R83). -/
def opcOf (w : OpWord) : BitVec 8 := w.extractLsb' 24 8

/-- Field `arg`, bits 23:0 (R83). -/
def argOf (w : OpWord) : BitVec 24 := w.extractLsb' 0 24

/-- An operation without payload is legal only where none is given (log 9). -/
def noPayload (op : Op) (r : Except Reject Instr) : Except Reject Instr :=
  if op.payload = [] then r else .error .payloadNotAllowed

/-- Format N: all of `arg` must be zero (R85). -/
def decodeN (op : Op) (i : Instr) : Except Reject Instr :=
  noPayload op (if argOf op.word = 0#24 then .ok i else .error .mustBeZero)

/-- Format B: `arg[23:8]` must be zero, `b` is `arg[7:0]` (R85). -/
def decodeB (op : Op) (f : Byte → Instr) : Except Reject Instr :=
  noPayload op
    (if (argOf op.word).extractLsb' 8 16 = 0#16 then .ok (f ((argOf op.word).extractLsb' 0 8)) else .error .mustBeZero)

/-- Format L: the payload's length is `arg` (R84, R85). -/
def decodeL (op : Op) (f : List Byte → Instr) : Except Reject Instr :=
  if op.payload.length = (argOf op.word).toNat then .ok (f op.payload) else .error .lengthMismatch

/-- Format V: `arg[23:1]` must be zero, `v` is `arg[0]` (R85). -/
def decodeV (op : Op) (f : Level → Instr) : Except Reject Instr :=
  noPayload op
    (if (argOf op.word).extractLsb' 1 23 = 0#23 then .ok (f ((argOf op.word).getLsbD 0)) else .error .mustBeZero)

/-- Format D: `us` is `arg` (R85). -/
def decodeD (op : Op) (f : BitVec 24 → Instr) : Except Reject Instr :=
  noPayload op (.ok (f (argOf op.word)))

/-- The decoder (R88 with the payload rule R84). -/
def decode (op : Op) : Except Reject Instr :=
  match (opcOf op.word).toNat with
  | 1 => decodeN op .stBegin
  | 2 => decodeN op .stEnd
  | 3 => decodeB op .stCmd
  | 4 => decodeL op .stData
  | 5 => decodeL op .rbPush
  | 6 => decodeN op .txStart
  | 7 => decodeL op .txPush
  | 8 => decodeV op .rstSet
  | 9 => decodeD op .delayUs
  | _ => .error .reservedOpcode

/-- The payload length a word calls for: `arg` for the three L formats, else 0 (R84, R85). -/
def payloadLength (w : OpWord) : Nat :=
  match (opcOf w).toNat with
  | 4 => (argOf w).toNat
  | 5 => (argOf w).toNat
  | 7 => (argOf w).toNat
  | _ => 0

/-- The length in bytes of the operation that starts with `w`: `4 + L` or 4 (R89). -/
def opLength (w : OpWord) : Nat := 4 + payloadLength w

/-! The opcode table (spec/opcode_table.json; R86, R88). -/

/-- A row: the words it stands for are those `w` with `w &&& mask = value`. -/
structure OpRow where
  mnemonic : String
  value : OpWord
  mask : OpWord
  deriving DecidableEq, Repr

def opcodeTable : List OpRow :=
  [⟨"ST_BEGIN", 0x01000000#32, 0xFFFFFFFF#32⟩,
   ⟨"ST_END", 0x02000000#32, 0xFFFFFFFF#32⟩,
   ⟨"ST_CMD", 0x03000000#32, 0xFFFFFF00#32⟩,
   ⟨"ST_DATA", 0x04000000#32, 0xFF000000#32⟩,
   ⟨"RB_PUSH", 0x05000000#32, 0xFF000000#32⟩,
   ⟨"TX_START", 0x06000000#32, 0xFFFFFFFF#32⟩,
   ⟨"TX_PUSH", 0x07000000#32, 0xFF000000#32⟩,
   ⟨"RST_SET", 0x08000000#32, 0xFFFFFFFE#32⟩,
   ⟨"DELAY_US", 0x09000000#32, 0xFF000000#32⟩]

/-! The encoder. -/

/-- `opc` in bits 31:24 and `arg` in bits 23:0 (R83). -/
def opWord (opc : BitVec 8) (arg : BitVec 24) : OpWord := opc ++ arg

/-- Format L: the length field says the payload's length (R85). DESIGN CHOICE (log 24): a payload of 2^24 bytes or more,
whose length no field can say, gets the word with the length modulo 2^24; such an operation is illegal (R84), and this word
is what its fault record holds. -/
def encodeL (opc : BitVec 8) (bytes : List Byte) : Op :=
  ⟨opWord opc (BitVec.ofNat 24 bytes.length), bytes⟩

/-- The operation word and payload of an instruction (R85, R86). -/
def encode : Instr → Op
  | .stBegin => ⟨opWord 0x01#8 0#24, []⟩
  | .stEnd => ⟨opWord 0x02#8 0#24, []⟩
  | .stCmd b => ⟨opWord 0x03#8 (b.setWidth 24), []⟩
  | .stData bytes => encodeL 0x04#8 bytes
  | .rbPush bytes => encodeL 0x05#8 bytes
  | .txStart => ⟨opWord 0x06#8 0#24, []⟩
  | .txPush bytes => encodeL 0x07#8 bytes
  | .rstSet v => ⟨opWord 0x08#8 ((BitVec.ofBool v).setWidth 24), []⟩
  | .delayUs us => ⟨opWord 0x09#8 us, []⟩

/-- The operation word of an instruction: what a fault record of the operation holds (60_exceptions.md R221). -/
def Instr.word (i : Instr) : OpWord := (encode i).word

/-! The host's view of a table word (log 22). -/

/-- The first `n` bytes of a number, least significant first. -/
def leBytes : Nat → Nat → List Byte
  | 0, _ => []
  | n + 1, w => BitVec.ofNat 8 w :: leBytes n (w / 256)

/-- The operation whose bits are `w`, every bit from `nbits` on being 0: the word is bits 31..0, and payload byte k is
bits 39+8k..32+8k. -/
def tableOp (nbits w : Nat) : Op :=
  let v := w % 2 ^ nbits
  let word := BitVec.ofNat 32 v
  ⟨word, leBytes (payloadLength word) (v / 2 ^ 32)⟩

def decodeTableWord (nbits w : Nat) : Option Instr :=
  match decode (tableOp nbits w) with
  | .ok i => some i
  | .error _ => none

end Sys2Proof
end

