-- ==== Sys2Proof/Machine/State.lean ====
section
/-! DEFINITION. The state of the block, its host and its draws as plain data, its reset value, and the reasons a step stops. -/

namespace Sys2Proof.Machine

open Sys2Proof

/-- An event of the wire trace (10_state.md R27). -/
inductive Event where
  | setCs (v : Level)
  | setScl (v : Level)
  | setSda (v : Level)
  | setRst (v : Level)
  /-- at least `ns` nanoseconds pass before the next event (R12) -/
  | wait (ns : Nat)
  | hwWord (w : FrameWord)
  | hwFault (w : FrameWord)
  deriving DecidableEq, Repr

/-- The result of an STU operation (R28). -/
inductive Result where
  | ok
  | err (e : Err)
  deriving DecidableEq, Repr

/-- Who owns the ring storage (R34). -/
inductive Phase where
  | owned
  | shared
  deriving DecidableEq, Repr

/-- The system state machine (R40). -/
inductive Sys where
  | reset
  | configuring
  | ready
  | streaming
  deriving DecidableEq, Repr

/-- A DMA descriptor, the abstract record of R36. -/
structure Descriptor where
  offset : Nat
  length : Nat
  next : Nat
  deriving DecidableEq, Repr

/-- The circular chain of `n` descriptors of `size` bytes (R36). -/
def Descriptor.chain (n size : Nat) : List Descriptor :=
  (List.range n).map fun i => ⟨i * size, size, (i + 1) % n⟩

/-- The fault codes (60_exceptions.md R221). -/
inductive FaultCode where
  | illegalOperation
  | sessionUnderflow
  | handleConsumed
  | noTransfer
  | underrun
  | configInvalid
  deriving DecidableEq, Repr

/-- The code numbers of R221. -/
def FaultCode.number : FaultCode → Nat
  | .illegalOperation => 1
  | .sessionUnderflow => 2
  | .handleConsumed => 3
  | .noTransfer => 4
  | .underrun => 5
  | .configInvalid => 6

/-- What a fault record's `info` holds (R221). -/
inductive FaultInfo where
  | opWord (w : OpWord)
  | descriptorFill (index fill : Nat)
  | ring (c n s : Nat)
  deriving DecidableEq, Repr

/-- A fault record, a pair (code, info) (R39). -/
structure FaultRecord where
  code : FaultCode
  info : FaultInfo
  deriving DecidableEq, Repr

/-- What the host has to do (30_encoding.md R92, R93; 45_host_sequencing.md R192 to R204; log 12). The first seven are
what a host program is written in; the others are the points inside a running procedure. -/
inductive HostCmd where
  /-- `issue OP`: one operation, one host step -/
  | issue (op : Op)
  /-- `while_asserted { body }` (R92) -/
  | whileAsserted (body : List Op)
  /-- `RESET_PULSE` (R192) -/
  | resetPulse
  /-- `INIT` (R194) -/
  | init
  /-- `PREFILL(P)` (R197) -/
  | prefill (p : List Byte)
  /-- `START` (R198) -/
  | start
  /-- `STREAM(P, off)` (R199) -/
  | stream (p : List Byte) (off : Nat)
  /-- `BOOT(P)` (R204) -/
  | boot (p : List Byte)
  /-- INIT, at the head of its loop with `rest` to go -/
  | initEntry (rest : List (Byte × List Byte))
  /-- INIT, about to issue ST_CMD op -/
  | initCmd (op : Byte) (ps : List Byte) (rest : List (Byte × List Byte))
  /-- INIT, about to issue ST_DATA ps -/
  | initData (op : Byte) (ps : List Byte) (rest : List (Byte × List Byte))
  /-- INIT, about to issue the entry's ST_END and look at `h.r` -/
  | initEnd (op : Byte) (rest : List (Byte × List Byte))
  /-- PREFILL, at the head of its loop -/
  | prefillLoop (p : List Byte)
  /-- STREAM, at the head of its loop -/
  | streamLoop (p : List Byte)
  /-- BOOT, after INIT has returned `h.r` -/
  | bootContinue (p : List Byte)
  deriving DecidableEq, Repr

/-- The host's control state: what it has still to do, and the host-local variables `h.r`, `h.off`, `h.k` of
45_host_sequencing.md. -/
structure HostCtl where
  todo : List HostCmd
  r : Result
  off : Nat
  k : Nat
  deriving DecidableEq, Repr

/-- The draws of R49 still to be used: the model's own fields (logs 5, 6, 7). Past the end of a list the opaque
constants of Config give the value. -/
structure Draws where
  /-- outcomes of the coming HW frames, `none` where the transaction completes (R117) -/
  bus : List (Option Err)
  /-- how many HW frames the run has made so far: the `i` of R117 -/
  busIx : Nat
  /-- the first bytes of `underrun_bytes` (R171) -/
  underrun : List Byte
  /-- the coming choices of the schedule (R60): how many in a row the host takes before each choice of the DMA agent, a
  number every time, so that no run keeps the DMA agent waiting for ever (R172) -/
  sched : List Nat
  /-- how many choices the DMA agent has taken so far -/
  schedIx : Nat
  deriving DecidableEq, Repr

/-- Everything the spec gives the machine (10_state.md; 70_reset_and_hazards.md R250), its configuration (log 1), its
host and its draws. -/
structure State where
  /-- `KIND`, `C`, `N`, `S` and the other parameters of R6; no step writes it -/
  cfg : Config
  /-- chip-select line (R23) -/
  cs : Level
  /-- BB clock line (R24) -/
  scl : Level
  /-- BB data line (R25) -/
  sda : Level
  /-- session nesting depth (R26) -/
  depth : Nat
  /-- wire trace (R27) -/
  wire : List Event
  /-- result of the last ST_CMD or ST_DATA (R28) -/
  result : Result
  /-- panel reset line (R29) -/
  rst : Level
  /-- ring storage: the cells that hold a byte, by rising index (R30; log 20) -/
  storage : List Host.Cell
  /-- write cursor (R31) -/
  wpos : Nat
  /-- read cursor (R32) -/
  rpos : Nat
  /-- bytes accepted and not yet consumed (R33) -/
  fill : Nat
  /-- who owns the storage (R34) -/
  phase : Phase
  /-- count returned by the last push (R35) -/
  accepted : Nat
  /-- descriptor chain (R36) -/
  desc : List Descriptor
  /-- bytes sent to the parallel interface (R38) -/
  lcdOut : List Byte
  /-- fault records (R39) -/
  faults : List FaultRecord
  /-- system state (R40) -/
  sys : Sys
  /-- last error the initialisation sequence propagated (R41) -/
  sysError : Option Err
  /-- the host's control state (R21; 45_host_sequencing.md) -/
  host : HostCtl
  /-- the draws (R49) -/
  draws : Draws
  deriving DecidableEq, Repr

/-- The obligations of the host that no fault covers (R205, U18). -/
inductive HostDuty where
  /-- INIT only when `st.sys = RESET` (R200) -/
  | initOutsideReset
  /-- `len(P) ≥ 1` in PREFILL and STREAM (R197, R199) -/
  | emptyPattern
  /-- START only with `st.sys = READY` (R198) -/
  | startBeforeReady
  deriving DecidableEq, Repr

/-- The reasons a step stops with a fault. -/
inductive Fault where
  /-- Raised by `step` from a state that holds a fault record: the block has stopped (R224). Safe: no step is taken. -/
  | stopped (record : FaultRecord)
  /-- Raised by a host procedure started against an obligation no fault covers: stuck (U18; log 13). Safe: the model stops. -/
  | hostObligation (duty : HostDuty)
  deriving DecidableEq, Repr

/-- The reasons a step is refused. -/
inductive Refusal where
  /-- Raised by an arm of `exec` whose instruction has no meaning yet. Safe. No arm raises it now. -/
  | notModelled (mnemonic : String)
  deriving DecidableEq, Repr

/-- The state of a freshly constructed block: the table of R250, with the two drawn levels as arguments. -/
def State.fresh (cfg : Config) (sda rst : Level) : State where
  cfg := cfg
  cs := true
  scl := true
  sda := sda
  depth := 0
  wire := []
  result := .ok
  rst := rst
  storage := []
  wpos := 0
  rpos := 0
  fill := 0
  phase := .owned
  accepted := 0
  desc := Descriptor.chain cfg.ringN cfg.ringS
  lcdOut := []
  faults := []
  sys := .reset
  sysError := none
  host := ⟨[], .ok, 0, 0⟩
  draws := ⟨[], 0, [], [], 0⟩

/-- The machine right after reset (R250), with every open parameter and draw an opaque constant (logs 1, 2, 4, 5, 6, 7, 23). -/
def State.reset : State := State.fresh Config.machine Config.sdaReset Config.rstReset

end Sys2Proof.Machine
end

