-- ==== Sys2Proof/Machine/Memory.lean ====
section
/-! DEFINITION. The ring storage as a canonical list of cells (20_memory.md R50, R53; 10_state.md R30; log 20): indices
strictly rising, and an index that is not listed holds no value. -/

namespace Sys2Proof.Machine.Memory

open Sys2Proof

/-- Every listed index is above `a`, and the indices rise strictly. -/
def risesFrom (a : Nat) : List Host.Cell → Bool
  | [] => true
  | c :: m => decide (a < c.1) && risesFrom c.1 m

/-- The canonical form. -/
def wf : List Host.Cell → Bool
  | [] => true
  | c :: m => risesFrom c.1 m

/-- `MemRead(a, 1)`: the byte of cell `a`, or no value (R9, R30). -/
def read (m : List Host.Cell) (a : Nat) : Option Byte :=
  match m with
  | [] => none
  | c :: m => if a = c.1 then some c.2 else read m a

/-- `MemWrite(a, 1, v)` (R9). -/
def write (m : List Host.Cell) (a : Nat) (v : Byte) : List Host.Cell :=
  match m with
  | [] => [(a, v)]
  | c :: m => if a < c.1 then (a, v) :: c :: m else if a = c.1 then (a, v) :: m else c :: write m a v

/-- Byte `i` of `bytes` goes to index `(pos + i) mod cap`, in increasing i (R53, R153). -/
def writeRing (cap pos : Nat) (bytes : List Byte) (m : List Host.Cell) : List Host.Cell :=
  match bytes with
  | [] => m
  | b :: bytes => writeRing cap (pos + 1) bytes (write m (pos % cap) b)

/-- The `n` cells from `a` on, in increasing index; none where one of them holds no value. -/
def readCells (m : List Host.Cell) (a : Nat) : Nat → Option (List Byte)
  | 0 => some []
  | n + 1 =>
    match read m a, readCells m (a + 1) n with
    | some b, some bs => some (b :: bs)
    | _, _ => none

/-- The bytes of the `n` cells `(pos + j) mod cap`, j from 0 on, leaving out cells without a value. -/
def ringBytes (m : List Host.Cell) (cap pos : Nat) : Nat → List Byte
  | 0 => []
  | n + 1 => (read m (pos % cap)).toList ++ ringBytes m cap (pos + 1) n

end Sys2Proof.Machine.Memory
end

