-- ==== Sys2Proof/Machine/Operands.lean ====
section
/-! DEFINITION. From operands to the values the operations use: frame words and their bits (30_encoding.md R80, R81),
durations (R85), the host's rotated pattern (45_host_sequencing.md R197). No operand is sign-extended, scaled or
shifted (R85); the fields themselves are taken out in Decode.lean. -/

namespace Sys2Proof.Machine

open Sys2Proof

/-- The frame word: `w = zext_9(cd) * 256 + zext_9(b)` (R80). -/
def frameWord (cd : Level) (b : Byte) : FrameWord :=
  (BitVec.ofBool cd).setWidth 9 * 256#9 + b.setWidth 9

/-- The nine levels of a frame in the order they are sent: `w[8]` first, then `w[7]` to `w[0]` (R81). -/
def frameBits (w : FrameWord) : List Level :=
  [w.getLsbD 8, w.getLsbD 7, w.getLsbD 6, w.getLsbD 5, w.getLsbD 4, w.getLsbD 3, w.getLsbD 2, w.getLsbD 1, w.getLsbD 0]

/-- The level of the data line after frames of the listed bytes: bit 0 of the last one (R113). -/
def lastBit (bytes : List Byte) (v : Level) : Level := bytes.foldl (fun _ b => b.getLsbD 0) v

/-- A DELAY_US operand in nanoseconds: `us * 1000` (R85, R191). -/
def delayNs (us : BitVec 24) : Nat := us.toNat * 1000

/-- `rot(P, o) = P[o..] ++ P[..o]` (R197). DESIGN CHOICE (log 25): where `o` is above `len(P)`, as the first round of a
STREAM may have it, the spec gives the slices no meaning; `P[o..]` is then empty and `P[..o]` all of P. -/
def rot (p : List Byte) (o : Nat) : List Byte := p.drop o ++ p.take o

end Sys2Proof.Machine
end

