-- ==== Sys2Proof/Machine/Flags.lean ====
section
/-! DEFINITION. The block has no condition codes; what an operation reports is `st.result`, `st.accepted` and the fault
list (10_state.md R44). Their updates and the count a push reports. -/

namespace Sys2Proof.Machine

open Sys2Proof

/-- `st.result <- r` (R28). -/
def State.setResult (s : State) (r : Result) : State := { s with result := r }

/-- The count a push of `n` bytes accepts: `min(n, C - st.fill)` (42_ring_buffer.md R151, R153). -/
def State.acceptCount (s : State) (n : Nat) : Nat := min n (s.cfg.ringC - s.fill)

/-- Append a record to `st.faults` (R39). -/
def State.record (s : State) (r : FaultRecord) : State := { s with faults := s.faults ++ [r] }

end Sys2Proof.Machine
end

