-- ==== Sys2Proof/Machine/Ops.lean ====
section
/-! DEFINITION. The shared operations: raising a fault, construction, trace events, bits and frames on either backend,
sessions (40_serial_transport.md R112 to R118) and the push body (42_ring_buffer.md R153). -/

namespace Sys2Proof.Machine

open Sys2Proof

/-! Faults. -/

/-- `raise Fault(code)`: appends the record `(code, info)` and changes nothing else (60_exceptions.md R222). The block
has no trap entry, handler or return (R228); `step` takes no step from a state that holds a record (R224; log 8). -/
def State.raise (s : State) (code : FaultCode) (info : FaultInfo) : State := s.record ⟨code, info⟩

/-- An operation raises a fault: the record holds its operation word (R221). -/
def State.raiseOp (s : State) (code : FaultCode) (w : OpWord) : State := s.raise code (.opWord w)

/-- Construction (42_ring_buffer.md R150; 70_reset_and_hazards.md R250): the reset state, with CONFIG_INVALID recorded
where the configuration is ill-formed, so that nothing of the run is executed. -/
def State.construct (cfg : Config) (sda rst : Level) : State :=
  if cfg.ringOk then State.fresh cfg sda rst
  else (State.fresh cfg sda rst).raise .configInvalid (.ring cfg.ringC cfg.ringN cfg.ringS)

/-! The wire trace. -/

/-- `emit(ev)` (R9, R27). -/
def State.emit (s : State) (ev : Event) : State := { s with wire := s.wire ++ [ev] }

/-- `wait(d)` (R9, R12). -/
def State.wait (s : State) (ns : Nat) : State := s.emit (.wait ns)

def State.driveCs (s : State) (v : Level) : State := { s with cs := v }.emit (.setCs v)

def State.driveScl (s : State) (v : Level) : State := { s with scl := v }.emit (.setScl v)

def State.driveSda (s : State) (v : Level) : State := { s with sda := v }.emit (.setSda v)

def State.driveRst (s : State) (v : Level) : State := { s with rst := v }.emit (.setRst v)

/-! Frames. -/

/-- `BitSlot(v)` (R112). -/
def bitSlot (v : Level) (s : State) : State :=
  ((((s.driveScl false).driveSda v).wait s.cfg.tBit).driveScl true).wait s.cfg.tBit

/-- The bit slots of the listed levels, in order. -/
def bitSlots : List Level → State → State
  | [], s => s
  | v :: vs, s => bitSlots vs (bitSlot v s)

/-- `FrameBB(cd, b)` (R113). -/
def frameBB (cd : Level) (b : Byte) (s : State) : State :=
  (bitSlots (frameBits (frameWord cd b)) s).wait s.cfg.tByte

/-- The outcome drawn for the i-th HW frame from here (R117; log 5): `none` where the transaction completes. -/
def State.busOutcome (s : State) (i : Nat) : Option Err :=
  match s.draws.bus[i]? with
  | some o => o
  | none => Config.freeBusOutcome (s.draws.busIx + i)

/-- The draw of one HW frame is used up. -/
def State.takeBusOutcome (s : State) : State :=
  { s with draws := { s.draws with bus := s.draws.bus.drop 1, busIx := s.draws.busIx + 1 } }

/-- The draws of `n` HW frames are used up. -/
def Draws.takeBus (d : Draws) (n : Nat) : Draws := { d with bus := d.bus.drop n, busIx := d.busIx + n }

/-- `FrameHW(cd, b)` (R117). -/
def frameHW (cd : Level) (b : Byte) (s : State) : Result × State :=
  match s.busOutcome 0 with
  | none => (.ok, s.takeBusOutcome.emit (.hwWord (frameWord cd b)))
  | some e => (.err e, s.takeBusOutcome.emit (.hwFault (frameWord cd b)))

/-- `EmitFrame(cd, b)` (R118). -/
def emitFrame (cd : Level) (b : Byte) (s : State) : Result × State :=
  match s.cfg.kind with
  | .bb => (.ok, frameBB cd b s)
  | .hw => frameHW cd b s

/-- The loop of ST_DATA (R122): data frames in list order, up to the first one that fails. -/
def sendData : List Byte → State → Result × State
  | [], s => (.ok, s)
  | b :: bytes, s =>
    match emitFrame true b s with
    | (.ok, s) => sendData bytes s
    | (.err e, s) => (.err e, s)

/-! Sessions. -/

/-- `SessionOpen()` (R114). -/
def sessionOpen (s : State) : State :=
  let s := if s.cfg.kind = .bb ∧ s.depth = 0 then (s.driveCs false).wait s.cfg.tCsLead else s
  { s with depth := s.depth + 1 }

/-- `SessionClose()` (R115); its callers see to `st.depth ≥ 1`. -/
def sessionClose (s : State) : State :=
  let s := { s with depth := s.depth - 1 }
  if s.cfg.kind = .bb ∧ s.depth = 0 then (s.wait s.cfg.tCsLag).driveCs true else s

/-! The ring. -/

/-- `PushCore(bytes)` (R153): the leading `k` bytes are stored, the cursor and the fill count move on, and `k` is
reported. -/
def pushCore (bytes : List Byte) (s : State) : State :=
  let k := s.acceptCount bytes.length
  { s with
    storage := Memory.writeRing s.cfg.ringC s.wpos (bytes.take k) s.storage
    wpos := (s.wpos + k) % s.cfg.ringC
    fill := s.fill + k
    accepted := k }

end Sys2Proof.Machine
end

