-- ==== Sys2Proof/Machine/Dma.lean ====
section
/-! DEFINITION. The DMA agent (42_ring_buffer.md R170 to R174): one step drains one descriptor of the chain. -/

namespace Sys2Proof.Machine

open Sys2Proof

/-- Descriptor i's distance ahead of the DMA position: `k(i) = (i - rpos / S) mod N` (10_state.md R37). -/
def State.descriptorDistance (s : State) (i : Nat) : Nat :=
  (i + s.cfg.ringN - s.rpos / s.cfg.ringS % s.cfg.ringN) % s.cfg.ringN

/-- Descriptor i is ready: full, waiting for the DMA engine; otherwise it is software's (R37). -/
def State.descriptorReady (s : State) (i : Nat) : Bool :=
  decide (s.phase = .shared) && decide ((s.descriptorDistance i + 1) * s.cfg.ringS ≤ s.fill)

/-- `draw(underrun_bytes)`: S bytes, any values (R171; log 6). -/
def State.underrunBytes (s : State) : List Byte :=
  (List.range s.cfg.ringS).map fun j => (s.draws.underrun[j]?).getD (Config.freeUnderrunByte j)

/-- `DmaUnderrun()` (R171); the record holds the descriptor index and the fill count (R221). -/
def dmaUnderrun (s : State) : State :=
  { s with lcdOut := s.lcdOut ++ s.underrunBytes }.raise .underrun
    (.descriptorFill (s.rpos / s.cfg.ringS) s.fill)

/-- The bytes of descriptor i and where the chain goes on: the offset of its successor (R36, R51, R53). None where the
chain has no such descriptor or one of its cells holds no value. -/
def State.readDescriptor (s : State) (i : Nat) : Option (List Byte × Nat) :=
  match s.desc[i]? with
  | none => none
  | some d =>
    match s.desc[d.next]?, Memory.readCells s.storage d.offset d.length with
    | some d', some bytes => some (bytes, d'.offset)
    | _, _ => none

/-- `DmaStep()` (R170). A descriptor whose bytes are not all there is an underrun too (R48; log 14). -/
def dmaStep (s : State) : State :=
  if s.fill < s.cfg.ringS then dmaUnderrun s
  else
    match s.readDescriptor (s.rpos / s.cfg.ringS) with
    | none => dmaUnderrun s
    | some (bytes, next) =>
      { s with lcdOut := s.lcdOut ++ bytes, rpos := next, fill := s.fill - s.cfg.ringS }

end Sys2Proof.Machine
end

