-- ==== Sys2Proof/Machine/HostLines.lean ====
section
/-! DEFINITION. The host's primitive operations (45_host_sequencing.md R190, R191). -/

namespace Sys2Proof.Machine

open Sys2Proof

/-- `RST_SET v` (R190). -/
def execRstSet (v : Level) (s : State) : Host.Outcome State Fault Refusal := .next (s.driveRst v)

/-- `DELAY_US us` (R191). -/
def execDelayUs (us : BitVec 24) (s : State) : Host.Outcome State Fault Refusal := .next (s.wait (delayNs us))

end Sys2Proof.Machine
end

