-- ==== Sys2Proof/Machine/RingBuffer.lean ====
section
/-! DEFINITION. The operations of the Ring Buffer Manager (42_ring_buffer.md R154 to R160). -/

namespace Sys2Proof.Machine

open Sys2Proof

/-- `RB_PUSH [bytes]` (R154): HANDLE_CONSUMED after TX_START (R155). -/
def execRbPush (bytes : List Byte) (s : State) : Host.Outcome State Fault Refusal :=
  match s.phase with
  | .shared => .next (s.raiseOp .handleConsumed (Instr.rbPush bytes).word)
  | .owned => .next (pushCore bytes s)

/-- `TX_START` (R156): HANDLE_CONSUMED the second time (R157); no check that the ring is full (R158). -/
def execTxStart (s : State) : Host.Outcome State Fault Refusal :=
  match s.phase with
  | .shared => .next (s.raiseOp .handleConsumed Instr.txStart.word)
  | .owned => .next { s with phase := .shared }

/-- `TX_PUSH [bytes]` (R159): NO_TRANSFER before TX_START (R160). -/
def execTxPush (bytes : List Byte) (s : State) : Host.Outcome State Fault Refusal :=
  match s.phase with
  | .owned => .next (s.raiseOp .noTransfer (Instr.txPush bytes).word)
  | .shared => .next (pushCore bytes s)

end Sys2Proof.Machine
end

