-- ==== Sys2Proof/Machine/SerialTransport.lean ====
section
/-! DEFINITION. The operations of the Serial Transport Unit (40_serial_transport.md R119 to R122). -/

namespace Sys2Proof.Machine

open Sys2Proof

/-- `ST_BEGIN` (R119). -/
def execStBegin (s : State) : Host.Outcome State Fault Refusal := .next (sessionOpen s)

/-- `ST_END` (R120). -/
def execStEnd (s : State) : Host.Outcome State Fault Refusal :=
  if s.depth = 0 then .next (s.raiseOp .sessionUnderflow Instr.stEnd.word) else .next (sessionClose s)

/-- `ST_CMD b` (R121). -/
def execStCmd (b : Byte) (s : State) : Host.Outcome State Fault Refusal :=
  let sent := emitFrame false b (sessionOpen s)
  .next ((sessionClose sent.2).setResult sent.1)

/-- `ST_DATA [bytes]` (R122). -/
def execStData (bytes : List Byte) (s : State) : Host.Outcome State Fault Refusal :=
  let sent := sendData bytes (sessionOpen s)
  .next ((sessionClose sent.2).setResult sent.1)

end Sys2Proof.Machine
end

