-- ==== Sys2Proof/Machine/Dispatch.lean ====
section
/-! DEFINITION. The meaning of every operation (spec/opcode_table.json). -/

namespace Sys2Proof.Machine

open Sys2Proof

def exec (i : Instr) (s : State) : Host.Outcome State Fault Refusal :=
  match i with
  | .stBegin => Sys2Proof.Machine.execStBegin s
  | .stEnd => Sys2Proof.Machine.execStEnd s
  | .stCmd b => Sys2Proof.Machine.execStCmd b s
  | .stData bytes => Sys2Proof.Machine.execStData bytes s
  | .rbPush bytes => Sys2Proof.Machine.execRbPush bytes s
  | .txStart => Sys2Proof.Machine.execTxStart s
  | .txPush bytes => Sys2Proof.Machine.execTxPush bytes s
  | .rstSet v => Sys2Proof.Machine.execRstSet v s
  | .delayUs us => Sys2Proof.Machine.execDelayUs us s

end Sys2Proof.Machine
end

