-- ==== Sys2Proof/Machine/HostSequencing.lean ====
section
/-! DEFINITION. The host: issuing one operation, and the procedures of 45_host_sequencing.md (R192 to R204) with the
bracket `while_asserted` (30_encoding.md R92). A host step takes one command off the to-do list and issues at most one
operation; the host's own assignments after it belong to the same step (log 12). -/

namespace Sys2Proof.Machine

open Sys2Proof

/-- `issue OP`: an illegal operation is not executed and raises ILLEGAL_OPERATION with its word (R87, R223). -/
def issueOp (op : Op) (s : State) : Host.Outcome State Fault Refusal :=
  match decode op with
  | .ok i => exec i s
  | .error _ => .next (s.raiseOp .illegalOperation op.word)

/-- The procedures issue operation words too (R93). -/
def issue (i : Instr) (s : State) : Host.Outcome State Fault Refusal := issueOp (encode i) s

/-- The procedure goes on with `f` unless the operation it issued has raised a fault (R224). -/
def thenHost (o : Host.Outcome State Fault Refusal) (f : State → State) : Host.Outcome State Fault Refusal :=
  match o with
  | .next s => if s.faults = [] then .next (f s) else .next s
  | .fault r => .fault r
  | .refused r => .refused r

/-- The commands are what the host does next. -/
def State.pushTodo (s : State) (cmds : List HostCmd) : State :=
  { s with host := { s.host with todo := cmds ++ s.host.todo } }

/-- `h.r <- st.result`. -/
def State.noteResult (s : State) : State := { s with host := { s.host with r := s.result } }

/-- `issue DELAY_US us` as a command. -/
def delayCmd (us : BitVec 24) : HostCmd := .issue (encode (.delayUs us))

/-- The six operations of RESET_PULSE (R192). -/
def resetPulseCmds : List HostCmd :=
  [.issue (encode (.rstSet true)), delayCmd Config.rstDwellUs,
   .issue (encode (.rstSet false)), delayCmd Config.rstDwellUs,
   .issue (encode (.rstSet true)), delayCmd Config.rstDwellUs]

/-- `while_asserted { body }`: the ST_END is issued however the body ends (R92). DESIGN CHOICE (log 27): R92 does not say
whether the rest of the body is still issued after one of its operations returned Err; here it is, to its last one. -/
def whileAssertedCmds (body : List Op) : List HostCmd :=
  .issue (encode .stBegin) :: body.map HostCmd.issue ++ [HostCmd.issue (encode .stEnd)]

/-- The settle delays after an entry (R194, R196). -/
def settleCmds (cfg : Config) (op : Byte) : List HostCmd :=
  (if op = cfg.sleepOutOpcode then [delayCmd Config.sleepOutUs] else []) ++
    (if op = cfg.displayOnOpcode then [delayCmd Config.displayOnUs] else [])

/-- INIT begins (R194, R200): only in RESET, else stuck (U18; log 13). -/
def hostInit (s : State) : Host.Outcome State Fault Refusal :=
  if s.sys = .reset then
    .next ({ s with sys := .configuring }.pushTodo (resetPulseCmds ++ [HostCmd.initEntry s.cfg.initTable]))
  else .fault (.hostObligation .initOutsideReset)

/-- INIT at the head of its loop: READY and OK after the last entry (R201), else the next entry's ST_BEGIN. -/
def hostInitEntry (rest : List (Byte × List Byte)) (s : State) : Host.Outcome State Fault Refusal :=
  match rest with
  | [] => .next { s with sys := .ready, host := { s.host with r := .ok } }
  | (op, ps) :: rest => thenHost (issue .stBegin s) fun s => s.pushTodo [.initCmd op ps rest]

/-- INIT issues ST_CMD op and notes its result; ST_DATA follows where it was OK and there are parameters. -/
def hostInitCmd (op : Byte) (ps : List Byte) (rest : List (Byte × List Byte)) (s : State) :
    Host.Outcome State Fault Refusal :=
  thenHost (issue (.stCmd op) s) fun s =>
    s.noteResult.pushTodo [if s.result = .ok ∧ ps ≠ [] then .initData op ps rest else .initEnd op rest]

/-- INIT issues ST_DATA ps and notes its result. -/
def hostInitData (op : Byte) (ps : List Byte) (rest : List (Byte × List Byte)) (s : State) :
    Host.Outcome State Fault Refusal :=
  thenHost (issue (.stData ps) s) fun s => s.noteResult.pushTodo [.initEnd op rest]

/-- After an entry's ST_END: abort on an error (R195, R201), else the settle delays and the remaining entries. -/
def afterEntry (op : Byte) (rest : List (Byte × List Byte)) (s : State) : State :=
  match s.host.r with
  | .err e => { s with sys := .reset, sysError := some e }
  | .ok => s.pushTodo (settleCmds s.cfg op ++ [HostCmd.initEntry rest])

/-- INIT issues the entry's ST_END, on failure too (R92). -/
def hostInitEnd (op : Byte) (rest : List (Byte × List Byte)) (s : State) : Host.Outcome State Fault Refusal :=
  thenHost (issue .stEnd s) (afterEntry op rest)

/-- `h.k <- st.accepted; h.off <- (h.off + h.k) mod len(P)` (R197, R199). -/
def notePush (p : List Byte) (s : State) : State :=
  { s with host := { s.host with k := s.accepted, off := (s.host.off + s.accepted) % p.length } }

/-- PREFILL begins (R197): the pattern must not be empty, else stuck (U18; log 13). DESIGN CHOICE (log 26): R202 places it
in READY and says nothing of another system state; it runs in every one. -/
def hostPrefill (p : List Byte) (s : State) : Host.Outcome State Fault Refusal :=
  if p = [] then .fault (.hostObligation .emptyPattern)
  else .next ({ s with host := { s.host with off := 0 } }.pushTodo [.prefillLoop p])

/-- One round of PREFILL (R197): it returns when the push accepted less than it was offered. -/
def hostPrefillLoop (p : List Byte) (s : State) : Host.Outcome State Fault Refusal :=
  thenHost (issue (.rbPush (rot p s.host.off)) s) fun s =>
    if s.accepted < p.length then notePush p s else (notePush p s).pushTodo [.prefillLoop p]

/-- `START` (R198): with `st.sys = READY`. After a TX_START its own TX_START faults (R157); otherwise a START outside
READY is stuck (U18; log 13). -/
def hostStart (s : State) : Host.Outcome State Fault Refusal :=
  if s.sys = .ready ∨ s.phase = .shared then
    thenHost (issue .txStart s) fun s => { s with sys := .streaming }
  else .fault (.hostObligation .startBeforeReady)

/-- STREAM begins (R199): the pattern must not be empty, else stuck (U18; log 13). DESIGN CHOICE (logs 25, 26): it begins at
every offset and in every system state. -/
def hostStream (p : List Byte) (off : Nat) (s : State) : Host.Outcome State Fault Refusal :=
  if p = [] then .fault (.hostObligation .emptyPattern)
  else .next ({ s with host := { s.host with off := off } }.pushTodo [.streamLoop p])

/-- One round of STREAM, which never returns (R199, R203). -/
def hostStreamLoop (p : List Byte) (s : State) : Host.Outcome State Fault Refusal :=
  thenHost (issue (.txPush (rot p s.host.off)) s) fun s => (notePush p s).pushTodo [.streamLoop p]

/-- BOOT after INIT (R204): return on an error, else PREFILL, START, and STREAM from the offset PREFILL returned. -/
def hostBootContinue (p : List Byte) (s : State) : Host.Outcome State Fault Refusal :=
  match s.host.r with
  | .err _ => .next s
  | .ok => .next (s.pushTodo [.prefill p, .start, .streamLoop p])

/-- One command of the host. -/
def hostCmd (c : HostCmd) (s : State) : Host.Outcome State Fault Refusal :=
  match c with
  | .issue op => issueOp op s
  | .whileAsserted body => .next (s.pushTodo (whileAssertedCmds body))
  | .resetPulse => .next (s.pushTodo resetPulseCmds)
  | .init => hostInit s
  | .prefill p => hostPrefill p s
  | .start => hostStart s
  | .stream p off => hostStream p off s
  | .boot p => .next (s.pushTodo [.init, .bootContinue p])
  | .initEntry rest => hostInitEntry rest s
  | .initCmd op ps rest => hostInitCmd op ps rest s
  | .initData op ps rest => hostInitData op ps rest s
  | .initEnd op rest => hostInitEnd op rest s
  | .prefillLoop p => hostPrefillLoop p s
  | .streamLoop p => hostStreamLoop p s
  | .bootContinue p => hostBootContinue p s

/-- The first command is taken off the to-do list. -/
def State.popTodo (s : State) : State := { s with host := { s.host with todo := s.host.todo.drop 1 } }

/-- A step of the host: its next command. With nothing to do the host waits (70_reset_and_hazards.md R251; log 11). -/
def hostStep (s : State) : Host.Outcome State Fault Refusal :=
  match s.host.todo with
  | [] => .next s
  | c :: _ => hostCmd c s.popTodo

end Sys2Proof.Machine
end

