-- ==== Sys2Proof/Machine/Agents.lean ====
section
/-! DEFINITION. Which agent takes the next step (20_memory.md R60; 42_ring_buffer.md R170, R172). -/

namespace Sys2Proof.Machine

open Sys2Proof

/-- How many choices the host takes before the DMA agent's next one (R60, R172; log 7). A schedule is one such number
after another, so the schedules are the weakly fair ones and no others. -/
def Draws.gap (d : Draws) : Nat :=
  match d.sched with
  | g :: _ => g
  | [] => Config.freeGap d.schedIx

/-- `g` host choices before the DMA agent's next one. -/
def Draws.withGap (d : Draws) (g : Nat) : Draws := { d with sched := g :: d.sched.drop 1 }

/-- The draw of one choice is used up. -/
def Draws.takeChoice (d : Draws) : Draws :=
  match d.gap with
  | 0 => { d with sched := d.sched.drop 1, schedIx := d.schedIx + 1 }
  | g + 1 => d.withGap g

/-- The agent drawn for the next choice (R60). -/
def State.drawnAgent (s : State) : Agent :=
  match s.draws.gap with
  | 0 => .dma
  | _ + 1 => .host

/-- The draw of one choice is used up. -/
def State.takeChoice (s : State) : State := { s with draws := s.draws.takeChoice }

/-- A step from a state that holds no fault record. In phase OWNED only the host steps (R174). In phase SHARED the DMA
agent is enabled (R170); where the host has something to do as well, the schedule picks one of the two, and it never puts
the DMA agent off for ever (R172). -/
def agentStep (s : State) : Host.Outcome State Fault Refusal :=
  match s.phase with
  | .owned => hostStep s
  | .shared =>
    match s.host.todo with
    | [] => .next (dmaStep s)
    | _ :: _ =>
      match s.drawnAgent with
      | .host => hostStep s.takeChoice
      | .dma => .next (dmaStep s.takeChoice)

/-- The operation of a table word is the host's next command; where the DMA agent is enabled too, the schedule picks the
host first (log 22). -/
def State.withNextOp (s : State) (op : Op) : State :=
  match s.phase with
  | .owned => s.pushTodo [.issue op]
  | .shared => { s.pushTodo [.issue op] with draws := s.draws.withGap (s.draws.gap + 1) }

end Sys2Proof.Machine
end

