-- ==== Sys2Proof/Machine/Step.lean ====
section
/-! DEFINITION. One step of the machine, and a table word put where the next step takes its operation from. -/

namespace Sys2Proof.Machine

open Sys2Proof

/-- No step is taken from a faulted state (60_exceptions.md R224); otherwise one agent steps (R60). -/
def step (s : State) : Host.Outcome State Fault Refusal :=
  match s.faults with
  | [] => agentStep s
  | r :: _ => .fault (.stopped r)

/-- `s` with the operation whose bits are `w` issued next (logs 10, 22). -/
def State.withFetchWord (s : State) (nbits w : Nat) : State := s.withNextOp (tableOp nbits w)

end Sys2Proof.Machine
end

