-- ==== Sys2Proof/Machine/Trace.lean ====
section
/-! DEFINITION. The vocabulary of the wire trace (95_test_vectors.md, conventions), the minimum time of a trace
(00_scope.md R12), the levels sampled at rising clock edges (30_encoding.md R81), and a monitor of the bit-banged line
timing (40_serial_transport.md R123 to R125). -/

namespace Sys2Proof.Machine.Trace

open Sys2Proof Sys2Proof.Machine

/-- `slot(v)`: the five events of a bit slot (R112). -/
def slot (cfg : Config) (v : Level) : List Event :=
  [.setScl false, .setSda v, .wait cfg.tBit, .setScl true, .wait cfg.tBit]

/-- The slots of the listed levels. -/
def slots (cfg : Config) (vs : List Level) : List Event := vs.flatMap (slot cfg)

/-- The 46 events of a BB frame (R113). -/
def frame (cfg : Config) (cd : Level) (b : Byte) : List Event :=
  slots cfg (frameBits (frameWord cd b)) ++ [.wait cfg.tByte]

/-- `open`: chip-select asserted, lead time (R114). -/
def openEvents (cfg : Config) : List Event := [.setCs false, .wait cfg.tCsLead]

/-- `close`: lag time, chip-select released (R115). -/
def closeEvents (cfg : Config) : List Event := [.wait cfg.tCsLag, .setCs true]

/-- A BB session at depth `d` around `body`: the bracket only for the outermost one (R114, R115). -/
def session (cfg : Config) (d : Nat) (body : List Event) : List Event :=
  if d = 0 then openEvents cfg ++ body ++ closeEvents cfg else body

/-- `RP`: the trace of RESET_PULSE (R192). -/
def resetPulse : List Event :=
  [.setRst true, .wait 100000000, .setRst false, .wait 100000000, .setRst true, .wait 100000000]

/-- The minimum time of one event (R12). -/
def eventTime : Event → Nat
  | .setCs _ => 0
  | .setScl _ => 0
  | .setSda _ => 0
  | .setRst _ => 0
  | .wait ns => ns
  | .hwWord _ => 0
  | .hwFault _ => 0

/-- The minimum time of a trace: the sum of its waits (R12). -/
def minTime : List Event → Nat
  | [] => 0
  | e :: t => eventTime e + minTime t

/-- The data levels at the rising clock edges of a trace that starts at clock level `scl` and data level `sda` (R81). -/
def samples (scl sda : Level) : List Event → List Level
  | [] => []
  | .setScl v :: t => (if scl = false ∧ v = true then [sda] else []) ++ samples v sda t
  | .setSda v :: t => samples scl v t
  | .setCs _ :: t => samples scl sda t
  | .setRst _ :: t => samples scl sda t
  | .wait _ :: t => samples scl sda t
  | .hwWord _ :: t => samples scl sda t
  | .hwFault _ :: t => samples scl sda t

/-- What a timing monitor of the BB lines remembers: the levels, and the minimum time since the last clock event, data
event, rising clock edge and chip-select fall, none where there was no such event yet. -/
structure Monitor where
  cs : Level
  scl : Level
  sinceScl : Option Nat
  sinceSda : Option Nat
  sinceRise : Option Nat
  sinceSelect : Option Nat
  /-- no requirement has been broken so far -/
  ok : Bool
  deriving DecidableEq, Repr

/-- At least `d` ns have passed since an event, or there was none. -/
def atLeast (d : Nat) : Option Nat → Bool
  | none => true
  | some t => decide (d ≤ t)

/-- The monitor at reset: chip-select and clock high (R250). -/
def Monitor.init : Monitor := ⟨true, true, none, none, none, none, true⟩

/-- The requirements of R123 (clock events at least `T_BIT` apart), R124 (data driven at least `T_BIT` before a rising
edge, unchanged for at least `T_BIT` after it, changed only while the clock is low) and R125 (at least `T_CS_LEAD` from
chip-select low to the first clock event, at least `T_CS_LAG` from the last rising edge to chip-select high, clock and
data driven only while chip-select is low). -/
def Monitor.next (cfg : Config) (m : Monitor) : Event → Monitor
  | .setCs v =>
    { m with
      cs := v
      sinceSelect := if v = false then some 0 else m.sinceSelect
      ok := m.ok && (v == false || atLeast cfg.tCsLag m.sinceRise) }
  | .setScl v =>
    { m with
      scl := v
      sinceScl := some 0
      sinceRise := if m.scl = false ∧ v = true then some 0 else m.sinceRise
      ok := m.ok && m.cs == false && atLeast cfg.tBit m.sinceScl && atLeast cfg.tCsLead m.sinceSelect &&
        (v == false || m.scl == true || atLeast cfg.tBit m.sinceSda) }
  | .setSda _ =>
    { m with
      sinceSda := some 0
      ok := m.ok && m.cs == false && m.scl == false && atLeast cfg.tBit m.sinceRise }
  | .setRst _ => m
  | .wait ns =>
    { m with
      sinceScl := m.sinceScl.map (· + ns)
      sinceSda := m.sinceSda.map (· + ns)
      sinceRise := m.sinceRise.map (· + ns)
      sinceSelect := m.sinceSelect.map (· + ns) }
  | .hwWord _ => m
  | .hwFault _ => m

/-- The monitor after a trace. -/
def monitor (cfg : Config) (m : Monitor) (t : List Event) : Monitor := t.foldl (Monitor.next cfg) m

end Sys2Proof.Machine.Trace
end

