-- ==== Sys2Proof/Machine/Panel.lean ====
section
/-! DEFINITION. The panel's view of the wire trace (40_serial_transport.md R140), an observation: no state of the block. -/

namespace Sys2Proof.Machine.Panel

open Sys2Proof Sys2Proof.Machine

/-- What the panel receives (R140). -/
inductive Item where
  | select
  | deselect
  | frame (cd : Level) (b : Byte)
  | unknown (w : FrameWord)
  /-- chip-select rose in the middle of a frame -/
  | cut (bits : List Level)
  /-- a rising edge before the data line was ever driven -/
  | badSample
  deriving DecidableEq, Repr

/-- The variables of `Decode` (R140). `sda` is none for `⊥`. -/
structure View where
  cs : Level
  scl : Level
  sda : Option Level
  bits : List Level
  out : List Item
  deriving DecidableEq, Repr

/-- `cs <- 1; scl <- 1; sda <- ⊥; bits <- []; out <- []`. -/
def View.init : View := ⟨true, true, none, [], []⟩

/-- `sum_{j=0..7} bits[1+j] * 2^(7-j)`: the byte of eight levels, most significant first. -/
def byteOf (bits : List Level) : Byte :=
  BitVec.ofNat 8 (bits.foldl (fun n v => 2 * n + v.toNat) 0)

/-- One sampled level: the ninth ends a frame. -/
def View.sample (p : View) (v : Level) : View :=
  let bits := p.bits ++ [v]
  if bits.length = 9 then { p with out := p.out ++ [.frame (bits.headD false) (byteOf bits.tail)], bits := [] }
  else { p with bits := bits }

/-- A chip-select event. -/
def View.select (p : View) (v : Level) : View :=
  if p.cs = true ∧ v = false then { p with cs := v, out := p.out ++ [.select], bits := [] }
  else if p.cs = false ∧ v = true then
    { p with
      cs := v
      out := p.out ++ (if p.bits = [] then [] else [.cut p.bits]) ++ [.deselect]
      bits := [] }
  else { p with cs := v }

/-- A clock event: the panel latches the data line on a rising edge while it is selected. -/
def View.clock (p : View) (v : Level) : View :=
  let p' := if p.scl = false ∧ v = true ∧ p.cs = false then
      match p.sda with
      | none => { p with out := p.out ++ [.badSample] }
      | some d => p.sample d
    else p
  { p' with scl := v }

/-- One event of the trace. -/
def View.next (p : View) : Event → View
  | .setCs v => p.select v
  | .setSda v => { p with sda := some v }
  | .setScl v => p.clock v
  | .hwWord w => { p with out := p.out ++ [.frame (w.getLsbD 8) (w.setWidth 8)] }
  | .hwFault w => { p with out := p.out ++ [.unknown w] }
  | .setRst _ => p
  | .wait _ => p

/-- The panel's variables after a trace. -/
def view (p : View) (t : List Event) : View := t.foldl View.next p

/-- `Decode(trace)` (R140). -/
def received (t : List Event) : List Item := (view View.init t).out

/-- The bits of a HW frame in the order the peripheral shifts them out, under the parameter `HW_WIRE_ORDER`
(30_encoding.md R82). No rule depends on it. -/
def hwShiftOut (cfg : Config) (w : FrameWord) : List Level := cfg.hwWireOrder.map fun i => w.getLsbD i.val

end Sys2Proof.Machine.Panel
end

