-- ==== Sys2Proof/Safety.lean ====
section
/-! DEFINITION. What counts as a safe state and a good run, in the terms the statements use: the invariants of
10_state.md R42, R43 and R48, of the host's procedures, of the panel's view and of the line timing; the accepted bytes
of a run (42_ring_buffer.md R175) and the content of BOOT (45_host_sequencing.md R206, R207). -/

namespace Sys2Proof.Machine

open Sys2Proof

/-- `n` steps from `s`, up to the first stop. -/
def run (n : Nat) (s : State) : Host.Outcome State Fault Refusal := core.run n s

/-- The ring's invariant (R42), with the configuration (R150), the constant chain (R36, R51), the storage's canonical
form within its bounds (R50), and a value in every cell that `fill` counts (R48). -/
structure RingInv (s : State) : Prop where
  config : s.cfg.ringOk = true
  chain : s.desc = Descriptor.chain s.cfg.ringN s.cfg.ringS
  memory : Memory.wf s.storage = true
  bounded : ∀ c ∈ s.storage, c.1 < s.cfg.ringC
  fill_le : s.fill ≤ s.cfg.ringC
  rpos_lt : s.rpos < s.cfg.ringC
  rpos_aligned : s.rpos % s.cfg.ringS = 0
  cursors : s.wpos = (s.rpos + s.fill) % s.cfg.ringC
  valued : ∀ j < s.fill, (Memory.read s.storage ((s.rpos + j) % s.cfg.ringC)).isSome = true
  owned : s.phase = .owned → s.rpos = 0 ∧ s.lcdOut = []

/-- The lines at an operation boundary (R43), the idle clock (R24), and BB never reporting an error (R28). -/
structure LineInv (s : State) : Prop where
  bb_select : s.cfg.kind = .bb → (s.cs = false ↔ 0 < s.depth)
  hw_select : s.cfg.kind = .hw → s.cs = true
  clock_idle : s.scl = true
  bb_result : s.cfg.kind = .bb → s.result = .ok

/-- A point inside a running INIT. -/
def HostCmd.inInit : HostCmd → Bool
  | .initEntry _ => true
  | .initCmd _ _ _ => true
  | .initData _ _ _ => true
  | .initEnd _ _ => true
  | .issue _ => false
  | .whileAsserted _ => false
  | .resetPulse => false
  | .init => false
  | .prefill _ => false
  | .start => false
  | .stream _ _ => false
  | .boot _ => false
  | .prefillLoop _ => false
  | .streamLoop _ => false
  | .bootContinue _ => false

/-- At most one INIT is running, and only in CONFIGURING (R200, R201). -/
structure HostInv (s : State) : Prop where
  one_init : s.host.todo.countP HostCmd.inInit ≤ 1
  configuring : 0 < s.host.todo.countP HostCmd.inInit → s.sys = .configuring

/-- An item no trace of the STU yields (40_serial_transport.md R141). -/
def Panel.Item.bad : Panel.Item → Bool
  | .cut _ => true
  | .badSample => true
  | .select => false
  | .deselect => false
  | .frame _ _ => false
  | .unknown _ => false

/-- The panel sees the lines as they are, is between two frames, and has received no cut frame and no bad sample (R140,
R141). -/
structure PanelInv (s : State) : Prop where
  cs : (Panel.view Panel.View.init s.wire).cs = s.cs
  scl : (Panel.view Panel.View.init s.wire).scl = s.scl
  between : (Panel.view Panel.View.init s.wire).bits = []
  clean : ∀ it ∈ Panel.received s.wire, it.bad = false

/-- The BB line timing of R123 to R125 has been met by the whole trace, and the next frame or session change will meet
it too. -/
structure TimingInv (s : State) : Prop where
  met : (Trace.monitor s.cfg Trace.Monitor.init s.wire).ok = true
  cs : (Trace.monitor s.cfg Trace.Monitor.init s.wire).cs = s.cs
  scl : (Trace.monitor s.cfg Trace.Monitor.init s.wire).scl = s.scl
  since_scl : Trace.atLeast s.cfg.tBit (Trace.monitor s.cfg Trace.Monitor.init s.wire).sinceScl = true
  since_rise : Trace.atLeast s.cfg.tBit (Trace.monitor s.cfg Trace.Monitor.init s.wire).sinceRise = true
  since_select :
    s.cs = false → Trace.atLeast s.cfg.tCsLead (Trace.monitor s.cfg Trace.Monitor.init s.wire).sinceSelect = true

/-- Issuing `op` raises ILLEGAL_OPERATION with its word and changes nothing else (R87, R221, R222). -/
def RaisesIllegal (op : Op) : Prop :=
  ∀ s : State, issueOp op s = .next { s with faults := s.faults ++ [⟨.illegalOperation, .opWord op.word⟩] }

/-- `m'` is `m` with the first `k` of `bytes` stored from ring position `pos` on, and every other cell as before (R153). -/
def StoredAt (cap pos k : Nat) (bytes : List Byte) (m m' : List Host.Cell) : Prop :=
  (∀ i < k, Memory.read m' ((pos + i) % cap) = bytes[i]?) ∧
    (∀ a, (∀ i < k, a ≠ (pos + i) % cap) → Memory.read m' a = Memory.read m a)

/-- `s` with `rest` as what the host has to do. -/
def State.withTodo (s : State) (rest : List HostCmd) : State := { s with host := { s.host with todo := rest } }

/-! The host's turns. -/

/-- The draws after `n` choices of the schedule. -/
def Draws.takeChoices : Nat → Draws → Draws
  | 0, d => d
  | n + 1, d => d.takeChoice.takeChoices n

/-- `s` with the choices of `n` host steps used up: one each in phase SHARED, none in phase OWNED (log 7). -/
def State.afterTurns (n : Nat) (s : State) : State :=
  { s with
    draws := match s.phase with
      | .owned => s.draws
      | .shared => s.draws.takeChoices n }

/-- The schedule leaves the next `n` choices to the host. In phase OWNED the host steps anyway. -/
def HostTakes (n : Nat) (s : State) : Prop := s.phase = .shared → n ≤ s.draws.gap

/-! Accepted bytes. -/

/-- The bytes accepted and not yet consumed, oldest first: `MemRead((rpos + j) mod C, 1)` for j below `fill` (R175). -/
def State.pending (s : State) : List Byte := Memory.ringBytes s.storage s.cfg.ringC s.rpos s.fill

/-- The operation a host command issues, if it issues one that decodes. -/
def HostCmd.issued (c : HostCmd) (s : State) : Option Op :=
  match c with
  | .issue op => some op
  | .whileAsserted _ => none
  | .resetPulse => none
  | .init => none
  | .prefill _ => none
  | .start => some (encode .txStart)
  | .stream _ _ => none
  | .boot _ => none
  | .initEntry [] => none
  | .initEntry (_ :: _) => some (encode .stBegin)
  | .initCmd op _ _ => some (encode (.stCmd op))
  | .initData _ ps _ => some (encode (.stData ps))
  | .initEnd _ _ => some (encode .stEnd)
  | .prefillLoop p => some (encode (.rbPush (rot p s.host.off)))
  | .streamLoop p => some (encode (.txPush (rot p s.host.off)))
  | .bootContinue _ => none

/-- Whether the host takes the next step. -/
def State.hostTurn (s : State) : Bool :=
  match s.phase, s.host.todo with
  | .owned, _ => true
  | .shared, [] => false
  | .shared, _ :: _ => decide (s.drawnAgent = .host)

/-- The bytes an operation offers to the ring. -/
def pushed : Instr → List Byte
  | .stBegin => []
  | .stEnd => []
  | .stCmd _ => []
  | .stData _ => []
  | .rbPush bytes => bytes
  | .txStart => []
  | .txPush bytes => bytes
  | .rstSet _ => []
  | .delayUs _ => []

/-- The bytes the next step offers to the ring. -/
def State.offered (s : State) : List Byte :=
  match s.hostTurn, s.host.todo with
  | true, c :: _ =>
    match (c.issued s).map decode with
    | some (.ok i) => pushed i
    | some (.error _) => []
    | none => []
  | _, _ => []

/-- `ACC` over `n` steps from `s`: the accepted leading bytes of every push, in order (R175). -/
def acceptedOver : Nat → State → List Byte
  | 0, _ => []
  | n + 1, s =>
    match step s with
    | .next s' => s.offered.take s'.accepted ++ acceptedOver n s'
    | .fault _ => []
    | .refused _ => []

/-! The content of BOOT. -/

/-- The first `n` bytes of the infinite repetition `P ++ P ++ P ++ ...` (R206). -/
def repeated (p : List Byte) (n : Nat) : List Byte := (List.range n).map fun i => p.getD (i % p.length) 0#8

/-- What the panel receives for the entries of an initialisation table under BB (R207); inside an open session, at depth
`d` above 0, the frames alone. -/
def tableItems (d : Nat) (table : List (Byte × List Byte)) : List Panel.Item :=
  table.flatMap fun e =>
    (if d = 0 then [.select] else []) ++ .frame false e.1 :: e.2.map (.frame true) ++ if d = 0 then [.deselect] else []

/-- What the panel receives for the entries under HW with no bus fault (R207). -/
def tableItemsHw (table : List (Byte × List Byte)) : List Panel.Item :=
  table.flatMap fun e => .frame false e.1 :: e.2.map (.frame true)

/-- The settle delays after an entry in the trace (R196). -/
def settleTrace (cfg : Config) (op : Byte) : List Event :=
  (if op = cfg.sleepOutOpcode then [.wait 100000000] else []) ++ if op = cfg.displayOnOpcode then [.wait 50000000] else []

/-- The trace of an entry under BB at depth `d` (R194): one session, then the settle delays. -/
def entryTrace (cfg : Config) (d : Nat) (e : Byte × List Byte) : List Event :=
  Trace.session cfg d (Trace.frame cfg false e.1 ++ e.2.flatMap (Trace.frame cfg true)) ++ settleTrace cfg e.1

/-- The trace of an entry under HW with no bus fault (R194). -/
def entryTraceHw (cfg : Config) (e : Byte × List Byte) : List Event :=
  .hwWord (e.1.setWidth 9) :: (e.2.map fun b => .hwWord (BitVec.ofNat 9 (0x100 + b.toNat))) ++ settleTrace cfg e.1

/-- The trace of INIT: RESET_PULSE, then every entry (R194). -/
def initTrace (cfg : Config) (entry : Byte × List Byte → List Event) : List Event :=
  Trace.resetPulse ++ cfg.initTable.flatMap entry

/-- The bytes of a table in the order they are sent (R194). -/
def tableBytes (table : List (Byte × List Byte)) : List Byte := table.flatMap fun e => e.1 :: e.2

/-- How many steps an entry of INIT takes: ST_BEGIN, ST_CMD, ST_DATA where there are parameters, ST_END, the settle delays
(R194; the count of steps is the model's, log 12). -/
def entrySteps (cfg : Config) (e : Byte × List Byte) : Nat :=
  (if e.2 = [] then 3 else 4) + (if e.1 = cfg.sleepOutOpcode then 1 else 0) + if e.1 = cfg.displayOnOpcode then 1 else 0

/-- How many steps INIT takes where no write fails: its beginning, RESET_PULSE, the entries, its end (log 12). -/
def initSteps (cfg : Config) : Nat := 1 + 6 + (cfg.initTable.map (entrySteps cfg)).sum + 1

/-- The minimum time of an entry under BB at depth 0 (70_reset_and_hazards.md R270). -/
def entryTime (cfg : Config) (e : Byte × List Byte) : Nat :=
  cfg.tCsLead + (e.2.length + 1) * (18 * cfg.tBit + cfg.tByte) + cfg.tCsLag +
    (if e.1 = cfg.sleepOutOpcode then 100000000 else 0) + if e.1 = cfg.displayOnOpcode then 50000000 else 0

/-- How many frames the entries of a table are. -/
def tableFrames (table : List (Byte × List Byte)) : Nat := (table.map fun e => e.2.length + 1).sum

/-- Every entry's parameters fit a length field (R205 item 6). -/
def tableFits (table : List (Byte × List Byte)) : Prop := ∀ e ∈ table, e.2.length < maxPayload

/-! The course of BOOT. -/

/-- A point of BOOT(P): what the host has still to do, with what holds there (R194, R197, R198, R199, R204). -/
inductive BootPoint (p : List Byte) (s : State) : Prop where
  | boot (phase : s.phase = .owned) (empty : s.fill = 0) (todo : s.host.todo = [.boot p])
  | init (phase : s.phase = .owned) (empty : s.fill = 0) (todo : s.host.todo = [.init, .bootContinue p])
  /-- before an entry's ST_BEGIN or INIT's end, with line and delay operations still to issue -/
  | entry (cmds : List HostCmd) (rest : List (Byte × List Byte)) (phase : s.phase = .owned) (empty : s.fill = 0)
      (sys : s.sys = .configuring) (table : rest <:+ s.cfg.initTable)
      (lines : ∀ c ∈ cmds, (∃ v, c = .issue (encode (.rstSet v))) ∨ ∃ us, c = .issue (encode (.delayUs us)))
      (todo : s.host.todo = cmds ++ [.initEntry rest, .bootContinue p])
  | command (op : Byte) (ps : List Byte) (rest : List (Byte × List Byte)) (phase : s.phase = .owned) (empty : s.fill = 0)
      (sys : s.sys = .configuring) (table : (op, ps) :: rest <:+ s.cfg.initTable) (depth : 0 < s.depth)
      (todo : s.host.todo = [.initCmd op ps rest, .bootContinue p])
  | parameters (op : Byte) (ps : List Byte) (rest : List (Byte × List Byte)) (phase : s.phase = .owned)
      (empty : s.fill = 0) (sys : s.sys = .configuring) (table : (op, ps) :: rest <:+ s.cfg.initTable) (depth : 0 < s.depth)
      (todo : s.host.todo = [.initData op ps rest, .bootContinue p])
  | sent (op : Byte) (rest : List (Byte × List Byte)) (phase : s.phase = .owned) (empty : s.fill = 0)
      (sys : s.sys = .configuring) (table : rest <:+ s.cfg.initTable) (depth : 0 < s.depth)
      (todo : s.host.todo = [.initEnd op rest, .bootContinue p])
  | initialised (phase : s.phase = .owned) (empty : s.fill = 0) (sys : s.host.r = .ok → s.sys = .ready)
      (todo : s.host.todo = [.bootContinue p])
  | returned (phase : s.phase = .owned) (empty : s.fill = 0) (todo : s.host.todo = [])
  | prefill (phase : s.phase = .owned) (empty : s.fill = 0) (sys : s.sys = .ready)
      (todo : s.host.todo = [.prefill p, .start, .streamLoop p])
  | prefilling (phase : s.phase = .owned) (sys : s.sys = .ready) (off : s.host.off = s.fill % p.length)
      (todo : s.host.todo = [.prefillLoop p, .start, .streamLoop p])
  | prefilled (phase : s.phase = .owned) (sys : s.sys = .ready) (off : s.host.off = s.fill % p.length)
      (todo : s.host.todo = [.start, .streamLoop p])
  | streaming (phase : s.phase = .shared) (sys : s.sys = .streaming)
      (off : s.host.off = (s.lcdOut.length + s.fill) % p.length) (todo : s.host.todo = [.streamLoop p])

/-- BOOT(P) is running as it should: at one of its points, with the ring's invariant, and with the bytes sent and the bytes
pending together the start of P repeated for ever (R206). -/
structure BootRunning (p : List Byte) (s : State) : Prop where
  ring : RingInv s
  pattern : p ≠ []
  point : BootPoint p s
  content : s.lcdOut ++ s.pending = repeated p (s.lcdOut.length + s.fill)

/-- The invariant of BOOT(P): as long as no fault is recorded it runs as it should (R206). -/
def BootInv (p : List Byte) (s : State) : Prop := s.faults = [] → BootRunning p s

/-- BOOT(P) has its INIT still to begin. -/
def State.initAhead (p : List Byte) (s : State) : Prop :=
  s.host.todo = [.boot p] ∨ s.host.todo = [.init, .bootContinue p]

end Sys2Proof.Machine
end

