-- ==== Sys2Proof/Certificates/Slice0/Obligations.lean ====
section
/-! DEFINITION. The statements for the provers. -/

open Sys2Proof Sys2Proof.Machine

/-! ## Encoding -/

/-- 30_encoding.md R83 to R86: decoding an encoded well-formed operation gives it back, operand and payload whole. -/
def Obligations.DecodeOfEncode : Prop :=
  ∀ i : Instr, i.wf = true → decode (encode i) = .ok i

/-- 30_encoding.md R83 to R89: what decodes is well-formed, is as long as its word says, and encodes to the same word and
payload, so no two operations share a spelling. That no payload stands beside a word without one is the model's choice
(log 9). -/
def Obligations.EncodeOfDecode : Prop :=
  ∀ (op : Op) (i : Instr), decode op = .ok i →
    encode i = op ∧ i.wf = true ∧ opLength op.word = 4 + op.payload.length

/-- 30_encoding.md R88 and R84: each mnemonic with its operand from the fields of the word, and the words of a mnemonic are
exactly those its row's match and mask select, with a payload as long as the word says. That a payload beside a word of
format N, B, V or D does not decode is the model's choice (log 9). -/
def Obligations.DecodeSelectsOperation : Prop :=
  (∀ w : OpWord,
    (w.toNat / 0x1000000 = 0x01 → w.toNat % 0x1000000 = 0 → decode ⟨w, []⟩ = .ok .stBegin) ∧
    (w.toNat / 0x1000000 = 0x02 → w.toNat % 0x1000000 = 0 → decode ⟨w, []⟩ = .ok .stEnd) ∧
    (w.toNat / 0x1000000 = 0x03 → w.toNat % 0x1000000 < 256 →
      decode ⟨w, []⟩ = .ok (.stCmd (BitVec.ofNat 8 (w.toNat % 0x1000000)))) ∧
    (∀ bytes : List Byte, bytes.length = w.toNat % 0x1000000 →
      (w.toNat / 0x1000000 = 0x04 → decode ⟨w, bytes⟩ = .ok (.stData bytes)) ∧
      (w.toNat / 0x1000000 = 0x05 → decode ⟨w, bytes⟩ = .ok (.rbPush bytes)) ∧
      (w.toNat / 0x1000000 = 0x07 → decode ⟨w, bytes⟩ = .ok (.txPush bytes))) ∧
    (w.toNat / 0x1000000 = 0x06 → w.toNat % 0x1000000 = 0 → decode ⟨w, []⟩ = .ok .txStart) ∧
    (w.toNat / 0x1000000 = 0x08 → w.toNat % 0x1000000 < 2 →
      decode ⟨w, []⟩ = .ok (.rstSet (decide (w.toNat % 0x1000000 = 1)))) ∧
    (w.toNat / 0x1000000 = 0x09 → decode ⟨w, []⟩ = .ok (.delayUs (BitVec.ofNat 24 (w.toNat % 0x1000000))))) ∧
  (∀ row ∈ opcodeTable, ∀ op : Op,
    ((∃ i, decode op = .ok i ∧ i.mnemonic = row.mnemonic) ↔
      (op.word &&& row.mask = row.value ∧ op.payload.length = payloadLength op.word)))

/-- 95_test_vectors.md V10: written-out words decode to the operations they stand for. -/
def Obligations.WrittenOutWordsDecode : Prop :=
  decode ⟨0x01000000#32, []⟩ = .ok .stBegin ∧
  decode ⟨0x02000000#32, []⟩ = .ok .stEnd ∧
  decode ⟨0x03000011#32, []⟩ = .ok (.stCmd 0x11#8) ∧
  decode ⟨0x04000001#32, [0xAA#8]⟩ = .ok (.stData [0xAA#8]) ∧
  decode ⟨0x05000003#32, [1#8, 2#8, 3#8]⟩ = .ok (.rbPush [1#8, 2#8, 3#8]) ∧
  decode ⟨0x06000000#32, []⟩ = .ok .txStart ∧
  decode ⟨0x07000001#32, [0x07#8]⟩ = .ok (.txPush [0x07#8]) ∧
  decode ⟨0x08000001#32, []⟩ = .ok (.rstSet true) ∧
  decode ⟨0x09FFFFFF#32, []⟩ = .ok (.delayUs 16777215#24)

/-- R87 with the payload rule R84: exactly which operations are illegal, each raising ILLEGAL_OPERATION and changing
nothing else; every other one decodes, `DELAY_US 0` among them. A payload stands beside the three L formats only. -/
def Obligations.IllegalOperationsExactly : Prop :=
  (∀ op : Op,
    (¬ (op.word.toNat / 0x1000000 = 4 ∨ op.word.toNat / 0x1000000 = 5 ∨ op.word.toNat / 0x1000000 = 7) →
      op.payload = []) →
    if op.word.toNat / 0x1000000 = 0 ∨ 0x0A ≤ op.word.toNat / 0x1000000 ∨
        ((op.word.toNat / 0x1000000 = 1 ∨ op.word.toNat / 0x1000000 = 2 ∨ op.word.toNat / 0x1000000 = 6) ∧
          op.word.toNat % 0x1000000 ≠ 0) ∨
        (op.word.toNat / 0x1000000 = 3 ∧ op.word.toNat % 0x1000000 / 0x100 ≠ 0) ∨
        (op.word.toNat / 0x1000000 = 8 ∧ op.word.toNat % 0x1000000 / 2 ≠ 0) ∨
        ((op.word.toNat / 0x1000000 = 4 ∨ op.word.toNat / 0x1000000 = 5 ∨ op.word.toNat / 0x1000000 = 7) ∧
          op.payload.length ≠ op.word.toNat % 0x1000000)
      then RaisesIllegal op
      else ∃ i, decode op = .ok i) ∧
  decode ⟨0x09000000#32, []⟩ = .ok (.delayUs 0#24)

/-! ## Steps and faults -/

/-- A step runs the decoded operation: where the host's next command issues an operation that decodes to `i`, and the host
is the agent that steps, the step is `exec i` on the state without that command (and, in phase SHARED, without the choice
that picked the host). -/
def Obligations.StepRunsDecodedOperation : Prop :=
  ∀ (s : State) (op : Op) (rest : List HostCmd) (i : Instr),
    s.faults = [] → s.host.todo = .issue op :: rest → decode op = .ok i →
    (s.phase = .owned → step s = exec i (s.withTodo rest)) ∧
    (s.phase = .shared → s.drawnAgent = .host → step s = exec i (s.takeChoice.withTodo rest))

/-- A table word put where the next operation is taken from is what the next step runs (logs 10, 22). -/
def Obligations.TableWordRunsNext : Prop :=
  ∀ (s : State) (nbits w : Nat) (i : Instr),
    s.faults = [] → decodeTableWord nbits w = some i →
    (s.phase = .owned → step (s.withFetchWord nbits w) = exec i s) ∧
    (s.phase = .shared → step (s.withFetchWord nbits w) = exec i { s with draws := s.draws.withGap s.draws.gap })

/-- R224: no step is taken from a faulted state, and no step removes a record. -/
def Obligations.FaultedStateStops : Prop :=
  (∀ s : State, s.faults ≠ [] → ∃ r ∈ s.faults, step s = .fault (.stopped r)) ∧
  (∀ s t : State, step s = .next t → ∃ l, t.faults = s.faults ++ l)

/-- R223: a step that is taken records at most one fault, and an operation that does not decode reports
ILLEGAL_OPERATION whatever the state is. -/
def Obligations.StepRecordsAtMostOneFault : Prop :=
  (∀ s t : State, step s = .next t → t.faults.length ≤ 1) ∧
  (∀ op r, decode op = .error r → RaisesIllegal op)

/-- R222: an operation that raises a fault changes nothing but the fault list, whose new record holds the operation's
word; the underrunning DMA step alone also appends its S drawn bytes. -/
def Obligations.FaultsArePrecise : Prop :=
  (∀ (op : Op) (s t : State), issueOp op s = .next t → t.faults ≠ s.faults →
    ∃ code, t = { s with faults := s.faults ++ [⟨code, .opWord op.word⟩] }) ∧
  (∀ s : State, (dmaStep s).faults ≠ s.faults →
    ∃ out : List Byte, out.length = s.cfg.ringS ∧
      dmaStep s =
        { s with
          lcdOut := s.lcdOut ++ out
          faults := s.faults ++ [⟨.underrun, .descriptorFill (s.rpos / s.cfg.ringS) s.fill⟩] })

/-- R221: the six fault codes and what each record holds. -/
def Obligations.FaultCodeNumbers : Prop :=
  FaultCode.number .illegalOperation = 1 ∧ FaultCode.number .sessionUnderflow = 2 ∧
  FaultCode.number .handleConsumed = 3 ∧ FaultCode.number .noTransfer = 4 ∧
  FaultCode.number .underrun = 5 ∧ FaultCode.number .configInvalid = 6

/-! ## Serial Transport Unit -/

/-- R119: `ST_BEGIN`. -/
def Obligations.StBeginOpensSession : Prop :=
  decode ⟨0x01000000#32, []⟩ = .ok .stBegin ∧
  (∀ (w : OpWord) (p : List Byte), w.toNat / 0x1000000 = 1 → w.toNat % 0x1000000 ≠ 0 → RaisesIllegal ⟨w, p⟩) ∧
  (∀ s : State,
    exec .stBegin s = .next
      { s with
        depth := s.depth + 1
        cs := if s.cfg.kind = .bb ∧ s.depth = 0 then false else s.cs
        wire := s.wire ++ if s.cfg.kind = .bb ∧ s.depth = 0 then [.setCs false, .wait s.cfg.tCsLead] else [] })

/-- R120: `ST_END`. -/
def Obligations.StEndClosesSession : Prop :=
  decode ⟨0x02000000#32, []⟩ = .ok .stEnd ∧
  (∀ (w : OpWord) (p : List Byte), w.toNat / 0x1000000 = 2 → w.toNat % 0x1000000 ≠ 0 → RaisesIllegal ⟨w, p⟩) ∧
  (∀ s : State, s.depth = 0 →
    exec .stEnd s = .next { s with faults := s.faults ++ [⟨.sessionUnderflow, .opWord 0x02000000#32⟩] }) ∧
  (∀ s : State, 0 < s.depth →
    exec .stEnd s = .next
      { s with
        depth := s.depth - 1
        cs := if s.cfg.kind = .bb ∧ s.depth = 1 then true else s.cs
        wire := s.wire ++ if s.cfg.kind = .bb ∧ s.depth = 1 then [.wait s.cfg.tCsLag, .setCs true] else [] })

/-- R121: `ST_CMD b` on both backends, at depth 0 and inside a session, with and without a bus fault. -/
def Obligations.StCmdSendsCommandFrame : Prop :=
  (∀ b : Byte, decode ⟨BitVec.ofNat 32 (0x03000000 + b.toNat), []⟩ = .ok (.stCmd b)) ∧
  (∀ (w : OpWord) (p : List Byte), w.toNat / 0x1000000 = 3 → w.toNat % 0x1000000 / 0x100 ≠ 0 →
    RaisesIllegal ⟨w, p⟩) ∧
  (∀ (s : State) (b : Byte), s.cfg.kind = .bb →
    exec (.stCmd b) s = .next
      { s with
        cs := if s.depth = 0 then true else s.cs
        scl := true
        sda := b.getLsbD 0
        wire := s.wire ++ Trace.session s.cfg s.depth (Trace.frame s.cfg false b)
        result := .ok }) ∧
  (∀ (s : State) (b : Byte), s.cfg.kind = .hw → s.busOutcome 0 = none →
    exec (.stCmd b) s = .next
      { s with
        wire := s.wire ++ [.hwWord (b.setWidth 9)]
        result := .ok
        draws := s.draws.takeBus 1 }) ∧
  (∀ (s : State) (b : Byte) (e : Err), s.cfg.kind = .hw → s.busOutcome 0 = some e →
    exec (.stCmd b) s = .next
      { s with
        wire := s.wire ++ [.hwFault (b.setWidth 9)]
        result := .err e
        draws := s.draws.takeBus 1 })

/-- R122: `ST_DATA [bytes]` on both backends: all frames in one session; under HW it stops at the first failing frame. -/
def Obligations.StDataSendsDataFrames : Prop :=
  (∀ bytes : List Byte, bytes.length < 2 ^ 24 →
    decode ⟨BitVec.ofNat 32 (0x04000000 + bytes.length), bytes⟩ = .ok (.stData bytes)) ∧
  (∀ (w : OpWord) (p : List Byte), w.toNat / 0x1000000 = 4 → p.length ≠ w.toNat % 0x1000000 → RaisesIllegal ⟨w, p⟩) ∧
  (∀ (s : State) (bytes : List Byte), s.cfg.kind = .bb →
    exec (.stData bytes) s = .next
      { s with
        cs := if s.depth = 0 then true else s.cs
        scl := if bytes = [] then s.scl else true
        sda := lastBit bytes s.sda
        wire := s.wire ++ Trace.session s.cfg s.depth (bytes.flatMap (Trace.frame s.cfg true))
        result := .ok }) ∧
  (∀ (s : State) (bytes : List Byte), s.cfg.kind = .hw → (∀ i < bytes.length, s.busOutcome i = none) →
    exec (.stData bytes) s = .next
      { s with
        wire := s.wire ++ bytes.map fun b => .hwWord (BitVec.ofNat 9 (0x100 + b.toNat))
        result := .ok
        draws := s.draws.takeBus bytes.length }) ∧
  (∀ (s : State) (sent : List Byte) (b : Byte) (rest : List Byte) (e : Err), s.cfg.kind = .hw →
    (∀ i < sent.length, s.busOutcome i = none) → s.busOutcome sent.length = some e →
    exec (.stData (sent ++ b :: rest)) s = .next
      { s with
        wire := s.wire ++ (sent.map fun b => .hwWord (BitVec.ofNat 9 (0x100 + b.toNat))) ++
          [.hwFault (BitVec.ofNat 9 (0x100 + b.toNat))]
        result := .err e
        draws := s.draws.takeBus (sent.length + 1) })

/-- 20_memory.md R57, 40_serial_transport.md R116 and R118: the frame of the four STU operations. Unless a fault is
recorded they change their lines, depth, result and trace only; under HW no line, under BB no draw. -/
def Obligations.SerialOperationsFrame : Prop :=
  ∀ (i : Instr) (s t : State),
    (i = .stBegin ∨ i = .stEnd ∨ (∃ b, i = .stCmd b) ∨ (∃ bytes, i = .stData bytes)) →
    exec i s = .next t → t.faults = s.faults →
    t = { s with cs := t.cs, scl := t.scl, sda := t.sda, depth := t.depth, wire := t.wire, result := t.result,
                 draws := t.draws } ∧
    (∀ a, Memory.read t.storage a = Memory.read s.storage a) ∧
    (s.cfg.kind = .hw → t.cs = s.cs ∧ t.scl = s.scl ∧ t.sda = s.sda) ∧
    (s.cfg.kind = .bb → t.draws = s.draws) ∧
    ((i = .stBegin ∨ i = .stEnd) → t.result = s.result ∧ t.scl = s.scl ∧ t.sda = s.sda ∧ t.draws = s.draws) ∧
    (((∃ b, i = .stCmd b) ∨ (∃ bytes, i = .stData bytes)) → t.depth = s.depth)

/-- R80: the frame word. -/
def Obligations.FrameWordFields : Prop :=
  ∀ (cd : Level) (b : Byte),
    (frameWord cd b).toNat = cd.toNat * 256 + b.toNat ∧
    (frameWord cd b).getLsbD 8 = cd ∧
    (frameWord cd b).setWidth 8 = b

/-- R81: the levels sampled at the rising clock edges of a BB frame are the control bit and the byte, most significant
bit first. -/
def Obligations.FrameSampledControlBitFirst : Prop :=
  ∀ (cd : Level) (b : Byte) (s : State), s.cfg.kind = .bb →
    ∃ events, (emitFrame cd b s).2.wire = s.wire ++ events ∧
      Trace.samples s.scl s.sda events =
        [cd, b.getLsbD 7, b.getLsbD 6, b.getLsbD 5, b.getLsbD 4, b.getLsbD 3, b.getLsbD 2, b.getLsbD 1, b.getLsbD 0]

/-- 70_reset_and_hazards.md R270: the minimum durations under BB of a bit slot, a frame, ST_CMD and ST_DATA at depth 0 and
inside a session, and of the traces of RESET_PULSE and INIT. -/
def Obligations.BitBangedMinimumDurations : Prop :=
  (∀ (cfg : Config) (v : Level), Trace.minTime (Trace.slot cfg v) = 2 * cfg.tBit) ∧
  (∀ (cfg : Config) (cd : Level) (b : Byte), Trace.minTime (Trace.frame cfg cd b) = 18 * cfg.tBit + cfg.tByte) ∧
  (∀ (s : State), s.cfg.kind = .bb →
    (∀ b, ∃ t, exec (.stCmd b) s = .next t ∧
      Trace.minTime t.wire = Trace.minTime s.wire +
        ((if s.depth = 0 then s.cfg.tCsLead + s.cfg.tCsLag else 0) + (18 * s.cfg.tBit + s.cfg.tByte))) ∧
    (∀ bytes, ∃ t, exec (.stData bytes) s = .next t ∧
      Trace.minTime t.wire = Trace.minTime s.wire +
        ((if s.depth = 0 then s.cfg.tCsLead + s.cfg.tCsLag else 0) +
          bytes.length * (18 * s.cfg.tBit + s.cfg.tByte)))) ∧
  Trace.minTime Trace.resetPulse = 300000000 ∧
  (∀ cfg : Config, Trace.minTime (initTrace cfg (entryTrace cfg 0)) =
    300000000 + (cfg.initTable.map (entryTime cfg)).sum)

/-- R141: what the panel receives of ST_CMD and ST_DATA under BB, at depth 0 and inside a session; no cut frame and no
bad sample. -/
def Obligations.PanelReceivesBitBangedFrames : Prop :=
  ∀ s : State, s.cfg.kind = .bb → LineInv s → PanelInv s →
    (∀ b, ∃ t, exec (.stCmd b) s = .next t ∧
      Panel.received t.wire = Panel.received s.wire ++
        (if s.depth = 0 then [.select, .frame false b, .deselect] else [.frame false b])) ∧
    (∀ bytes, ∃ t, exec (.stData bytes) s = .next t ∧
      Panel.received t.wire = Panel.received s.wire ++
        (if s.depth = 0 then [.select] ++ bytes.map (.frame true) ++ [.deselect] else bytes.map (.frame true)))

/-- R142: what the panel receives of ST_CMD and ST_DATA under HW, with and without a bus fault. -/
def Obligations.PanelReceivesHardwareFrames : Prop :=
  ∀ s : State, s.cfg.kind = .hw →
    (∀ b, s.busOutcome 0 = none → ∃ t, exec (.stCmd b) s = .next t ∧
      Panel.received t.wire = Panel.received s.wire ++ [.frame false b]) ∧
    (∀ b e, s.busOutcome 0 = some e → ∃ t, exec (.stCmd b) s = .next t ∧
      Panel.received t.wire = Panel.received s.wire ++ [.unknown (b.setWidth 9)]) ∧
    (∀ bytes : List Byte, (∀ i < bytes.length, s.busOutcome i = none) → ∃ t, exec (.stData bytes) s = .next t ∧
      Panel.received t.wire = Panel.received s.wire ++ bytes.map (.frame true)) ∧
    (∀ (sent : List Byte) (b : Byte) (rest : List Byte) (e : Err),
      (∀ i < sent.length, s.busOutcome i = none) → s.busOutcome sent.length = some e →
      ∃ t, exec (.stData (sent ++ b :: rest)) s = .next t ∧
        Panel.received t.wire = Panel.received s.wire ++ sent.map (.frame true) ++
          [.unknown (BitVec.ofNat 9 (0x100 + b.toNat))])

/-- 40_serial_transport.md R127 and 30_encoding.md R92: under BB at depth 0 a command and its data byte issued bare give two
chip-select assertions, inside `while_asserted` one. Under HW a frame that faults inside `while_asserted` leaves its error as
the result, and the session is closed all the same; so it is on both backends whatever the frames of the body come to. That
`while_asserted` takes one step of its own before its operations (log 12), and that a body goes on to its last operation
after one that returned Err (log 27), are the model's choices. -/
def Obligations.SessionGrouping : Prop :=
  (∀ (s : State) (b1 b2 : Byte) (rest : List HostCmd),
    s.cfg.kind = .bb → s.faults = [] → s.depth = 0 → LineInv s → PanelInv s →
    (HostTakes 2 s → s.host.todo = .issue (encode (.stCmd b1)) :: .issue (encode (.stData [b2])) :: rest →
      ∃ t, run 2 s = .next t ∧ t.host.todo = rest ∧
        Panel.received t.wire = Panel.received s.wire ++
          [.select, .frame false b1, .deselect, .select, .frame true b2, .deselect]) ∧
    (HostTakes 5 s → s.host.todo = .whileAsserted [encode (.stCmd b1), encode (.stData [b2])] :: rest →
      ∃ t, run 5 s = .next t ∧ t.host.todo = rest ∧
        Panel.received t.wire = Panel.received s.wire ++
          [.select, .frame false b1, .frame true b2, .deselect])) ∧
  (∀ (s : State) (b : Byte) (e : Err) (rest : List HostCmd),
    s.cfg.kind = .hw → s.faults = [] → HostTakes 4 s → s.busOutcome 0 = some e →
    s.host.todo = .whileAsserted [encode (.stCmd b)] :: rest →
    run 4 s = .next
      { s.afterTurns 4 with
        wire := s.wire ++ [.hwFault (b.setWidth 9)]
        result := .err e
        draws := (s.afterTurns 4).draws.takeBus 1
        host := { s.host with todo := rest } }) ∧
  (∀ (s : State) (body : List Instr) (rest : List HostCmd),
    s.faults = [] → HostTakes (body.length + 3) s →
    (∀ i ∈ body, i.wf = true ∧ ((∃ b, i = .stCmd b) ∨ ∃ bytes, i = .stData bytes)) →
    s.host.todo = .whileAsserted (body.map encode) :: rest →
    ∃ t, run (body.length + 3) s = .next t ∧ t.faults = [] ∧ t.host.todo = rest ∧ t.depth = s.depth)

/-- R43, R24, R28: every step keeps the lines as an operation boundary has them. -/
def Obligations.StepKeepsLineInv : Prop :=
  ∀ s t : State, LineInv s → step s = .next t → LineInv t

/-- R140, R141: every step keeps the panel in step with the lines, with no cut frame and no bad sample. -/
def Obligations.StepKeepsPanelInv : Prop :=
  ∀ s t : State, LineInv s → PanelInv s → step s = .next t → PanelInv t

/-- R123 to R125: every step keeps the BB line timing of the whole trace: clock spacing, setup and hold, chip-select lead
and lag. -/
def Obligations.StepKeepsLineTiming : Prop :=
  ∀ s t : State, LineInv s → TimingInv s → step s = .next t → TimingInv t

/-! ## Ring Buffer Manager -/

/-- R154: `RB_PUSH [bytes]` in phase OWNED, where the bytes go and everything it leaves alone; in phase SHARED it raises
HANDLE_CONSUMED and changes nothing else. -/
def Obligations.RbPushStoresLeadingBytes : Prop :=
  (∀ bytes : List Byte, bytes.length < 2 ^ 24 →
    decode ⟨BitVec.ofNat 32 (0x05000000 + bytes.length), bytes⟩ = .ok (.rbPush bytes)) ∧
  (∀ (w : OpWord) (p : List Byte), w.toNat / 0x1000000 = 5 → p.length ≠ w.toNat % 0x1000000 → RaisesIllegal ⟨w, p⟩) ∧
  (∀ (s : State) (bytes : List Byte), s.phase = .shared → bytes.length < 2 ^ 24 →
    exec (.rbPush bytes) s = .next
      { s with
        faults := s.faults ++ [⟨.handleConsumed, .opWord (BitVec.ofNat 32 (0x05000000 + bytes.length))⟩] }) ∧
  (∀ (s : State) (bytes : List Byte), s.phase = .owned →
    ∃ m, exec (.rbPush bytes) s = .next
        { s with
          storage := m
          wpos := (s.wpos + min bytes.length (s.cfg.ringC - s.fill)) % s.cfg.ringC
          fill := s.fill + min bytes.length (s.cfg.ringC - s.fill)
          accepted := min bytes.length (s.cfg.ringC - s.fill) } ∧
      StoredAt s.cfg.ringC s.wpos (min bytes.length (s.cfg.ringC - s.fill)) bytes s.storage m)

/-- R159: `TX_PUSH [bytes]` in phase SHARED, where the bytes go and everything it leaves alone; in phase OWNED it raises
NO_TRANSFER and changes nothing else. -/
def Obligations.TxPushStoresLeadingBytes : Prop :=
  (∀ bytes : List Byte, bytes.length < 2 ^ 24 →
    decode ⟨BitVec.ofNat 32 (0x07000000 + bytes.length), bytes⟩ = .ok (.txPush bytes)) ∧
  (∀ (w : OpWord) (p : List Byte), w.toNat / 0x1000000 = 7 → p.length ≠ w.toNat % 0x1000000 → RaisesIllegal ⟨w, p⟩) ∧
  (∀ (s : State) (bytes : List Byte), s.phase = .owned → bytes.length < 2 ^ 24 →
    exec (.txPush bytes) s = .next
      { s with
        faults := s.faults ++ [⟨.noTransfer, .opWord (BitVec.ofNat 32 (0x07000000 + bytes.length))⟩] }) ∧
  (∀ (s : State) (bytes : List Byte), s.phase = .shared →
    ∃ m, exec (.txPush bytes) s = .next
        { s with
          storage := m
          wpos := (s.wpos + min bytes.length (s.cfg.ringC - s.fill)) % s.cfg.ringC
          fill := s.fill + min bytes.length (s.cfg.ringC - s.fill)
          accepted := min bytes.length (s.cfg.ringC - s.fill) } ∧
      StoredAt s.cfg.ringC s.wpos (min bytes.length (s.cfg.ringC - s.fill)) bytes s.storage m)

/-- R156, R157: `TX_START` hands the ring over once; the second one raises HANDLE_CONSUMED and changes nothing else. It
never checks that the ring is full (R158). -/
def Obligations.TxStartHandsRingOver : Prop :=
  decode ⟨0x06000000#32, []⟩ = .ok .txStart ∧
  (∀ (w : OpWord) (p : List Byte), w.toNat / 0x1000000 = 6 → w.toNat % 0x1000000 ≠ 0 → RaisesIllegal ⟨w, p⟩) ∧
  (∀ s : State, s.phase = .owned → exec .txStart s = .next { s with phase := .shared }) ∧
  (∀ s : State, s.phase = .shared →
    exec .txStart s = .next { s with faults := s.faults ++ [⟨.handleConsumed, .opWord 0x06000000#32⟩] }) ∧
  (∀ s t : State, step s = .next t → s.phase = .shared → t.phase = .shared)

/-- R177: no push writes a cell that `fill` counts, and the fill count stays within the capacity. -/
def Obligations.PushNeverOverwrites : Prop :=
  ∀ (s t : State) (bytes : List Byte), RingInv s →
    (exec (.rbPush bytes) s = .next t ∨ exec (.txPush bytes) s = .next t) →
    (∀ j < s.fill,
      Memory.read t.storage ((s.rpos + j) % s.cfg.ringC) = Memory.read s.storage ((s.rpos + j) % s.cfg.ringC)) ∧
    t.fill ≤ s.cfg.ringC

/-- R176 and the last sentence of R178, in either phase and wherever the cursors stand: a push on a ring with fill 0
accepts as much as fits, and a ring it left full accepts nothing more. -/
def Obligations.EmptyRingAcceptsUpToCapacity : Prop :=
  ∀ (s : State) (bytes more : List Byte), s.fill = 0 →
    (s.phase = .owned → ∃ t, exec (.rbPush bytes) s = .next t ∧
      t.accepted = (if bytes.length ≤ s.cfg.ringC then bytes.length else s.cfg.ringC) ∧
      (s.cfg.ringC ≤ bytes.length → ∃ u, exec (.rbPush more) t = .next u ∧ u.accepted = 0)) ∧
    (s.phase = .shared → ∃ t, exec (.txPush bytes) s = .next t ∧
      t.accepted = (if bytes.length ≤ s.cfg.ringC then bytes.length else s.cfg.ringC) ∧
      (s.cfg.ringC ≤ bytes.length → ∃ u, exec (.txPush more) t = .next u ∧ u.accepted = 0))

/-- R170: a DMA step with a full descriptor sends its S bytes in increasing index order and moves the read cursor on;
nothing else changes. -/
def Obligations.DmaStepConsumesDescriptor : Prop :=
  ∀ s : State, RingInv s → s.cfg.ringS ≤ s.fill →
    ∃ bytes : List Byte, bytes.length = s.cfg.ringS ∧
      (∀ j < s.cfg.ringS, Memory.read s.storage (s.rpos + j) = bytes[j]?) ∧
      dmaStep s =
        { s with
          lcdOut := s.lcdOut ++ bytes
          rpos := (s.rpos + s.cfg.ringS) % s.cfg.ringC
          fill := s.fill - s.cfg.ringS }

/-- R171: a DMA step with fewer than S bytes ready appends S bytes, any values, then raises UNDERRUN. Whatever S bytes are
drawn are the ones appended. After it no agent steps. -/
def Obligations.DmaStepUnderruns : Prop :=
  ∀ s : State, s.fill < s.cfg.ringS →
    (∃ bytes : List Byte, bytes.length = s.cfg.ringS ∧
      dmaStep s =
        { s with
          lcdOut := s.lcdOut ++ bytes
          faults := s.faults ++ [⟨.underrun, .descriptorFill (s.rpos / s.cfg.ringS) s.fill⟩] }) ∧
    (∀ bytes : List Byte, bytes.length = s.cfg.ringS →
      dmaStep { s with draws := { s.draws with underrun := bytes } } =
        { s with
          lcdOut := s.lcdOut ++ bytes
          faults := s.faults ++ [⟨.underrun, .descriptorFill (s.rpos / s.cfg.ringS) s.fill⟩]
          draws := { s.draws with underrun := bytes } }) ∧
    (s.faults = [] → step (dmaStep s) = .fault (.stopped ⟨.underrun, .descriptorFill (s.rpos / s.cfg.ringS) s.fill⟩))

/-- R60, R170, R174, R229: from a state without a fault record, in phase SHARED the DMA agent steps where the schedule
picks it or the host has nothing to do; in phase OWNED the step is the host's. -/
def Obligations.ScheduleChoosesAgent : Prop :=
  ∀ s : State, s.faults = [] →
    (s.phase = .owned → step s = hostStep s) ∧
    (s.phase = .shared → s.host.todo = [] → step s = .next (dmaStep s)) ∧
    (s.phase = .shared → s.host.todo ≠ [] → s.drawnAgent = .dma → step s = .next (dmaStep s.takeChoice)) ∧
    (s.phase = .shared → s.host.todo ≠ [] → s.drawnAgent = .host → step s = hostStep s.takeChoice)

/-- R174: no DMA step happens in phase OWNED, whatever the host does; so nothing is consumed or sent until TX_START. -/
def Obligations.NoDmaStepWhileOwned : Prop :=
  (∀ s t : State, s.phase = .owned → step s = .next t → t.rpos = s.rpos ∧ t.lcdOut = s.lcdOut) ∧
  (∀ s t : State, RingInv s → step s = .next t → t.phase = .owned → t.rpos = 0 ∧ t.lcdOut = [])

/-- R37, R62: the descriptor at the read cursor is ready exactly when a DMA step does not underrun, and every cell of a
ready descriptor is one that `fill` counts. -/
def Obligations.ReadyDescriptorsArePublished : Prop :=
  ∀ s : State, RingInv s → s.phase = .shared →
    (s.descriptorReady (s.rpos / s.cfg.ringS) = true ↔ s.cfg.ringS ≤ s.fill) ∧
    (∀ i < s.cfg.ringN, s.descriptorReady i = true → ∀ j < s.cfg.ringS,
      ∃ k < s.fill, i * s.cfg.ringS + j = (s.rpos + k) % s.cfg.ringC)

/-- R173: the DMA agent starts at descriptor 0 and visits the descriptors in chain order. -/
def Obligations.DmaWalksTheChain : Prop :=
  ∀ s : State, RingInv s →
    (s.phase = .owned → ∃ t, exec .txStart s = .next t ∧ t.phase = .shared ∧ t.rpos / t.cfg.ringS = 0) ∧
    (s.cfg.ringS ≤ s.fill →
      (dmaStep s).rpos / s.cfg.ringS = (s.rpos / s.cfg.ringS + 1) % s.cfg.ringN ∧ (dmaStep s).faults = s.faults)

/-- R42, R48, R50: every step keeps the ring's invariant. -/
def Obligations.StepKeepsRingInv : Prop :=
  ∀ s t : State, RingInv s → step s = .next t → RingInv t

/-- R175: over any run without a fault, the bytes sent and the bytes still pending are what was there before and then
exactly the accepted bytes, once each and in order. -/
def Obligations.AcceptedBytesLeaveInOrder : Prop :=
  ∀ (n : Nat) (s t : State), RingInv s → run n s = .next t → t.faults = [] →
    t.lcdOut ++ t.pending = s.lcdOut ++ s.pending ++ acceptedOver n s

/-- R22, R51, R150: no step writes the configuration or the descriptor chain. -/
def Obligations.ConfigurationIsConstant : Prop :=
  ∀ s t : State, step s = .next t → t.cfg = s.cfg ∧ t.desc = s.desc

/-- R150: construction with an ill-formed configuration records CONFIG_INVALID and nothing runs; with a well-formed one
it gives the reset state. -/
def Obligations.InvalidConfigurationRunsNothing : Prop :=
  ∀ (cfg : Config) (sda rst : Level),
    ((1 ≤ cfg.ringN ∧ 1 ≤ cfg.ringS ∧ cfg.ringC = cfg.ringN * cfg.ringS) →
      State.construct cfg sda rst = State.fresh cfg sda rst) ∧
    (¬ (1 ≤ cfg.ringN ∧ 1 ≤ cfg.ringS ∧ cfg.ringC = cfg.ringN * cfg.ringS) →
      (State.construct cfg sda rst).faults = [⟨.configInvalid, .ring cfg.ringC cfg.ringN cfg.ringS⟩] ∧
      step (State.construct cfg sda rst) =
        .fault (.stopped ⟨.configInvalid, .ring cfg.ringC cfg.ringN cfg.ringS⟩))

/-! ## Reset -/

/-- R250: the reset values the spec gives. -/
def Obligations.ResetValues : Prop :=
  State.reset.cs = true ∧ State.reset.scl = true ∧ State.reset.depth = 0 ∧ State.reset.wire = [] ∧
  State.reset.result = .ok ∧ (∀ a, Memory.read State.reset.storage a = none) ∧ State.reset.wpos = 0 ∧
  State.reset.rpos = 0 ∧ State.reset.fill = 0 ∧ State.reset.phase = .owned ∧ State.reset.accepted = 0 ∧
  (∀ i < State.reset.cfg.ringN, State.reset.desc[i]? =
    some ⟨i * State.reset.cfg.ringS, State.reset.cfg.ringS, (i + 1) % State.reset.cfg.ringN⟩) ∧
  State.reset.desc.length = State.reset.cfg.ringN ∧
  State.reset.lcdOut = [] ∧ State.reset.faults = [] ∧ State.reset.sys = .reset ∧ State.reset.sysError = none

/-- R42, R43: the reset state, and every freshly constructed one with a well-formed configuration, meets the invariants
that the step keeps. -/
def Obligations.ResetMeetsInvariants : Prop :=
  (RingInv State.reset ∧ LineInv State.reset ∧ HostInv State.reset ∧ PanelInv State.reset ∧ TimingInv State.reset) ∧
  (∀ (cfg : Config) (sda rst : Level), cfg.ringOk = true →
    RingInv (State.fresh cfg sda rst) ∧ LineInv (State.fresh cfg sda rst) ∧ HostInv (State.fresh cfg sda rst) ∧
    PanelInv (State.fresh cfg sda rst) ∧ TimingInv (State.fresh cfg sda rst))

/-! ## Host -/

/-- R190: `RST_SET v`. -/
def Obligations.RstSetDrivesResetLine : Prop :=
  (∀ v : Level, decode ⟨BitVec.ofNat 32 (0x08000000 + v.toNat), []⟩ = .ok (.rstSet v)) ∧
  (∀ (w : OpWord) (p : List Byte), w.toNat / 0x1000000 = 8 → w.toNat % 0x1000000 / 2 ≠ 0 → RaisesIllegal ⟨w, p⟩) ∧
  (∀ (s : State) (v : Level), exec (.rstSet v) s = .next { s with rst := v, wire := s.wire ++ [.setRst v] })

/-- R191: `DELAY_US us`. -/
def Obligations.DelayUsWaits : Prop :=
  (∀ us : BitVec 24, decode ⟨BitVec.ofNat 32 (0x09000000 + us.toNat), []⟩ = .ok (.delayUs us)) ∧
  (∀ (s : State) (us : BitVec 24),
    exec (.delayUs us) s = .next { s with wire := s.wire ++ [.wait (us.toNat * 1000)] })

/-- 45_host_sequencing.md R192: RESET_PULSE issues its six words, which drive the line high, low, high with a dwell of
100 ms at each level. That it takes one step of its own before them, so seven in all, is the model's choice (log 12). -/
def Obligations.ResetPulseTrace : Prop :=
  resetPulseCmds =
    [.issue ⟨0x08000001#32, []⟩, .issue ⟨0x090186A0#32, []⟩, .issue ⟨0x08000000#32, []⟩, .issue ⟨0x090186A0#32, []⟩,
      .issue ⟨0x08000001#32, []⟩, .issue ⟨0x090186A0#32, []⟩] ∧
  ∀ (s : State) (rest : List HostCmd),
    s.faults = [] → HostTakes 7 s → s.host.todo = .resetPulse :: rest →
    step s = .next ((s.afterTurns 1).withTodo (resetPulseCmds ++ rest)) ∧
    run 7 s = .next
      { s.afterTurns 7 with
        rst := true
        wire := s.wire ++ [.setRst true, .wait 100000000, .setRst false, .wait 100000000, .setRst true, .wait 100000000]
        host := { s.host with todo := rest } }

/-- R200 to R203: every step keeps at most one INIT running, in CONFIGURING. -/
def Obligations.StepKeepsHostInv : Prop :=
  ∀ s t : State, HostInv s → step s = .next t → HostInv t

/-- R200 to R203: the only transitions of the system state machine; STREAMING is terminal. -/
def Obligations.SystemStateTransitions : Prop :=
  ∀ s t : State, HostInv s → step s = .next t →
    t.sys = s.sys ∨
    (s.sys = .reset ∧ t.sys = .configuring) ∨
    (s.sys = .configuring ∧ t.sys = .ready) ∨
    (s.sys = .configuring ∧ t.sys = .reset ∧ ∃ e, s.host.r = .err e ∧ t.sysError = some e) ∨
    (s.sys = .ready ∧ t.sys = .streaming ∧ s.phase = .owned ∧ t.phase = .shared)

/-- 45_host_sequencing.md R195, R201: the first write that fails ends INIT. Whether it is the entry's command or one of its
parameter bytes, two steps later (log 12) nothing of INIT is left to do, the system state is RESET, and the error is the
peripheral's. -/
def Obligations.InitAbortsAtFirstError : Prop :=
  ∀ (s : State) (op : Byte) (ps : List Byte) (rest : List (Byte × List Byte)) (tail : List HostCmd),
    s.cfg.kind = .hw → s.faults = [] → HostTakes 2 s → 0 < s.depth → ps.length < maxPayload →
    (∀ e, s.host.todo = .initCmd op ps rest :: tail → s.busOutcome 0 = some e →
      run 2 s = .next
        { s.afterTurns 2 with
          depth := s.depth - 1
          wire := s.wire ++ [.hwFault (op.setWidth 9)]
          result := .err e
          draws := (s.afterTurns 2).draws.takeBus 1
          sys := .reset
          sysError := some e
          host := { s.host with todo := tail, r := .err e } }) ∧
    (∀ e sent b more, s.host.todo = .initData op ps rest :: tail → ps = sent ++ b :: more →
      (∀ i < sent.length, s.busOutcome i = none) → s.busOutcome sent.length = some e →
      run 2 s = .next
        { s.afterTurns 2 with
          depth := s.depth - 1
          wire := s.wire ++ (sent.map fun b => .hwWord (BitVec.ofNat 9 (0x100 + b.toNat))) ++
            [.hwFault (BitVec.ofNat 9 (0x100 + b.toNat))]
          result := .err e
          draws := (s.afterTurns 2).draws.takeBus (sent.length + 1)
          sys := .reset
          sysError := some e
          host := { s.host with todo := tail, r := .err e } })

/-- R196: after an entry that was sent without error, the settle delay of 100 ms after sleep-out, of 50 ms after
display-on, and only then the remaining entries. The to-do list that says so is the model's (log 12). -/
def Obligations.InitSettlesAfterEntry : Prop :=
  ∀ (s : State) (op : Byte) (rest : List (Byte × List Byte)) (tail : List HostCmd),
    s.faults = [] → HostTakes 1 s → 0 < s.depth → s.host.r = .ok → s.host.todo = .initEnd op rest :: tail →
    ∃ t, step s = .next t ∧
      t.host.todo =
        (if op = s.cfg.sleepOutOpcode then [.issue ⟨0x090186A0#32, []⟩] else []) ++
        (if op = s.cfg.displayOnOpcode then [.issue ⟨0x0900C350#32, []⟩] else []) ++
        .initEntry rest :: tail

/-- 45_host_sequencing.md R194, R195, R201, R207 under BB: INIT issued in RESET pulses the reset line and sends every entry
of the table in order, at depth 0 each under one chip-select assertion, with the settle delays, and returns OK with the
system READY; nothing else changes, the ring least of all. The number of steps is the model's (log 12). -/
def Obligations.BitBangedInitConfiguresPanel : Prop :=
  ∀ (s : State) (tail : List HostCmd),
    s.cfg.kind = .bb → s.faults = [] → HostTakes (initSteps s.cfg) s → s.sys = .reset → LineInv s → PanelInv s →
    tableFits s.cfg.initTable → s.host.todo = .init :: tail →
    run (initSteps s.cfg) s = .next
      { s.afterTurns (initSteps s.cfg) with
        sda := lastBit (tableBytes s.cfg.initTable) s.sda
        wire := s.wire ++ initTrace s.cfg (entryTrace s.cfg s.depth)
        rst := true
        sys := .ready
        host := { s.host with todo := tail, r := .ok } } ∧
    Panel.received (s.wire ++ initTrace s.cfg (entryTrace s.cfg s.depth)) =
      Panel.received s.wire ++ tableItems s.depth s.cfg.initTable

/-- 45_host_sequencing.md R194, R195, R201, R207 under HW where no frame of the table faults: INIT issued in RESET pulses
the reset line, sends every entry in order, with the settle delays, and returns OK with the system READY; nothing else
changes, neither the ring nor chip-select, clock and data. The number of steps is the model's (log 12). -/
def Obligations.HardwareInitConfiguresPanel : Prop :=
  ∀ (s : State) (tail : List HostCmd),
    s.cfg.kind = .hw → s.faults = [] → HostTakes (initSteps s.cfg) s → s.sys = .reset → tableFits s.cfg.initTable →
    (∀ i < tableFrames s.cfg.initTable, s.busOutcome i = none) → s.host.todo = .init :: tail →
    run (initSteps s.cfg) s = .next
      { s.afterTurns (initSteps s.cfg) with
        wire := s.wire ++ initTrace s.cfg (entryTraceHw s.cfg)
        result := if s.cfg.initTable = [] then s.result else .ok
        rst := true
        sys := .ready
        draws := (s.afterTurns (initSteps s.cfg)).draws.takeBus (tableFrames s.cfg.initTable)
        host := { s.host with todo := tail, r := .ok } } ∧
    Panel.received (s.wire ++ initTrace s.cfg (entryTraceHw s.cfg)) =
      Panel.received s.wire ++ tableItemsHw s.cfg.initTable

/-- R197: PREFILL returns with the ring full after at most C / len(P) + 1 pushes, each one step (log 12). R202 places it in
READY; that it runs so in every other system state too is the model's choice (log 26). -/
def Obligations.PrefillFillsTheRing : Prop :=
  ∀ (s : State) (p : List Byte) (rest : List HostCmd),
    RingInv s → s.faults = [] → s.phase = .owned → p ≠ [] → p.length < maxPayload →
    s.host.todo = .prefillLoop p :: rest →
    ∃ n t, n ≤ s.cfg.ringC / p.length + 1 ∧ run n s = .next t ∧
      t.faults = [] ∧ t.host.todo = rest ∧ t.fill = s.cfg.ringC ∧ t.phase = .owned

/-- 45_host_sequencing.md R198, R202: START with the system READY hands the ring over and makes the system STREAMING; that
both happen in one step is the model's choice (log 12). Where the ring has been handed over already, its TX_START raises
HANDLE_CONSUMED (42_ring_buffer.md R157) and the system state stays. -/
def Obligations.StartEntersStreaming : Prop :=
  ∀ (s : State) (rest : List HostCmd), s.faults = [] → s.host.todo = .start :: rest →
    (s.phase = .owned → s.sys = .ready →
      step s = .next { s with phase := .shared, sys := .streaming, host := { s.host with todo := rest } }) ∧
    (s.phase = .shared → HostTakes 1 s →
      step s = .next
        { s.afterTurns 1 with
          faults := [⟨.handleConsumed, .opWord 0x06000000#32⟩]
          host := { s.host with todo := rest } })

/-- R199: a round of STREAM offers the continuation of the pattern, moves its offset by what was accepted, and goes on
for ever. R203 places it in STREAMING; that it runs so in every other system state too (log 26), and what it offers where
the offset is above len(P) (log 25), are the model's choices. -/
def Obligations.StreamOffersContinuation : Prop :=
  ∀ (s : State) (p : List Byte) (rest : List HostCmd),
    s.faults = [] → s.phase = .shared → s.drawnAgent = .host → p.length < maxPayload →
    s.host.todo = .streamLoop p :: rest →
    ∃ t, step s = .next t ∧ t.faults = [] ∧
      t.accepted = min p.length (s.cfg.ringC - s.fill) ∧
      t.fill = s.fill + t.accepted ∧
      StoredAt s.cfg.ringC s.wpos t.accepted (p.drop s.host.off ++ p.take s.host.off) s.storage t.storage ∧
      t.host.k = t.accepted ∧
      t.host.off = (s.host.off + t.accepted) % p.length ∧
      t.host.todo = .streamLoop p :: rest ∧ t.sys = s.sys

/-- 45_host_sequencing.md R204: BOOT runs INIT first; where INIT returned an error BOOT returns, else it goes on with
PREFILL, START and STREAM. That entering a procedure is a step of its own, which issues no operation, and the to-do list
itself are the model's choice (log 12), and so is that PREFILL begins outside READY too (log 26). -/
def Obligations.BootRunsProceduresInOrder : Prop :=
  ∀ (s : State) (p : List Byte) (rest : List HostCmd), s.faults = [] → HostTakes 1 s →
    (s.host.todo = .boot p :: rest → step s = .next ((s.afterTurns 1).withTodo (.init :: .bootContinue p :: rest))) ∧
    (s.host.todo = .bootContinue p :: rest →
      (s.host.r = .ok →
        step s = .next ((s.afterTurns 1).withTodo (.prefill p :: .start :: .streamLoop p :: rest))) ∧
      (s.host.r ≠ .ok → step s = .next ((s.afterTurns 1).withTodo rest))) ∧
    (s.host.todo = .prefill p :: rest → p ≠ [] →
      step s = .next { s.afterTurns 1 with host := { s.host with todo := .prefillLoop p :: rest, off := 0 } })

/-- R206: under BOOT(P) on a fresh ring, in every run and whatever the schedule and the bus do, as long as no fault is
recorded the bytes sent are the start of the infinite repetition of P. -/
def Obligations.BootSendsRepeatedPattern : Prop :=
  ∀ (n : Nat) (s t : State) (p : List Byte),
    RingInv s → s.phase = .owned → s.fill = 0 → p ≠ [] → s.host.todo = [.boot p] →
    run n s = .next t → t.faults = [] →
    t.lcdOut = repeated p t.lcdOut.length

/-- R204, R205: BOOT(P) issued in RESET with operands that fit keeps every host obligation: whatever the schedule and the bus
do, no run of it records or stops with anything but an UNDERRUN. -/
def Obligations.BootFaultsOnlyByUnderrun : Prop :=
  ∀ (n : Nat) (s : State) (p : List Byte),
    RingInv s → s.faults = [] → s.phase = .owned → s.sys = .reset → p ≠ [] → p.length < maxPayload →
    tableFits s.cfg.initTable → s.host.todo = [.boot p] →
    (∃ t, run n s = .next t ∧ ∀ r ∈ t.faults, r.code = .underrun) ∨
      (∃ r, run n s = .fault (.stopped r) ∧ r.code = .underrun)

/-- 93_implementation_defined.md U18, and the model's choice of where it stops (log 13): INIT outside RESET, PREFILL or
STREAM with an empty pattern, and in phase OWNED START before READY are stuck. -/
def Obligations.BrokenHostDutiesStop : Prop :=
  ∀ (s : State) (rest : List HostCmd), s.faults = [] → HostTakes 1 s →
    (s.host.todo = .init :: rest → s.sys ≠ .reset → step s = .fault (.hostObligation .initOutsideReset)) ∧
    (s.host.todo = .prefill [] :: rest → step s = .fault (.hostObligation .emptyPattern)) ∧
    (∀ off, s.host.todo = .stream [] off :: rest → step s = .fault (.hostObligation .emptyPattern)) ∧
    (s.phase = .owned → s.host.todo = .start :: rest → s.sys ≠ .ready →
      step s = .fault (.hostObligation .startBeforeReady))

/-- 42_ring_buffer.md R172: the DMA agent is weakly fair and its rate is open. From every state without a fault in phase
SHARED it takes a step after at most as many host steps as the schedule's number says, unless the host's steps end the run
first; either agent may take the next step; and a schedule that lets it step one time more than there are full descriptors
underruns. That a schedule is a list of numbers is the model's form of it (log 7). -/
def Obligations.DmaAgentIsWeaklyFair : Prop :=
  (∀ s : State, s.faults = [] → s.phase = .shared →
    ∃ n ≤ s.draws.gap,
      (∃ t, run n s = .next t ∧ t.faults = [] ∧ t.phase = .shared ∧
        step t = .next (dmaStep (if t.host.todo = [] then t else t.takeChoice))) ∨
      (∃ t, run n s = .next t ∧ t.faults ≠ []) ∨
      ∃ duty, run n s = .fault (.hostObligation duty)) ∧
  (∀ (s : State) (g : Nat), s.faults = [] → s.phase = .shared → s.host.todo ≠ [] →
    step { s with draws := s.draws.withGap 0 } = .next (dmaStep { s with draws := s.draws.withGap 0 }.takeChoice) ∧
    step { s with draws := s.draws.withGap (g + 1) } = hostStep { s with draws := s.draws.withGap g }) ∧
  (∀ s : State, RingInv s → s.faults = [] → s.phase = .shared →
    ∃ sched t, run (s.fill / s.cfg.ringS + 1) { s with draws := { s.draws with sched := sched } } = .next t ∧
      t.faults = [⟨.underrun, .descriptorFill ((s.rpos / s.cfg.ringS + s.fill / s.cfg.ringS) % s.cfg.ringN)
        (s.fill % s.cfg.ringS)⟩])

/-- 45_host_sequencing.md R204 to R206: every step keeps BOOT(P) at one of its points, with the bytes sent and pending
together the start of P repeated for ever, as long as no fault is recorded. Where the operands fit and INIT is not begun
outside RESET, every one of these points has a next step, which records nothing but an UNDERRUN. The points between two
operations are the model's (log 12). -/
def Obligations.StepKeepsBootInv : Prop :=
  (∀ (p : List Byte) (s t : State), BootInv p s → step s = .next t → BootInv p t) ∧
  (∀ (p : List Byte) (s : State), BootRunning p s → s.faults = [] → p.length < maxPayload → tableFits s.cfg.initTable →
    (s.initAhead p → s.sys = .reset) →
    ∃ t, step s = .next t ∧ (∀ r ∈ t.faults, r.code = .underrun) ∧ (t.initAhead p → t.sys = .reset))
end

