-- ==== Sys2Proof/Laws/Decode.lean ====
section
/-! SUPPORT. The fields of an operation word put together by `opWord`. -/

namespace Sys2Proof

theorem getLsbD_opWord (opc : BitVec 8) (arg : BitVec 24) (i : Nat) :
    (opWord opc arg).getLsbD i = if i < 24 then arg.getLsbD i else opc.getLsbD (i - 24) := by
  have h := BitVec.getLsbD_append (x := opc) (y := arg) (i := i)
  simpa [opWord, Bool.cond_eq_ite] using h

@[simp] theorem opcOf_opWord (opc : BitVec 8) (arg : BitVec 24) : opcOf (opWord opc arg) = opc := by
  refine BitVec.eq_of_getLsbD_eq fun i h => ?_
  simp [opcOf, getLsbD_opWord, h]

@[simp] theorem argOf_opWord (opc : BitVec 8) (arg : BitVec 24) : argOf (opWord opc arg) = arg := by
  refine BitVec.eq_of_getLsbD_eq fun i h => ?_
  simp [argOf, getLsbD_opWord, h]

/-- A word is its two fields (30_encoding.md R83). -/
theorem opWord_fields (w : OpWord) : opWord (opcOf w) (argOf w) = w := by
  refine BitVec.eq_of_getLsbD_eq fun i h => ?_
  rw [getLsbD_opWord]
  split
  · next h' => simp [argOf, h']
  · next h' => simp [opcOf, show 24 + (i - 24) = i by omega, show i - 24 < 8 by omega]

theorem opWord_and (a c : BitVec 8) (b d : BitVec 24) : opWord a b &&& opWord c d = opWord (a &&& c) (b &&& d) := by
  refine BitVec.eq_of_getLsbD_eq fun i _ => ?_
  simp only [BitVec.getLsbD_and, getLsbD_opWord]
  split <;> rfl

@[simp] theorem length_leBytes (n w : Nat) : (leBytes n w).length = n := by
  induction n generalizing w with
  | zero => rfl
  | succ n ih => simp [leBytes, ih]

/-- A table word's payload has the length its word calls for (R84). -/
theorem tableOp_payload_length (nbits w : Nat) :
    (tableOp nbits w).payload.length = payloadLength (tableOp nbits w).word := by simp [tableOp]

/-! The fields as numbers. -/

theorem opcOf_toNat (w : OpWord) : (opcOf w).toNat = w.toNat / 0x1000000 := by
  simp only [opcOf, BitVec.extractLsb'_toNat, Nat.shiftRight_eq_div_pow]
  have := w.isLt
  norm_num at *
  omega

theorem argOf_toNat (w : OpWord) : (argOf w).toNat = w.toNat % 0x1000000 := by
  simp [argOf, BitVec.extractLsb'_toNat]

theorem arg_eq_zero_iff {a : BitVec 24} : a = 0#24 ↔ a.toNat = 0 := by
  rw [← BitVec.toNat_inj]; simp

theorem arg_high16_eq_zero_iff (a : BitVec 24) : a.extractLsb' 8 16 = 0#16 ↔ a.toNat / 256 = 0 := by
  rw [← BitVec.toNat_inj]
  simp only [BitVec.extractLsb'_toNat, Nat.shiftRight_eq_div_pow]
  have := a.isLt
  norm_num at *
  omega

theorem arg_high23_eq_zero_iff (a : BitVec 24) : a.extractLsb' 1 23 = 0#23 ↔ a.toNat / 2 = 0 := by
  rw [← BitVec.toNat_inj]
  simp only [BitVec.extractLsb'_toNat, Nat.shiftRight_eq_div_pow]
  have := a.isLt
  norm_num at *
  omega

theorem arg_low8 (a : BitVec 24) : a.extractLsb' 0 8 = BitVec.ofNat 8 a.toNat := by
  rw [← BitVec.toNat_inj]; simp [BitVec.extractLsb'_toNat]

/-- A word written as a number is the word of its two fields. -/
theorem ofNat_fields {k n : Nat} (hk : k < 256) (hn : n < 0x1000000) :
    BitVec.ofNat 32 (k * 0x1000000 + n) = opWord (BitVec.ofNat 8 k) (BitVec.ofNat 24 n) := by
  rw [← opWord_fields (BitVec.ofNat 32 (k * 0x1000000 + n))]
  have hlt : (BitVec.ofNat 32 (k * 0x1000000 + n)).toNat = k * 0x1000000 + n := by
    rw [BitVec.toNat_ofNat]; exact Nat.mod_eq_of_lt (by norm_num; omega)
  congr 1
  · rw [← BitVec.toNat_inj, opcOf_toNat, hlt, BitVec.toNat_ofNat]; norm_num; omega
  · rw [← BitVec.toNat_inj, argOf_toNat, hlt, BitVec.toNat_ofNat]; norm_num

theorem opWord_of_fields {w : OpWord} {k : Nat} {a : BitVec 24} (h : (opcOf w).toNat = k) (ha : argOf w = a) :
    opWord (BitVec.ofNat 8 k) a = w := by
  rw [← h, ← ha, BitVec.ofNat_toNat, BitVec.setWidth_eq, opWord_fields]

/-- The row that an operation's `opc` field selects (30_encoding.md R88). -/
theorem decode_of_opc (op : Op) {k : Nat} (h : (opcOf op.word).toNat = k) :
    decode op = match (generalizing := false) k with
      | 1 => decodeN op .stBegin
      | 2 => decodeN op .stEnd
      | 3 => decodeB op .stCmd
      | 4 => decodeL op .stData
      | 5 => decodeL op .rbPush
      | 6 => decodeN op .txStart
      | 7 => decodeL op .txPush
      | 8 => decodeV op .rstSet
      | 9 => decodeD op .delayUs
      | _ => .error .reservedOpcode := by subst h; rfl

end Sys2Proof
end

