-- ==== Sys2Proof/Laws/Memory.lean ====
section
/-! SUPPORT. Laws of the ring storage: read after write, the canonical form, and runs of cells. -/

namespace Sys2Proof.Machine.Memory

open Sys2Proof

@[simp] theorem read_nil (a : Nat) : read [] a = none := rfl

theorem read_write_same (m : List Host.Cell) (a : Nat) (v : Byte) : read (write m a v) a = some v := by
  induction m with
  | nil => simp [write, read]
  | cons c m ih =>
    simp only [write]
    split
    · simp [read]
    · split
      · simp [read]
      · next h => simp [read, h, ih]

theorem read_write_other (m : List Host.Cell) {a b : Nat} (v : Byte) (h : b ≠ a) : read (write m a v) b = read m b := by
  induction m with
  | nil => simp [write, read, h]
  | cons c m ih =>
    simp only [write]
    split
    · simp [read, h]
    · split
      · next hc => simp [read, h, ← hc]
      · simp [read, ih]

/-! The canonical form. -/

theorem risesFrom_write {a : Nat} (v : Byte) :
    ∀ {m : List Host.Cell} {x : Nat}, risesFrom x m = true → x < a → risesFrom x (write m a v) = true := by
  intro m
  induction m with
  | nil => intro x _ hx; simp [write, risesFrom, hx]
  | cons c m ih =>
    intro x h hx
    simp only [risesFrom, Bool.and_eq_true, decide_eq_true_eq] at h
    simp only [write]
    split
    · next ha => simp [risesFrom, hx, ha, h.2]
    · split
      · next hc => simp only [risesFrom, Bool.and_eq_true, decide_eq_true_eq]; exact ⟨hx, hc ▸ h.2⟩
      · next h1 h2 =>
        simp only [risesFrom, Bool.and_eq_true, decide_eq_true_eq]
        exact ⟨h.1, ih h.2 (by omega)⟩

theorem wf_write {m : List Host.Cell} (a : Nat) (v : Byte) (h : wf m = true) : wf (write m a v) = true := by
  cases m with
  | nil => simp [write, wf, risesFrom]
  | cons c m =>
    simp only [wf] at h
    simp only [write]
    split
    · next ha => simp [wf, risesFrom, ha, h]
    · split
      · next hc => simpa [wf, hc] using h
      · next h1 h2 => exact risesFrom_write v h (by omega)

theorem mem_write {m : List Host.Cell} {a : Nat} {v : Byte} {c : Host.Cell} (h : c ∈ write m a v) :
    c ∈ m ∨ c = (a, v) := by
  induction m with
  | nil => right; simpa [write] using h
  | cons d m ih =>
    simp only [write] at h
    split at h
    · rcases List.mem_cons.1 h with h | h
      · exact .inr h
      · exact .inl h
    · split at h
      · rcases List.mem_cons.1 h with h | h
        · exact .inr h
        · exact .inl (List.mem_cons_of_mem _ h)
      · rcases List.mem_cons.1 h with h | h
        · exact .inl (h ▸ List.mem_cons_self)
        · rcases ih h with h | h
          · exact .inl (List.mem_cons_of_mem _ h)
          · exact .inr h

theorem wf_writeRing (cap : Nat) (bytes : List Byte) :
    ∀ (pos : Nat) (m : List Host.Cell), wf m = true → wf (writeRing cap pos bytes m) = true := by
  induction bytes with
  | nil => intro pos m h; exact h
  | cons b bytes ih => intro pos m h; exact ih _ _ (wf_write _ _ h)

theorem bounded_writeRing {cap : Nat} (hcap : 0 < cap) (bytes : List Byte) :
    ∀ (pos : Nat) (m : List Host.Cell), (∀ c ∈ m, c.1 < cap) → ∀ c ∈ writeRing cap pos bytes m, c.1 < cap := by
  induction bytes with
  | nil => intro pos m h; exact h
  | cons b bytes ih =>
    intro pos m h
    refine ih _ _ fun c hc => ?_
    rcases mem_write hc with hc | rfl
    · exact h c hc
    · exact Nat.mod_lt _ hcap

/-! Reading after a push. -/

/-- Positions less than `cap` apart are different cells. -/
theorem ringIndex_inj {cap pos i j : Nat} (hi : i < cap) (hj : j < cap) (h : (pos + i) % cap = (pos + j) % cap) : i = j := by
  have h' : i ≡ j [MOD cap] := Nat.ModEq.add_left_cancel' pos h
  rwa [Nat.ModEq, Nat.mod_eq_of_lt hi, Nat.mod_eq_of_lt hj] at h'

theorem read_writeRing_other {cap a : Nat} (bytes : List Byte) :
    ∀ (pos : Nat) (m : List Host.Cell), (∀ i < bytes.length, a ≠ (pos + i) % cap) →
      read (writeRing cap pos bytes m) a = read m a := by
  induction bytes with
  | nil => intro pos m _; rfl
  | cons b bytes ih =>
    intro pos m h
    rw [writeRing, ih, read_write_other]
    · simpa using h 0 (by simp)
    · intro i hi
      have := h (i + 1) (by simpa using hi)
      rwa [show pos + 1 + i = pos + (i + 1) by omega]

theorem read_writeRing_at {cap : Nat} (bytes : List Byte) :
    ∀ (pos : Nat) (m : List Host.Cell), bytes.length ≤ cap → ∀ (i : Nat) (hi : i < bytes.length),
      read (writeRing cap pos bytes m) ((pos + i) % cap) = some bytes[i] := by
  induction bytes with
  | nil => intro pos m _ i hi; simp at hi
  | cons b bytes ih =>
    intro pos m hlen i hi
    simp only [List.length_cons] at hlen hi
    cases i with
    | zero =>
      rw [writeRing, read_writeRing_other, Nat.add_zero, read_write_same, List.getElem_cons_zero]
      intro j hj h
      have := ringIndex_inj (cap := cap) (pos := pos) (i := 0) (j := j + 1) (by omega) (by omega)
        (by rw [h]; congr 1; omega)
      omega
    | succ i =>
      rw [writeRing, show pos + (i + 1) = pos + 1 + i by omega, ih _ _ (by omega) i (by omega)]
      rfl

/-! Runs of cells. -/

theorem ringBytes_congr {m m' : List Host.Cell} {cap : Nat} :
    ∀ (n pos : Nat), (∀ j < n, read m ((pos + j) % cap) = read m' ((pos + j) % cap)) →
      ringBytes m cap pos n = ringBytes m' cap pos n := by
  intro n
  induction n with
  | zero => intro pos _; rfl
  | succ n ih =>
    intro pos h
    rw [ringBytes, ringBytes, show read m (pos % cap) = read m' (pos % cap) by simpa using h 0 (by omega),
      ih (pos + 1) fun j hj => by simpa [Nat.add_assoc, Nat.add_comm 1 j] using h (j + 1) (by omega)]

theorem ringBytes_mod (m : List Host.Cell) (cap n : Nat) :
    ∀ pos, ringBytes m cap (pos % cap) n = ringBytes m cap pos n := by
  have key : ∀ n pos pos', pos % cap = pos' % cap → ringBytes m cap pos n = ringBytes m cap pos' n := by
    intro n
    induction n with
    | zero => intros; rfl
    | succ n ih =>
      intro pos pos' h
      rw [ringBytes, ringBytes, h, ih (pos + 1) (pos' + 1) (by rw [Nat.add_mod, h, ← Nat.add_mod])]
  exact fun pos => key n _ _ (Nat.mod_mod _ _)

theorem ringBytes_add (m : List Host.Cell) (cap a b : Nat) :
    ∀ pos, ringBytes m cap pos (a + b) = ringBytes m cap pos a ++ ringBytes m cap (pos + a) b := by
  induction a with
  | zero => intro pos; simp [ringBytes]
  | succ a ih =>
    intro pos
    rw [show a + 1 + b = a + b + 1 by omega, ringBytes, ringBytes, ih, List.append_assoc,
      show pos + 1 + a = pos + (a + 1) by omega]

theorem length_ringBytes {m : List Host.Cell} {cap : Nat} :
    ∀ (n pos : Nat), (∀ j < n, (read m ((pos + j) % cap)).isSome = true) → (ringBytes m cap pos n).length = n := by
  intro n
  induction n with
  | zero => intro pos _; rfl
  | succ n ih =>
    intro pos h
    obtain ⟨b, hb⟩ := Option.isSome_iff_exists.1 (h 0 (by omega))
    rw [Nat.add_zero] at hb
    rw [ringBytes, hb, List.length_append,
      ih (pos + 1) fun j hj => by simpa [Nat.add_assoc, Nat.add_comm 1 j] using h (j + 1) (by omega)]
    simp [Nat.add_comm]

theorem ringBytes_writeRing {cap : Nat} (bytes : List Byte) (pos : Nat) (m : List Host.Cell) (h : bytes.length ≤ cap) :
    ringBytes (writeRing cap pos bytes m) cap pos bytes.length = bytes := by
  have key : ∀ (l : List Byte) (m : List Host.Cell) (p : Nat),
      (∀ i (hi : i < l.length), read m ((p + i) % cap) = some l[i]) → ringBytes m cap p l.length = l := by
    intro l
    induction l with
    | nil => intros; rfl
    | cons b l ih =>
      intro m p hr
      have h0 := hr 0 (by simp)
      rw [Nat.add_zero] at h0
      rw [List.length_cons, ringBytes, h0, ih m (p + 1) fun i hi => by
        rw [show p + 1 + i = p + (i + 1) by omega, hr (i + 1) (by simpa using hi), List.getElem_cons_succ]]
      rfl
  exact key bytes _ pos fun i hi => read_writeRing_at bytes pos m h i hi

/-- Cells that all hold a value, and do not wrap, are read as the run of the ring that they are. -/
theorem readCells_of_valued {m : List Host.Cell} {cap : Nat} :
    ∀ (n a : Nat), a + n ≤ cap → (∀ j < n, (read m ((a + j) % cap)).isSome = true) →
      readCells m a n = some (ringBytes m cap a n) := by
  intro n
  induction n with
  | zero => intros; rfl
  | succ n ih =>
    intro a ha h
    obtain ⟨b, hb⟩ := Option.isSome_iff_exists.1 (h 0 (by omega))
    have hmod : a % cap = a := Nat.mod_eq_of_lt (by omega)
    rw [Nat.add_zero, hmod] at hb
    rw [readCells, hb, ih (a + 1) (by omega) fun j hj => by
      simpa [Nat.add_assoc, Nat.add_comm 1 j] using h (j + 1) (by omega)]
    simp [ringBytes, hmod, hb]

theorem length_readCells {m : List Host.Cell} :
    ∀ {n a : Nat} {bytes : List Byte}, readCells m a n = some bytes → bytes.length = n := by
  intro n
  induction n with
  | zero => intro a bytes h; simp only [readCells, Option.some.injEq] at h; simp [← h]
  | succ n ih =>
    intro a bytes h
    simp only [readCells] at h
    split at h
    · next b bs _ hbs => simp only [Option.some.injEq] at h; simp [← h, ih hbs]
    · exact absurd h (by simp)

end Sys2Proof.Machine.Memory
end

