-- ==== Sys2Proof/Laws/PerInstr.lean ====
section
/-! SUPPORT. Per instruction: its encoded word lies in the row of the opcode table that bears its mnemonic, and its
payload is as long as its word says where it is well-formed (30_encoding.md R84, R88). -/

namespace Sys2Proof.Laws.TableRow

open Sys2Proof

def Statement (i : Instr) : Prop :=
  (∃ row ∈ opcodeTable, row.mnemonic = i.mnemonic ∧ i.word &&& row.mask = row.value) ∧
    (i.wf = true → (encode i).payload.length = payloadLength i.word)

/-- A word of format L lies in its row whatever its length field is. -/
theorem word_and_opcMask (opc : BitVec 8) (arg : BitVec 24) : opWord opc arg &&& 0xFF000000#32 = opWord opc 0#24 := by
  have h : (0xFF000000#32 : OpWord) = opWord 0xFF#8 0#24 := by decide
  rw [h, opWord_and, show (0xFF#8 : BitVec 8) = BitVec.allOnes 8 from rfl, BitVec.and_allOnes, BitVec.and_zero]

theorem length_field {n : Nat} (h : n < maxPayload) : (BitVec.ofNat 24 n).toNat = n := by
  simpa using Nat.mod_eq_of_lt (show n < 2 ^ 24 from h)

theorem stBegin : Statement .stBegin :=
  ⟨⟨⟨"ST_BEGIN", 0x01000000#32, 0xFFFFFFFF#32⟩, by decide, rfl, by decide⟩, fun _ => by decide⟩

theorem stEnd : Statement .stEnd :=
  ⟨⟨⟨"ST_END", 0x02000000#32, 0xFFFFFFFF#32⟩, by decide, rfl, by decide⟩, fun _ => by decide⟩

theorem stCmd (b : Byte) : Statement (.stCmd b) :=
  ⟨⟨⟨"ST_CMD", 0x03000000#32, 0xFFFFFF00#32⟩, by decide, rfl, by
      show opWord _ _ &&& opWord 0xFF#8 0xFFFF00#24 = _
      rw [opWord_and, show b.setWidth 24 &&& 0xFFFF00#24 = 0#24 by revert b; decide]; decide⟩,
    fun _ => by simp [encode, Instr.word, payloadLength]⟩

theorem stData (bytes : List Byte) : Statement (.stData bytes) :=
  ⟨⟨⟨"ST_DATA", 0x04000000#32, 0xFF000000#32⟩, by decide, rfl, by
      rw [Instr.word, encode, encodeL, word_and_opcMask]; decide⟩,
    fun h => by simp [encode, encodeL, Instr.word, payloadLength, length_field (of_decide_eq_true h)]⟩

theorem rbPush (bytes : List Byte) : Statement (.rbPush bytes) :=
  ⟨⟨⟨"RB_PUSH", 0x05000000#32, 0xFF000000#32⟩, by decide, rfl, by
      rw [Instr.word, encode, encodeL, word_and_opcMask]; decide⟩,
    fun h => by simp [encode, encodeL, Instr.word, payloadLength, length_field (of_decide_eq_true h)]⟩

theorem txStart : Statement .txStart :=
  ⟨⟨⟨"TX_START", 0x06000000#32, 0xFFFFFFFF#32⟩, by decide, rfl, by decide⟩, fun _ => by decide⟩

theorem txPush (bytes : List Byte) : Statement (.txPush bytes) :=
  ⟨⟨⟨"TX_PUSH", 0x07000000#32, 0xFF000000#32⟩, by decide, rfl, by
      rw [Instr.word, encode, encodeL, word_and_opcMask]; decide⟩,
    fun h => by simp [encode, encodeL, Instr.word, payloadLength, length_field (of_decide_eq_true h)]⟩

theorem rstSet (v : Level) : Statement (.rstSet v) :=
  ⟨⟨⟨"RST_SET", 0x08000000#32, 0xFFFFFFFE#32⟩, by decide, rfl, by cases v <;> decide⟩,
    fun _ => by simp [encode, Instr.word, payloadLength]⟩

theorem delayUs (us : BitVec 24) : Statement (.delayUs us) :=
  ⟨⟨⟨"DELAY_US", 0x09000000#32, 0xFF000000#32⟩, by decide, rfl, by
      rw [Instr.word, encode, word_and_opcMask]; decide⟩,
    fun _ => by simp [encode, Instr.word, payloadLength]⟩

end Sys2Proof.Laws.TableRow
end

