-- ==== Sys2Proof/Laws/State.lean ====
section
/-! SUPPORT. What each update of the state leaves in each field: one lemma per field per update, true by rfl. -/

namespace Sys2Proof.Machine

open Sys2Proof

/-! `State.record` -/

@[simp] theorem State.record_cfg (s : State) (r : FaultRecord) : (s.record r).cfg = s.cfg := rfl
@[simp] theorem State.record_cs (s : State) (r : FaultRecord) : (s.record r).cs = s.cs := rfl
@[simp] theorem State.record_scl (s : State) (r : FaultRecord) : (s.record r).scl = s.scl := rfl
@[simp] theorem State.record_sda (s : State) (r : FaultRecord) : (s.record r).sda = s.sda := rfl
@[simp] theorem State.record_depth (s : State) (r : FaultRecord) : (s.record r).depth = s.depth := rfl
@[simp] theorem State.record_wire (s : State) (r : FaultRecord) : (s.record r).wire = s.wire := rfl
@[simp] theorem State.record_result (s : State) (r : FaultRecord) : (s.record r).result = s.result := rfl
@[simp] theorem State.record_rst (s : State) (r : FaultRecord) : (s.record r).rst = s.rst := rfl
@[simp] theorem State.record_storage (s : State) (r : FaultRecord) : (s.record r).storage = s.storage := rfl
@[simp] theorem State.record_wpos (s : State) (r : FaultRecord) : (s.record r).wpos = s.wpos := rfl
@[simp] theorem State.record_rpos (s : State) (r : FaultRecord) : (s.record r).rpos = s.rpos := rfl
@[simp] theorem State.record_fill (s : State) (r : FaultRecord) : (s.record r).fill = s.fill := rfl
@[simp] theorem State.record_phase (s : State) (r : FaultRecord) : (s.record r).phase = s.phase := rfl
@[simp] theorem State.record_accepted (s : State) (r : FaultRecord) : (s.record r).accepted = s.accepted := rfl
@[simp] theorem State.record_desc (s : State) (r : FaultRecord) : (s.record r).desc = s.desc := rfl
@[simp] theorem State.record_lcdOut (s : State) (r : FaultRecord) : (s.record r).lcdOut = s.lcdOut := rfl
@[simp] theorem State.record_faults (s : State) (r : FaultRecord) : (s.record r).faults = s.faults ++ [r] := rfl
@[simp] theorem State.record_sys (s : State) (r : FaultRecord) : (s.record r).sys = s.sys := rfl
@[simp] theorem State.record_sysError (s : State) (r : FaultRecord) : (s.record r).sysError = s.sysError := rfl
@[simp] theorem State.record_host (s : State) (r : FaultRecord) : (s.record r).host = s.host := rfl
@[simp] theorem State.record_draws (s : State) (r : FaultRecord) : (s.record r).draws = s.draws := rfl

/-! `State.raise` -/

@[simp] theorem State.raise_cfg (s : State) (c : FaultCode) (i : FaultInfo) : (s.raise c i).cfg = s.cfg := rfl
@[simp] theorem State.raise_cs (s : State) (c : FaultCode) (i : FaultInfo) : (s.raise c i).cs = s.cs := rfl
@[simp] theorem State.raise_scl (s : State) (c : FaultCode) (i : FaultInfo) : (s.raise c i).scl = s.scl := rfl
@[simp] theorem State.raise_sda (s : State) (c : FaultCode) (i : FaultInfo) : (s.raise c i).sda = s.sda := rfl
@[simp] theorem State.raise_depth (s : State) (c : FaultCode) (i : FaultInfo) : (s.raise c i).depth = s.depth := rfl
@[simp] theorem State.raise_wire (s : State) (c : FaultCode) (i : FaultInfo) : (s.raise c i).wire = s.wire := rfl
@[simp] theorem State.raise_result (s : State) (c : FaultCode) (i : FaultInfo) : (s.raise c i).result = s.result := rfl
@[simp] theorem State.raise_rst (s : State) (c : FaultCode) (i : FaultInfo) : (s.raise c i).rst = s.rst := rfl
@[simp] theorem State.raise_storage (s : State) (c : FaultCode) (i : FaultInfo) : (s.raise c i).storage = s.storage := rfl
@[simp] theorem State.raise_wpos (s : State) (c : FaultCode) (i : FaultInfo) : (s.raise c i).wpos = s.wpos := rfl
@[simp] theorem State.raise_rpos (s : State) (c : FaultCode) (i : FaultInfo) : (s.raise c i).rpos = s.rpos := rfl
@[simp] theorem State.raise_fill (s : State) (c : FaultCode) (i : FaultInfo) : (s.raise c i).fill = s.fill := rfl
@[simp] theorem State.raise_phase (s : State) (c : FaultCode) (i : FaultInfo) : (s.raise c i).phase = s.phase := rfl
@[simp] theorem State.raise_accepted (s : State) (c : FaultCode) (i : FaultInfo) : (s.raise c i).accepted = s.accepted := rfl
@[simp] theorem State.raise_desc (s : State) (c : FaultCode) (i : FaultInfo) : (s.raise c i).desc = s.desc := rfl
@[simp] theorem State.raise_lcdOut (s : State) (c : FaultCode) (i : FaultInfo) : (s.raise c i).lcdOut = s.lcdOut := rfl
@[simp] theorem State.raise_faults (s : State) (c : FaultCode) (i : FaultInfo) : (s.raise c i).faults = s.faults ++ [⟨c, i⟩] := rfl
@[simp] theorem State.raise_sys (s : State) (c : FaultCode) (i : FaultInfo) : (s.raise c i).sys = s.sys := rfl
@[simp] theorem State.raise_sysError (s : State) (c : FaultCode) (i : FaultInfo) : (s.raise c i).sysError = s.sysError := rfl
@[simp] theorem State.raise_host (s : State) (c : FaultCode) (i : FaultInfo) : (s.raise c i).host = s.host := rfl
@[simp] theorem State.raise_draws (s : State) (c : FaultCode) (i : FaultInfo) : (s.raise c i).draws = s.draws := rfl

/-! `State.raiseOp` -/

@[simp] theorem State.raiseOp_cfg (s : State) (c : FaultCode) (w : OpWord) : (s.raiseOp c w).cfg = s.cfg := rfl
@[simp] theorem State.raiseOp_cs (s : State) (c : FaultCode) (w : OpWord) : (s.raiseOp c w).cs = s.cs := rfl
@[simp] theorem State.raiseOp_scl (s : State) (c : FaultCode) (w : OpWord) : (s.raiseOp c w).scl = s.scl := rfl
@[simp] theorem State.raiseOp_sda (s : State) (c : FaultCode) (w : OpWord) : (s.raiseOp c w).sda = s.sda := rfl
@[simp] theorem State.raiseOp_depth (s : State) (c : FaultCode) (w : OpWord) : (s.raiseOp c w).depth = s.depth := rfl
@[simp] theorem State.raiseOp_wire (s : State) (c : FaultCode) (w : OpWord) : (s.raiseOp c w).wire = s.wire := rfl
@[simp] theorem State.raiseOp_result (s : State) (c : FaultCode) (w : OpWord) : (s.raiseOp c w).result = s.result := rfl
@[simp] theorem State.raiseOp_rst (s : State) (c : FaultCode) (w : OpWord) : (s.raiseOp c w).rst = s.rst := rfl
@[simp] theorem State.raiseOp_storage (s : State) (c : FaultCode) (w : OpWord) : (s.raiseOp c w).storage = s.storage := rfl
@[simp] theorem State.raiseOp_wpos (s : State) (c : FaultCode) (w : OpWord) : (s.raiseOp c w).wpos = s.wpos := rfl
@[simp] theorem State.raiseOp_rpos (s : State) (c : FaultCode) (w : OpWord) : (s.raiseOp c w).rpos = s.rpos := rfl
@[simp] theorem State.raiseOp_fill (s : State) (c : FaultCode) (w : OpWord) : (s.raiseOp c w).fill = s.fill := rfl
@[simp] theorem State.raiseOp_phase (s : State) (c : FaultCode) (w : OpWord) : (s.raiseOp c w).phase = s.phase := rfl
@[simp] theorem State.raiseOp_accepted (s : State) (c : FaultCode) (w : OpWord) : (s.raiseOp c w).accepted = s.accepted := rfl
@[simp] theorem State.raiseOp_desc (s : State) (c : FaultCode) (w : OpWord) : (s.raiseOp c w).desc = s.desc := rfl
@[simp] theorem State.raiseOp_lcdOut (s : State) (c : FaultCode) (w : OpWord) : (s.raiseOp c w).lcdOut = s.lcdOut := rfl
@[simp] theorem State.raiseOp_faults (s : State) (c : FaultCode) (w : OpWord) : (s.raiseOp c w).faults = s.faults ++ [⟨c, .opWord w⟩] := rfl
@[simp] theorem State.raiseOp_sys (s : State) (c : FaultCode) (w : OpWord) : (s.raiseOp c w).sys = s.sys := rfl
@[simp] theorem State.raiseOp_sysError (s : State) (c : FaultCode) (w : OpWord) : (s.raiseOp c w).sysError = s.sysError := rfl
@[simp] theorem State.raiseOp_host (s : State) (c : FaultCode) (w : OpWord) : (s.raiseOp c w).host = s.host := rfl
@[simp] theorem State.raiseOp_draws (s : State) (c : FaultCode) (w : OpWord) : (s.raiseOp c w).draws = s.draws := rfl

/-! `State.setResult` -/

@[simp] theorem State.setResult_cfg (s : State) (r : Result) : (s.setResult r).cfg = s.cfg := rfl
@[simp] theorem State.setResult_cs (s : State) (r : Result) : (s.setResult r).cs = s.cs := rfl
@[simp] theorem State.setResult_scl (s : State) (r : Result) : (s.setResult r).scl = s.scl := rfl
@[simp] theorem State.setResult_sda (s : State) (r : Result) : (s.setResult r).sda = s.sda := rfl
@[simp] theorem State.setResult_depth (s : State) (r : Result) : (s.setResult r).depth = s.depth := rfl
@[simp] theorem State.setResult_wire (s : State) (r : Result) : (s.setResult r).wire = s.wire := rfl
@[simp] theorem State.setResult_result (s : State) (r : Result) : (s.setResult r).result = r := rfl
@[simp] theorem State.setResult_rst (s : State) (r : Result) : (s.setResult r).rst = s.rst := rfl
@[simp] theorem State.setResult_storage (s : State) (r : Result) : (s.setResult r).storage = s.storage := rfl
@[simp] theorem State.setResult_wpos (s : State) (r : Result) : (s.setResult r).wpos = s.wpos := rfl
@[simp] theorem State.setResult_rpos (s : State) (r : Result) : (s.setResult r).rpos = s.rpos := rfl
@[simp] theorem State.setResult_fill (s : State) (r : Result) : (s.setResult r).fill = s.fill := rfl
@[simp] theorem State.setResult_phase (s : State) (r : Result) : (s.setResult r).phase = s.phase := rfl
@[simp] theorem State.setResult_accepted (s : State) (r : Result) : (s.setResult r).accepted = s.accepted := rfl
@[simp] theorem State.setResult_desc (s : State) (r : Result) : (s.setResult r).desc = s.desc := rfl
@[simp] theorem State.setResult_lcdOut (s : State) (r : Result) : (s.setResult r).lcdOut = s.lcdOut := rfl
@[simp] theorem State.setResult_faults (s : State) (r : Result) : (s.setResult r).faults = s.faults := rfl
@[simp] theorem State.setResult_sys (s : State) (r : Result) : (s.setResult r).sys = s.sys := rfl
@[simp] theorem State.setResult_sysError (s : State) (r : Result) : (s.setResult r).sysError = s.sysError := rfl
@[simp] theorem State.setResult_host (s : State) (r : Result) : (s.setResult r).host = s.host := rfl
@[simp] theorem State.setResult_draws (s : State) (r : Result) : (s.setResult r).draws = s.draws := rfl

/-! `State.emit` -/

@[simp] theorem State.emit_cfg (s : State) (e : Event) : (s.emit e).cfg = s.cfg := rfl
@[simp] theorem State.emit_cs (s : State) (e : Event) : (s.emit e).cs = s.cs := rfl
@[simp] theorem State.emit_scl (s : State) (e : Event) : (s.emit e).scl = s.scl := rfl
@[simp] theorem State.emit_sda (s : State) (e : Event) : (s.emit e).sda = s.sda := rfl
@[simp] theorem State.emit_depth (s : State) (e : Event) : (s.emit e).depth = s.depth := rfl
@[simp] theorem State.emit_wire (s : State) (e : Event) : (s.emit e).wire = s.wire ++ [e] := rfl
@[simp] theorem State.emit_result (s : State) (e : Event) : (s.emit e).result = s.result := rfl
@[simp] theorem State.emit_rst (s : State) (e : Event) : (s.emit e).rst = s.rst := rfl
@[simp] theorem State.emit_storage (s : State) (e : Event) : (s.emit e).storage = s.storage := rfl
@[simp] theorem State.emit_wpos (s : State) (e : Event) : (s.emit e).wpos = s.wpos := rfl
@[simp] theorem State.emit_rpos (s : State) (e : Event) : (s.emit e).rpos = s.rpos := rfl
@[simp] theorem State.emit_fill (s : State) (e : Event) : (s.emit e).fill = s.fill := rfl
@[simp] theorem State.emit_phase (s : State) (e : Event) : (s.emit e).phase = s.phase := rfl
@[simp] theorem State.emit_accepted (s : State) (e : Event) : (s.emit e).accepted = s.accepted := rfl
@[simp] theorem State.emit_desc (s : State) (e : Event) : (s.emit e).desc = s.desc := rfl
@[simp] theorem State.emit_lcdOut (s : State) (e : Event) : (s.emit e).lcdOut = s.lcdOut := rfl
@[simp] theorem State.emit_faults (s : State) (e : Event) : (s.emit e).faults = s.faults := rfl
@[simp] theorem State.emit_sys (s : State) (e : Event) : (s.emit e).sys = s.sys := rfl
@[simp] theorem State.emit_sysError (s : State) (e : Event) : (s.emit e).sysError = s.sysError := rfl
@[simp] theorem State.emit_host (s : State) (e : Event) : (s.emit e).host = s.host := rfl
@[simp] theorem State.emit_draws (s : State) (e : Event) : (s.emit e).draws = s.draws := rfl

/-! `State.wait` -/

@[simp] theorem State.wait_cfg (s : State) (d : Nat) : (s.wait d).cfg = s.cfg := rfl
@[simp] theorem State.wait_cs (s : State) (d : Nat) : (s.wait d).cs = s.cs := rfl
@[simp] theorem State.wait_scl (s : State) (d : Nat) : (s.wait d).scl = s.scl := rfl
@[simp] theorem State.wait_sda (s : State) (d : Nat) : (s.wait d).sda = s.sda := rfl
@[simp] theorem State.wait_depth (s : State) (d : Nat) : (s.wait d).depth = s.depth := rfl
@[simp] theorem State.wait_wire (s : State) (d : Nat) : (s.wait d).wire = s.wire ++ [.wait d] := rfl
@[simp] theorem State.wait_result (s : State) (d : Nat) : (s.wait d).result = s.result := rfl
@[simp] theorem State.wait_rst (s : State) (d : Nat) : (s.wait d).rst = s.rst := rfl
@[simp] theorem State.wait_storage (s : State) (d : Nat) : (s.wait d).storage = s.storage := rfl
@[simp] theorem State.wait_wpos (s : State) (d : Nat) : (s.wait d).wpos = s.wpos := rfl
@[simp] theorem State.wait_rpos (s : State) (d : Nat) : (s.wait d).rpos = s.rpos := rfl
@[simp] theorem State.wait_fill (s : State) (d : Nat) : (s.wait d).fill = s.fill := rfl
@[simp] theorem State.wait_phase (s : State) (d : Nat) : (s.wait d).phase = s.phase := rfl
@[simp] theorem State.wait_accepted (s : State) (d : Nat) : (s.wait d).accepted = s.accepted := rfl
@[simp] theorem State.wait_desc (s : State) (d : Nat) : (s.wait d).desc = s.desc := rfl
@[simp] theorem State.wait_lcdOut (s : State) (d : Nat) : (s.wait d).lcdOut = s.lcdOut := rfl
@[simp] theorem State.wait_faults (s : State) (d : Nat) : (s.wait d).faults = s.faults := rfl
@[simp] theorem State.wait_sys (s : State) (d : Nat) : (s.wait d).sys = s.sys := rfl
@[simp] theorem State.wait_sysError (s : State) (d : Nat) : (s.wait d).sysError = s.sysError := rfl
@[simp] theorem State.wait_host (s : State) (d : Nat) : (s.wait d).host = s.host := rfl
@[simp] theorem State.wait_draws (s : State) (d : Nat) : (s.wait d).draws = s.draws := rfl

/-! `State.driveCs` -/

@[simp] theorem State.driveCs_cfg (s : State) (v : Level) : (s.driveCs v).cfg = s.cfg := rfl
@[simp] theorem State.driveCs_cs (s : State) (v : Level) : (s.driveCs v).cs = v := rfl
@[simp] theorem State.driveCs_scl (s : State) (v : Level) : (s.driveCs v).scl = s.scl := rfl
@[simp] theorem State.driveCs_sda (s : State) (v : Level) : (s.driveCs v).sda = s.sda := rfl
@[simp] theorem State.driveCs_depth (s : State) (v : Level) : (s.driveCs v).depth = s.depth := rfl
@[simp] theorem State.driveCs_wire (s : State) (v : Level) : (s.driveCs v).wire = s.wire ++ [.setCs v] := rfl
@[simp] theorem State.driveCs_result (s : State) (v : Level) : (s.driveCs v).result = s.result := rfl
@[simp] theorem State.driveCs_rst (s : State) (v : Level) : (s.driveCs v).rst = s.rst := rfl
@[simp] theorem State.driveCs_storage (s : State) (v : Level) : (s.driveCs v).storage = s.storage := rfl
@[simp] theorem State.driveCs_wpos (s : State) (v : Level) : (s.driveCs v).wpos = s.wpos := rfl
@[simp] theorem State.driveCs_rpos (s : State) (v : Level) : (s.driveCs v).rpos = s.rpos := rfl
@[simp] theorem State.driveCs_fill (s : State) (v : Level) : (s.driveCs v).fill = s.fill := rfl
@[simp] theorem State.driveCs_phase (s : State) (v : Level) : (s.driveCs v).phase = s.phase := rfl
@[simp] theorem State.driveCs_accepted (s : State) (v : Level) : (s.driveCs v).accepted = s.accepted := rfl
@[simp] theorem State.driveCs_desc (s : State) (v : Level) : (s.driveCs v).desc = s.desc := rfl
@[simp] theorem State.driveCs_lcdOut (s : State) (v : Level) : (s.driveCs v).lcdOut = s.lcdOut := rfl
@[simp] theorem State.driveCs_faults (s : State) (v : Level) : (s.driveCs v).faults = s.faults := rfl
@[simp] theorem State.driveCs_sys (s : State) (v : Level) : (s.driveCs v).sys = s.sys := rfl
@[simp] theorem State.driveCs_sysError (s : State) (v : Level) : (s.driveCs v).sysError = s.sysError := rfl
@[simp] theorem State.driveCs_host (s : State) (v : Level) : (s.driveCs v).host = s.host := rfl
@[simp] theorem State.driveCs_draws (s : State) (v : Level) : (s.driveCs v).draws = s.draws := rfl

/-! `State.driveScl` -/

@[simp] theorem State.driveScl_cfg (s : State) (v : Level) : (s.driveScl v).cfg = s.cfg := rfl
@[simp] theorem State.driveScl_cs (s : State) (v : Level) : (s.driveScl v).cs = s.cs := rfl
@[simp] theorem State.driveScl_scl (s : State) (v : Level) : (s.driveScl v).scl = v := rfl
@[simp] theorem State.driveScl_sda (s : State) (v : Level) : (s.driveScl v).sda = s.sda := rfl
@[simp] theorem State.driveScl_depth (s : State) (v : Level) : (s.driveScl v).depth = s.depth := rfl
@[simp] theorem State.driveScl_wire (s : State) (v : Level) : (s.driveScl v).wire = s.wire ++ [.setScl v] := rfl
@[simp] theorem State.driveScl_result (s : State) (v : Level) : (s.driveScl v).result = s.result := rfl
@[simp] theorem State.driveScl_rst (s : State) (v : Level) : (s.driveScl v).rst = s.rst := rfl
@[simp] theorem State.driveScl_storage (s : State) (v : Level) : (s.driveScl v).storage = s.storage := rfl
@[simp] theorem State.driveScl_wpos (s : State) (v : Level) : (s.driveScl v).wpos = s.wpos := rfl
@[simp] theorem State.driveScl_rpos (s : State) (v : Level) : (s.driveScl v).rpos = s.rpos := rfl
@[simp] theorem State.driveScl_fill (s : State) (v : Level) : (s.driveScl v).fill = s.fill := rfl
@[simp] theorem State.driveScl_phase (s : State) (v : Level) : (s.driveScl v).phase = s.phase := rfl
@[simp] theorem State.driveScl_accepted (s : State) (v : Level) : (s.driveScl v).accepted = s.accepted := rfl
@[simp] theorem State.driveScl_desc (s : State) (v : Level) : (s.driveScl v).desc = s.desc := rfl
@[simp] theorem State.driveScl_lcdOut (s : State) (v : Level) : (s.driveScl v).lcdOut = s.lcdOut := rfl
@[simp] theorem State.driveScl_faults (s : State) (v : Level) : (s.driveScl v).faults = s.faults := rfl
@[simp] theorem State.driveScl_sys (s : State) (v : Level) : (s.driveScl v).sys = s.sys := rfl
@[simp] theorem State.driveScl_sysError (s : State) (v : Level) : (s.driveScl v).sysError = s.sysError := rfl
@[simp] theorem State.driveScl_host (s : State) (v : Level) : (s.driveScl v).host = s.host := rfl
@[simp] theorem State.driveScl_draws (s : State) (v : Level) : (s.driveScl v).draws = s.draws := rfl

/-! `State.driveSda` -/

@[simp] theorem State.driveSda_cfg (s : State) (v : Level) : (s.driveSda v).cfg = s.cfg := rfl
@[simp] theorem State.driveSda_cs (s : State) (v : Level) : (s.driveSda v).cs = s.cs := rfl
@[simp] theorem State.driveSda_scl (s : State) (v : Level) : (s.driveSda v).scl = s.scl := rfl
@[simp] theorem State.driveSda_sda (s : State) (v : Level) : (s.driveSda v).sda = v := rfl
@[simp] theorem State.driveSda_depth (s : State) (v : Level) : (s.driveSda v).depth = s.depth := rfl
@[simp] theorem State.driveSda_wire (s : State) (v : Level) : (s.driveSda v).wire = s.wire ++ [.setSda v] := rfl
@[simp] theorem State.driveSda_result (s : State) (v : Level) : (s.driveSda v).result = s.result := rfl
@[simp] theorem State.driveSda_rst (s : State) (v : Level) : (s.driveSda v).rst = s.rst := rfl
@[simp] theorem State.driveSda_storage (s : State) (v : Level) : (s.driveSda v).storage = s.storage := rfl
@[simp] theorem State.driveSda_wpos (s : State) (v : Level) : (s.driveSda v).wpos = s.wpos := rfl
@[simp] theorem State.driveSda_rpos (s : State) (v : Level) : (s.driveSda v).rpos = s.rpos := rfl
@[simp] theorem State.driveSda_fill (s : State) (v : Level) : (s.driveSda v).fill = s.fill := rfl
@[simp] theorem State.driveSda_phase (s : State) (v : Level) : (s.driveSda v).phase = s.phase := rfl
@[simp] theorem State.driveSda_accepted (s : State) (v : Level) : (s.driveSda v).accepted = s.accepted := rfl
@[simp] theorem State.driveSda_desc (s : State) (v : Level) : (s.driveSda v).desc = s.desc := rfl
@[simp] theorem State.driveSda_lcdOut (s : State) (v : Level) : (s.driveSda v).lcdOut = s.lcdOut := rfl
@[simp] theorem State.driveSda_faults (s : State) (v : Level) : (s.driveSda v).faults = s.faults := rfl
@[simp] theorem State.driveSda_sys (s : State) (v : Level) : (s.driveSda v).sys = s.sys := rfl
@[simp] theorem State.driveSda_sysError (s : State) (v : Level) : (s.driveSda v).sysError = s.sysError := rfl
@[simp] theorem State.driveSda_host (s : State) (v : Level) : (s.driveSda v).host = s.host := rfl
@[simp] theorem State.driveSda_draws (s : State) (v : Level) : (s.driveSda v).draws = s.draws := rfl

/-! `State.driveRst` -/

@[simp] theorem State.driveRst_cfg (s : State) (v : Level) : (s.driveRst v).cfg = s.cfg := rfl
@[simp] theorem State.driveRst_cs (s : State) (v : Level) : (s.driveRst v).cs = s.cs := rfl
@[simp] theorem State.driveRst_scl (s : State) (v : Level) : (s.driveRst v).scl = s.scl := rfl
@[simp] theorem State.driveRst_sda (s : State) (v : Level) : (s.driveRst v).sda = s.sda := rfl
@[simp] theorem State.driveRst_depth (s : State) (v : Level) : (s.driveRst v).depth = s.depth := rfl
@[simp] theorem State.driveRst_wire (s : State) (v : Level) : (s.driveRst v).wire = s.wire ++ [.setRst v] := rfl
@[simp] theorem State.driveRst_result (s : State) (v : Level) : (s.driveRst v).result = s.result := rfl
@[simp] theorem State.driveRst_rst (s : State) (v : Level) : (s.driveRst v).rst = v := rfl
@[simp] theorem State.driveRst_storage (s : State) (v : Level) : (s.driveRst v).storage = s.storage := rfl
@[simp] theorem State.driveRst_wpos (s : State) (v : Level) : (s.driveRst v).wpos = s.wpos := rfl
@[simp] theorem State.driveRst_rpos (s : State) (v : Level) : (s.driveRst v).rpos = s.rpos := rfl
@[simp] theorem State.driveRst_fill (s : State) (v : Level) : (s.driveRst v).fill = s.fill := rfl
@[simp] theorem State.driveRst_phase (s : State) (v : Level) : (s.driveRst v).phase = s.phase := rfl
@[simp] theorem State.driveRst_accepted (s : State) (v : Level) : (s.driveRst v).accepted = s.accepted := rfl
@[simp] theorem State.driveRst_desc (s : State) (v : Level) : (s.driveRst v).desc = s.desc := rfl
@[simp] theorem State.driveRst_lcdOut (s : State) (v : Level) : (s.driveRst v).lcdOut = s.lcdOut := rfl
@[simp] theorem State.driveRst_faults (s : State) (v : Level) : (s.driveRst v).faults = s.faults := rfl
@[simp] theorem State.driveRst_sys (s : State) (v : Level) : (s.driveRst v).sys = s.sys := rfl
@[simp] theorem State.driveRst_sysError (s : State) (v : Level) : (s.driveRst v).sysError = s.sysError := rfl
@[simp] theorem State.driveRst_host (s : State) (v : Level) : (s.driveRst v).host = s.host := rfl
@[simp] theorem State.driveRst_draws (s : State) (v : Level) : (s.driveRst v).draws = s.draws := rfl

/-! `State.takeBusOutcome` -/

@[simp] theorem State.takeBusOutcome_cfg (s : State) : (s.takeBusOutcome).cfg = s.cfg := rfl
@[simp] theorem State.takeBusOutcome_cs (s : State) : (s.takeBusOutcome).cs = s.cs := rfl
@[simp] theorem State.takeBusOutcome_scl (s : State) : (s.takeBusOutcome).scl = s.scl := rfl
@[simp] theorem State.takeBusOutcome_sda (s : State) : (s.takeBusOutcome).sda = s.sda := rfl
@[simp] theorem State.takeBusOutcome_depth (s : State) : (s.takeBusOutcome).depth = s.depth := rfl
@[simp] theorem State.takeBusOutcome_wire (s : State) : (s.takeBusOutcome).wire = s.wire := rfl
@[simp] theorem State.takeBusOutcome_result (s : State) : (s.takeBusOutcome).result = s.result := rfl
@[simp] theorem State.takeBusOutcome_rst (s : State) : (s.takeBusOutcome).rst = s.rst := rfl
@[simp] theorem State.takeBusOutcome_storage (s : State) : (s.takeBusOutcome).storage = s.storage := rfl
@[simp] theorem State.takeBusOutcome_wpos (s : State) : (s.takeBusOutcome).wpos = s.wpos := rfl
@[simp] theorem State.takeBusOutcome_rpos (s : State) : (s.takeBusOutcome).rpos = s.rpos := rfl
@[simp] theorem State.takeBusOutcome_fill (s : State) : (s.takeBusOutcome).fill = s.fill := rfl
@[simp] theorem State.takeBusOutcome_phase (s : State) : (s.takeBusOutcome).phase = s.phase := rfl
@[simp] theorem State.takeBusOutcome_accepted (s : State) : (s.takeBusOutcome).accepted = s.accepted := rfl
@[simp] theorem State.takeBusOutcome_desc (s : State) : (s.takeBusOutcome).desc = s.desc := rfl
@[simp] theorem State.takeBusOutcome_lcdOut (s : State) : (s.takeBusOutcome).lcdOut = s.lcdOut := rfl
@[simp] theorem State.takeBusOutcome_faults (s : State) : (s.takeBusOutcome).faults = s.faults := rfl
@[simp] theorem State.takeBusOutcome_sys (s : State) : (s.takeBusOutcome).sys = s.sys := rfl
@[simp] theorem State.takeBusOutcome_sysError (s : State) : (s.takeBusOutcome).sysError = s.sysError := rfl
@[simp] theorem State.takeBusOutcome_host (s : State) : (s.takeBusOutcome).host = s.host := rfl
@[simp] theorem State.takeBusOutcome_draws (s : State) : (s.takeBusOutcome).draws = { s.draws with bus := s.draws.bus.drop 1, busIx := s.draws.busIx + 1 } := rfl

/-! `State.takeChoice` -/

@[simp] theorem State.takeChoice_cfg (s : State) : (s.takeChoice).cfg = s.cfg := rfl
@[simp] theorem State.takeChoice_cs (s : State) : (s.takeChoice).cs = s.cs := rfl
@[simp] theorem State.takeChoice_scl (s : State) : (s.takeChoice).scl = s.scl := rfl
@[simp] theorem State.takeChoice_sda (s : State) : (s.takeChoice).sda = s.sda := rfl
@[simp] theorem State.takeChoice_depth (s : State) : (s.takeChoice).depth = s.depth := rfl
@[simp] theorem State.takeChoice_wire (s : State) : (s.takeChoice).wire = s.wire := rfl
@[simp] theorem State.takeChoice_result (s : State) : (s.takeChoice).result = s.result := rfl
@[simp] theorem State.takeChoice_rst (s : State) : (s.takeChoice).rst = s.rst := rfl
@[simp] theorem State.takeChoice_storage (s : State) : (s.takeChoice).storage = s.storage := rfl
@[simp] theorem State.takeChoice_wpos (s : State) : (s.takeChoice).wpos = s.wpos := rfl
@[simp] theorem State.takeChoice_rpos (s : State) : (s.takeChoice).rpos = s.rpos := rfl
@[simp] theorem State.takeChoice_fill (s : State) : (s.takeChoice).fill = s.fill := rfl
@[simp] theorem State.takeChoice_phase (s : State) : (s.takeChoice).phase = s.phase := rfl
@[simp] theorem State.takeChoice_accepted (s : State) : (s.takeChoice).accepted = s.accepted := rfl
@[simp] theorem State.takeChoice_desc (s : State) : (s.takeChoice).desc = s.desc := rfl
@[simp] theorem State.takeChoice_lcdOut (s : State) : (s.takeChoice).lcdOut = s.lcdOut := rfl
@[simp] theorem State.takeChoice_faults (s : State) : (s.takeChoice).faults = s.faults := rfl
@[simp] theorem State.takeChoice_sys (s : State) : (s.takeChoice).sys = s.sys := rfl
@[simp] theorem State.takeChoice_sysError (s : State) : (s.takeChoice).sysError = s.sysError := rfl
@[simp] theorem State.takeChoice_host (s : State) : (s.takeChoice).host = s.host := rfl
@[simp] theorem State.takeChoice_draws (s : State) : (s.takeChoice).draws = s.draws.takeChoice := rfl

/-! `State.pushTodo` -/

@[simp] theorem State.pushTodo_cfg (s : State) (l : List HostCmd) : (s.pushTodo l).cfg = s.cfg := rfl
@[simp] theorem State.pushTodo_cs (s : State) (l : List HostCmd) : (s.pushTodo l).cs = s.cs := rfl
@[simp] theorem State.pushTodo_scl (s : State) (l : List HostCmd) : (s.pushTodo l).scl = s.scl := rfl
@[simp] theorem State.pushTodo_sda (s : State) (l : List HostCmd) : (s.pushTodo l).sda = s.sda := rfl
@[simp] theorem State.pushTodo_depth (s : State) (l : List HostCmd) : (s.pushTodo l).depth = s.depth := rfl
@[simp] theorem State.pushTodo_wire (s : State) (l : List HostCmd) : (s.pushTodo l).wire = s.wire := rfl
@[simp] theorem State.pushTodo_result (s : State) (l : List HostCmd) : (s.pushTodo l).result = s.result := rfl
@[simp] theorem State.pushTodo_rst (s : State) (l : List HostCmd) : (s.pushTodo l).rst = s.rst := rfl
@[simp] theorem State.pushTodo_storage (s : State) (l : List HostCmd) : (s.pushTodo l).storage = s.storage := rfl
@[simp] theorem State.pushTodo_wpos (s : State) (l : List HostCmd) : (s.pushTodo l).wpos = s.wpos := rfl
@[simp] theorem State.pushTodo_rpos (s : State) (l : List HostCmd) : (s.pushTodo l).rpos = s.rpos := rfl
@[simp] theorem State.pushTodo_fill (s : State) (l : List HostCmd) : (s.pushTodo l).fill = s.fill := rfl
@[simp] theorem State.pushTodo_phase (s : State) (l : List HostCmd) : (s.pushTodo l).phase = s.phase := rfl
@[simp] theorem State.pushTodo_accepted (s : State) (l : List HostCmd) : (s.pushTodo l).accepted = s.accepted := rfl
@[simp] theorem State.pushTodo_desc (s : State) (l : List HostCmd) : (s.pushTodo l).desc = s.desc := rfl
@[simp] theorem State.pushTodo_lcdOut (s : State) (l : List HostCmd) : (s.pushTodo l).lcdOut = s.lcdOut := rfl
@[simp] theorem State.pushTodo_faults (s : State) (l : List HostCmd) : (s.pushTodo l).faults = s.faults := rfl
@[simp] theorem State.pushTodo_sys (s : State) (l : List HostCmd) : (s.pushTodo l).sys = s.sys := rfl
@[simp] theorem State.pushTodo_sysError (s : State) (l : List HostCmd) : (s.pushTodo l).sysError = s.sysError := rfl
@[simp] theorem State.pushTodo_host (s : State) (l : List HostCmd) : (s.pushTodo l).host = { s.host with todo := l ++ s.host.todo } := rfl
@[simp] theorem State.pushTodo_draws (s : State) (l : List HostCmd) : (s.pushTodo l).draws = s.draws := rfl

/-! `State.popTodo` -/

@[simp] theorem State.popTodo_cfg (s : State) : (s.popTodo).cfg = s.cfg := rfl
@[simp] theorem State.popTodo_cs (s : State) : (s.popTodo).cs = s.cs := rfl
@[simp] theorem State.popTodo_scl (s : State) : (s.popTodo).scl = s.scl := rfl
@[simp] theorem State.popTodo_sda (s : State) : (s.popTodo).sda = s.sda := rfl
@[simp] theorem State.popTodo_depth (s : State) : (s.popTodo).depth = s.depth := rfl
@[simp] theorem State.popTodo_wire (s : State) : (s.popTodo).wire = s.wire := rfl
@[simp] theorem State.popTodo_result (s : State) : (s.popTodo).result = s.result := rfl
@[simp] theorem State.popTodo_rst (s : State) : (s.popTodo).rst = s.rst := rfl
@[simp] theorem State.popTodo_storage (s : State) : (s.popTodo).storage = s.storage := rfl
@[simp] theorem State.popTodo_wpos (s : State) : (s.popTodo).wpos = s.wpos := rfl
@[simp] theorem State.popTodo_rpos (s : State) : (s.popTodo).rpos = s.rpos := rfl
@[simp] theorem State.popTodo_fill (s : State) : (s.popTodo).fill = s.fill := rfl
@[simp] theorem State.popTodo_phase (s : State) : (s.popTodo).phase = s.phase := rfl
@[simp] theorem State.popTodo_accepted (s : State) : (s.popTodo).accepted = s.accepted := rfl
@[simp] theorem State.popTodo_desc (s : State) : (s.popTodo).desc = s.desc := rfl
@[simp] theorem State.popTodo_lcdOut (s : State) : (s.popTodo).lcdOut = s.lcdOut := rfl
@[simp] theorem State.popTodo_faults (s : State) : (s.popTodo).faults = s.faults := rfl
@[simp] theorem State.popTodo_sys (s : State) : (s.popTodo).sys = s.sys := rfl
@[simp] theorem State.popTodo_sysError (s : State) : (s.popTodo).sysError = s.sysError := rfl
@[simp] theorem State.popTodo_host (s : State) : (s.popTodo).host = { s.host with todo := s.host.todo.drop 1 } := rfl
@[simp] theorem State.popTodo_draws (s : State) : (s.popTodo).draws = s.draws := rfl

/-! `State.noteResult` -/

@[simp] theorem State.noteResult_cfg (s : State) : (s.noteResult).cfg = s.cfg := rfl
@[simp] theorem State.noteResult_cs (s : State) : (s.noteResult).cs = s.cs := rfl
@[simp] theorem State.noteResult_scl (s : State) : (s.noteResult).scl = s.scl := rfl
@[simp] theorem State.noteResult_sda (s : State) : (s.noteResult).sda = s.sda := rfl
@[simp] theorem State.noteResult_depth (s : State) : (s.noteResult).depth = s.depth := rfl
@[simp] theorem State.noteResult_wire (s : State) : (s.noteResult).wire = s.wire := rfl
@[simp] theorem State.noteResult_result (s : State) : (s.noteResult).result = s.result := rfl
@[simp] theorem State.noteResult_rst (s : State) : (s.noteResult).rst = s.rst := rfl
@[simp] theorem State.noteResult_storage (s : State) : (s.noteResult).storage = s.storage := rfl
@[simp] theorem State.noteResult_wpos (s : State) : (s.noteResult).wpos = s.wpos := rfl
@[simp] theorem State.noteResult_rpos (s : State) : (s.noteResult).rpos = s.rpos := rfl
@[simp] theorem State.noteResult_fill (s : State) : (s.noteResult).fill = s.fill := rfl
@[simp] theorem State.noteResult_phase (s : State) : (s.noteResult).phase = s.phase := rfl
@[simp] theorem State.noteResult_accepted (s : State) : (s.noteResult).accepted = s.accepted := rfl
@[simp] theorem State.noteResult_desc (s : State) : (s.noteResult).desc = s.desc := rfl
@[simp] theorem State.noteResult_lcdOut (s : State) : (s.noteResult).lcdOut = s.lcdOut := rfl
@[simp] theorem State.noteResult_faults (s : State) : (s.noteResult).faults = s.faults := rfl
@[simp] theorem State.noteResult_sys (s : State) : (s.noteResult).sys = s.sys := rfl
@[simp] theorem State.noteResult_sysError (s : State) : (s.noteResult).sysError = s.sysError := rfl
@[simp] theorem State.noteResult_host (s : State) : (s.noteResult).host = { s.host with r := s.result } := rfl
@[simp] theorem State.noteResult_draws (s : State) : (s.noteResult).draws = s.draws := rfl

/-! `State.withTodo` -/

@[simp] theorem State.withTodo_cfg (s : State) (l : List HostCmd) : (s.withTodo l).cfg = s.cfg := rfl
@[simp] theorem State.withTodo_cs (s : State) (l : List HostCmd) : (s.withTodo l).cs = s.cs := rfl
@[simp] theorem State.withTodo_scl (s : State) (l : List HostCmd) : (s.withTodo l).scl = s.scl := rfl
@[simp] theorem State.withTodo_sda (s : State) (l : List HostCmd) : (s.withTodo l).sda = s.sda := rfl
@[simp] theorem State.withTodo_depth (s : State) (l : List HostCmd) : (s.withTodo l).depth = s.depth := rfl
@[simp] theorem State.withTodo_wire (s : State) (l : List HostCmd) : (s.withTodo l).wire = s.wire := rfl
@[simp] theorem State.withTodo_result (s : State) (l : List HostCmd) : (s.withTodo l).result = s.result := rfl
@[simp] theorem State.withTodo_rst (s : State) (l : List HostCmd) : (s.withTodo l).rst = s.rst := rfl
@[simp] theorem State.withTodo_storage (s : State) (l : List HostCmd) : (s.withTodo l).storage = s.storage := rfl
@[simp] theorem State.withTodo_wpos (s : State) (l : List HostCmd) : (s.withTodo l).wpos = s.wpos := rfl
@[simp] theorem State.withTodo_rpos (s : State) (l : List HostCmd) : (s.withTodo l).rpos = s.rpos := rfl
@[simp] theorem State.withTodo_fill (s : State) (l : List HostCmd) : (s.withTodo l).fill = s.fill := rfl
@[simp] theorem State.withTodo_phase (s : State) (l : List HostCmd) : (s.withTodo l).phase = s.phase := rfl
@[simp] theorem State.withTodo_accepted (s : State) (l : List HostCmd) : (s.withTodo l).accepted = s.accepted := rfl
@[simp] theorem State.withTodo_desc (s : State) (l : List HostCmd) : (s.withTodo l).desc = s.desc := rfl
@[simp] theorem State.withTodo_lcdOut (s : State) (l : List HostCmd) : (s.withTodo l).lcdOut = s.lcdOut := rfl
@[simp] theorem State.withTodo_faults (s : State) (l : List HostCmd) : (s.withTodo l).faults = s.faults := rfl
@[simp] theorem State.withTodo_sys (s : State) (l : List HostCmd) : (s.withTodo l).sys = s.sys := rfl
@[simp] theorem State.withTodo_sysError (s : State) (l : List HostCmd) : (s.withTodo l).sysError = s.sysError := rfl
@[simp] theorem State.withTodo_host (s : State) (l : List HostCmd) : (s.withTodo l).host = { s.host with todo := l } := rfl
@[simp] theorem State.withTodo_draws (s : State) (l : List HostCmd) : (s.withTodo l).draws = s.draws := rfl

/-! `State.afterTurns` -/

@[simp] theorem State.afterTurns_cfg (n : Nat) (s : State) : (s.afterTurns n).cfg = s.cfg := rfl
@[simp] theorem State.afterTurns_cs (n : Nat) (s : State) : (s.afterTurns n).cs = s.cs := rfl
@[simp] theorem State.afterTurns_scl (n : Nat) (s : State) : (s.afterTurns n).scl = s.scl := rfl
@[simp] theorem State.afterTurns_sda (n : Nat) (s : State) : (s.afterTurns n).sda = s.sda := rfl
@[simp] theorem State.afterTurns_depth (n : Nat) (s : State) : (s.afterTurns n).depth = s.depth := rfl
@[simp] theorem State.afterTurns_wire (n : Nat) (s : State) : (s.afterTurns n).wire = s.wire := rfl
@[simp] theorem State.afterTurns_result (n : Nat) (s : State) : (s.afterTurns n).result = s.result := rfl
@[simp] theorem State.afterTurns_rst (n : Nat) (s : State) : (s.afterTurns n).rst = s.rst := rfl
@[simp] theorem State.afterTurns_storage (n : Nat) (s : State) : (s.afterTurns n).storage = s.storage := rfl
@[simp] theorem State.afterTurns_wpos (n : Nat) (s : State) : (s.afterTurns n).wpos = s.wpos := rfl
@[simp] theorem State.afterTurns_rpos (n : Nat) (s : State) : (s.afterTurns n).rpos = s.rpos := rfl
@[simp] theorem State.afterTurns_fill (n : Nat) (s : State) : (s.afterTurns n).fill = s.fill := rfl
@[simp] theorem State.afterTurns_phase (n : Nat) (s : State) : (s.afterTurns n).phase = s.phase := rfl
@[simp] theorem State.afterTurns_accepted (n : Nat) (s : State) : (s.afterTurns n).accepted = s.accepted := rfl
@[simp] theorem State.afterTurns_desc (n : Nat) (s : State) : (s.afterTurns n).desc = s.desc := rfl
@[simp] theorem State.afterTurns_lcdOut (n : Nat) (s : State) : (s.afterTurns n).lcdOut = s.lcdOut := rfl
@[simp] theorem State.afterTurns_faults (n : Nat) (s : State) : (s.afterTurns n).faults = s.faults := rfl
@[simp] theorem State.afterTurns_sys (n : Nat) (s : State) : (s.afterTurns n).sys = s.sys := rfl
@[simp] theorem State.afterTurns_sysError (n : Nat) (s : State) : (s.afterTurns n).sysError = s.sysError := rfl
@[simp] theorem State.afterTurns_host (n : Nat) (s : State) : (s.afterTurns n).host = s.host := rfl

theorem State.afterTurns_owned {s : State} (n : Nat) (h : s.phase = .owned) : s.afterTurns n = s := by
  cases s; cases h; rfl

theorem State.afterTurns_shared {s : State} (n : Nat) (h : s.phase = .shared) :
    s.afterTurns n = { s with draws := s.draws.takeChoices n } := by
  cases s; cases h; rfl

@[simp] theorem State.afterTurns_zero (s : State) : s.afterTurns 0 = s := by
  cases h : s.phase with
  | owned => exact s.afterTurns_owned 0 h
  | shared => exact s.afterTurns_shared 0 h

/-! The schedule's part of the draws. -/

@[simp] theorem Draws.withGap_gap (d : Draws) (g : Nat) : (d.withGap g).gap = g := rfl
@[simp] theorem Draws.withGap_bus (d : Draws) (g : Nat) : (d.withGap g).bus = d.bus := rfl
@[simp] theorem Draws.withGap_busIx (d : Draws) (g : Nat) : (d.withGap g).busIx = d.busIx := rfl
@[simp] theorem Draws.withGap_underrun (d : Draws) (g : Nat) : (d.withGap g).underrun = d.underrun := rfl
@[simp] theorem Draws.withGap_schedIx (d : Draws) (g : Nat) : (d.withGap g).schedIx = d.schedIx := rfl
@[simp] theorem Draws.withGap_withGap (d : Draws) (g k : Nat) : (d.withGap g).withGap k = d.withGap k := rfl
@[simp] theorem Draws.withGap_takeChoice_succ (d : Draws) (g : Nat) : (d.withGap (g + 1)).takeChoice = d.withGap g := rfl
@[simp] theorem Draws.takeBus_gap (d : Draws) (n : Nat) : (d.takeBus n).gap = d.gap := rfl

theorem Draws.takeChoice_host {d : Draws} {g : Nat} (h : d.gap = g + 1) : d.takeChoice = d.withGap g := by
  simp only [Draws.takeChoice, h]

theorem Draws.takeChoice_dma {d : Draws} (h : d.gap = 0) :
    d.takeChoice = { d with sched := d.sched.drop 1, schedIx := d.schedIx + 1 } := by
  simp only [Draws.takeChoice, h]

@[simp] theorem Draws.takeChoice_bus (d : Draws) : d.takeChoice.bus = d.bus := by
  cases h : d.gap with
  | zero => rw [Draws.takeChoice_dma h]
  | succ g => rw [Draws.takeChoice_host h]; rfl

@[simp] theorem Draws.takeChoice_busIx (d : Draws) : d.takeChoice.busIx = d.busIx := by
  cases h : d.gap with
  | zero => rw [Draws.takeChoice_dma h]
  | succ g => rw [Draws.takeChoice_host h]; rfl

@[simp] theorem Draws.takeChoice_underrun (d : Draws) : d.takeChoice.underrun = d.underrun := by
  cases h : d.gap with
  | zero => rw [Draws.takeChoice_dma h]
  | succ g => rw [Draws.takeChoice_host h]; rfl

/-- Host choices that the schedule leaves to the host shorten the wait of the DMA agent by their number. -/
theorem Draws.takeChoices_gap {n : Nat} : ∀ {d : Draws}, n ≤ d.gap → (d.takeChoices n).gap = d.gap - n := by
  induction n with
  | zero => intro d _; rfl
  | succ n ih =>
    intro d h
    obtain ⟨g, hg⟩ := Nat.exists_eq_add_of_lt (Nat.lt_of_lt_of_le n.succ_pos h)
    have hg : d.gap = g + 1 := by omega
    rw [Draws.takeChoices, Draws.takeChoice_host hg, ih (by rw [Draws.withGap_gap]; omega), Draws.withGap_gap]
    omega

theorem State.drawnAgent_host_iff {s : State} : s.drawnAgent = .host ↔ 0 < s.draws.gap := by
  cases h : s.draws.gap with
  | zero => simp [State.drawnAgent, h]
  | succ g => simp [State.drawnAgent, h]

theorem State.drawnAgent_dma_iff {s : State} : s.drawnAgent = .dma ↔ s.draws.gap = 0 := by
  cases h : s.draws.gap with
  | zero => simp [State.drawnAgent, h]
  | succ g => simp [State.drawnAgent, h]

end Sys2Proof.Machine
end

