-- ==== Sys2Proof/Laws/Serial.lean ====
section
/-! SUPPORT. The Serial Transport Unit in closed form: what a slot, a frame, a session and a run of data frames do to the
state, on either backend. -/

namespace Sys2Proof.Machine

open Sys2Proof

/-! Frame words. -/

theorem frameWord_control (cd : Level) (b : Byte) : (frameWord cd b).getLsbD 8 = cd := by
  cases cd <;> revert b <;> decide

theorem frameWord_payload (cd : Level) (b : Byte) : (frameWord cd b).setWidth 8 = b := by
  cases cd <;> revert b <;> decide

theorem frameWord_zero (cd : Level) (b : Byte) : (frameWord cd b).getLsbD 0 = b.getLsbD 0 := by
  cases cd <;> revert b <;> decide

theorem frameBits_ne_nil (w : FrameWord) : frameBits w ≠ [] := by simp [frameBits]

/-! Slots and frames of the BB backend. -/

theorem bitSlot_eq (v : Level) (s : State) :
    bitSlot v s = { s with scl := true, sda := v, wire := s.wire ++ Trace.slot s.cfg v } := by
  simp [bitSlot, State.driveScl, State.driveSda, State.wait, State.emit, Trace.slot]

theorem bitSlots_cons_eq (v : Level) (vs : List Level) (s : State) :
    bitSlots (v :: vs) s =
      { s with scl := true, sda := vs.foldl (fun _ u => u) v, wire := s.wire ++ Trace.slots s.cfg (v :: vs) } := by
  induction vs generalizing v s with
  | nil => simp [bitSlots, bitSlot_eq, Trace.slots]
  | cons u vs ih =>
    rw [bitSlots, ih, bitSlot_eq]
    simp [Trace.slots]

/-- `FrameBB` in closed form (40_serial_transport.md R113). -/
theorem frameBB_eq (cd : Level) (b : Byte) (s : State) :
    frameBB cd b s = { s with scl := true, sda := b.getLsbD 0, wire := s.wire ++ Trace.frame s.cfg cd b } := by
  rw [frameBB, frameBits, bitSlots_cons_eq]
  have h0 := frameWord_zero cd b
  simp only [BitVec.getLsbD_eq_getElem (Nat.zero_lt_succ _)] at h0
  simp [State.wait, State.emit, Trace.frame, frameBits, h0]

theorem emitFrame_bb {s : State} (h : s.cfg.kind = .bb) (cd : Level) (b : Byte) :
    emitFrame cd b s = (.ok, frameBB cd b s) := by simp [emitFrame, h]

theorem emitFrame_hw {s : State} (h : s.cfg.kind = .hw) (cd : Level) (b : Byte) :
    emitFrame cd b s = frameHW cd b s := by simp [emitFrame, h]

/-- The loop of ST_DATA under BB (R122): all frames are sent, and the result is OK. -/
theorem sendData_bb (bytes : List Byte) {s : State} (h : s.cfg.kind = .bb) :
    sendData bytes s =
      (.ok, { s with
        scl := if bytes = [] then s.scl else true
        sda := lastBit bytes s.sda
        wire := s.wire ++ bytes.flatMap (Trace.frame s.cfg true) }) := by
  induction bytes generalizing s with
  | nil => simp [sendData, lastBit]
  | cons b bytes ih =>
    rw [sendData, emitFrame_bb h]
    simp only
    rw [ih (by simp [frameBB_eq, h]), frameBB_eq]
    simp [lastBit]

/-! The HW backend. -/

theorem frameHW_ok {s : State} (h : s.busOutcome 0 = none) (cd : Level) (b : Byte) :
    frameHW cd b s = (.ok, s.takeBusOutcome.emit (.hwWord (frameWord cd b))) := by simp [frameHW, h]

theorem frameHW_err {s : State} {e : Err} (h : s.busOutcome 0 = some e) (cd : Level) (b : Byte) :
    frameHW cd b s = (.err e, s.takeBusOutcome.emit (.hwFault (frameWord cd b))) := by simp [frameHW, h]

theorem busOutcome_take (s : State) (i : Nat) : s.takeBusOutcome.busOutcome i = s.busOutcome (i + 1) := by
  simp [State.busOutcome, Nat.add_comm, Nat.add_left_comm]

@[simp] theorem busOutcome_emit (s : State) (e : Event) (i : Nat) : (s.emit e).busOutcome i = s.busOutcome i := rfl

/-- The loop of ST_DATA under HW where every frame completes (R122). -/
theorem sendData_hw_ok (bytes : List Byte) {s : State} (h : s.cfg.kind = .hw)
    (hok : ∀ i < bytes.length, s.busOutcome i = none) :
    sendData bytes s =
      (.ok, { s with
        wire := s.wire ++ bytes.map fun b => .hwWord (frameWord true b)
        draws := s.draws.takeBus bytes.length }) := by
  induction bytes generalizing s with
  | nil => simp [sendData, Draws.takeBus]
  | cons b bytes ih =>
    rw [sendData, emitFrame_hw h, frameHW_ok (hok 0 (by simp))]
    simp only
    rw [ih (by simpa using h) fun i hi => by
      rw [busOutcome_emit, busOutcome_take]; exact hok (i + 1) (by simpa using hi)]
    simp [State.emit, State.takeBusOutcome, Draws.takeBus, Nat.add_comm]
    omega

/-- The loop of ST_DATA under HW where the frame after `sent` fails: nothing later is sent (R122, R225). -/
theorem sendData_hw_err (sent : List Byte) (b : Byte) (rest : List Byte) {s : State} {e : Err} (h : s.cfg.kind = .hw)
    (hok : ∀ i < sent.length, s.busOutcome i = none) (herr : s.busOutcome sent.length = some e) :
    sendData (sent ++ b :: rest) s =
      (.err e, { s with
        wire := s.wire ++ (sent.map fun b => .hwWord (frameWord true b)) ++ [.hwFault (frameWord true b)]
        draws := s.draws.takeBus (sent.length + 1) }) := by
  induction sent generalizing s with
  | nil =>
    rw [List.nil_append, sendData, emitFrame_hw h, frameHW_err (by simpa using herr)]
    simp [State.emit, State.takeBusOutcome, Draws.takeBus]
  | cons a sent ih =>
    rw [List.cons_append, sendData, emitFrame_hw h, frameHW_ok (hok 0 (by simp))]
    simp only
    rw [ih (by simpa using h)
      (fun i hi => by rw [busOutcome_emit, busOutcome_take]; exact hok (i + 1) (by simpa using hi))
      (by rw [busOutcome_emit, busOutcome_take]; simpa using herr)]
    simp [State.emit, State.takeBusOutcome, Draws.takeBus]
    omega

/-! Sessions. -/

/-- `SessionOpen` in closed form (R114). -/
theorem sessionOpen_eq (s : State) :
    sessionOpen s =
      { s with
        cs := if s.cfg.kind = .bb ∧ s.depth = 0 then false else s.cs
        depth := s.depth + 1
        wire := s.wire ++ (if s.cfg.kind = .bb ∧ s.depth = 0 then Trace.openEvents s.cfg else []) } := by
  unfold sessionOpen
  split <;> simp [State.driveCs, State.wait, State.emit, Trace.openEvents]

/-- `SessionClose` in closed form (R115). -/
theorem sessionClose_eq (s : State) :
    sessionClose s =
      { s with
        cs := if s.cfg.kind = .bb ∧ s.depth - 1 = 0 then true else s.cs
        depth := s.depth - 1
        wire := s.wire ++ (if s.cfg.kind = .bb ∧ s.depth - 1 = 0 then Trace.closeEvents s.cfg else []) } := by
  unfold sessionClose
  simp only
  split <;> simp [State.driveCs, State.wait, State.emit, Trace.closeEvents]

/-! What the loop of ST_DATA can do on either backend: one lemma for all frames. -/

/-- The fields that the STU's frames never touch (20_memory.md R57). -/
structure SameButFrames (s t : State) : Prop where
  cfg : t.cfg = s.cfg
  cs : t.cs = s.cs
  depth : t.depth = s.depth
  result : t.result = s.result
  rst : t.rst = s.rst
  storage : t.storage = s.storage
  wpos : t.wpos = s.wpos
  rpos : t.rpos = s.rpos
  fill : t.fill = s.fill
  phase : t.phase = s.phase
  accepted : t.accepted = s.accepted
  desc : t.desc = s.desc
  lcdOut : t.lcdOut = s.lcdOut
  faults : t.faults = s.faults
  sys : t.sys = s.sys
  sysError : t.sysError = s.sysError
  host : t.host = s.host

theorem SameButFrames.refl (s : State) : SameButFrames s s := by constructor <;> rfl

theorem SameButFrames.trans {s t u : State} (h : SameButFrames s t) (h' : SameButFrames t u) : SameButFrames s u := by
  constructor
  · rw [h'.cfg, h.cfg]
  · rw [h'.cs, h.cs]
  · rw [h'.depth, h.depth]
  · rw [h'.result, h.result]
  · rw [h'.rst, h.rst]
  · rw [h'.storage, h.storage]
  · rw [h'.wpos, h.wpos]
  · rw [h'.rpos, h.rpos]
  · rw [h'.fill, h.fill]
  · rw [h'.phase, h.phase]
  · rw [h'.accepted, h.accepted]
  · rw [h'.desc, h.desc]
  · rw [h'.lcdOut, h.lcdOut]
  · rw [h'.faults, h.faults]
  · rw [h'.sys, h.sys]
  · rw [h'.sysError, h.sysError]
  · rw [h'.host, h.host]

theorem emitFrame_frame (cd : Level) (b : Byte) (s : State) : SameButFrames s (emitFrame cd b s).2 := by
  rw [emitFrame]
  split
  · rw [frameBB_eq]; constructor <;> rfl
  · rw [frameHW]; split <;> constructor <;> rfl

theorem sendData_frame (bytes : List Byte) (s : State) : SameButFrames s (sendData bytes s).2 := by
  induction bytes generalizing s with
  | nil => exact .refl s
  | cons b bytes ih =>
    have hf := emitFrame_frame true b s
    rw [sendData]
    split
    · next t h => rw [h] at hf; exact hf.trans (ih t)
    · next e t h => rw [h] at hf; exact hf

end Sys2Proof.Machine
end

