-- ==== Sys2Proof/Laws/Step.lean ====
section
/-! SUPPORT. What a step can do, said once: the agent that steps, what a host command can do, what a DMA step can do. -/

namespace Sys2Proof.Machine

open Sys2Proof

/-! Operations. -/

/-- Every operation answers a next state: faults are recorded in it. -/
theorem exec_next (i : Instr) (s : State) : ∃ t, exec i s = .next t := by
  cases i with
  | stBegin => exact ⟨_, rfl⟩
  | stEnd => simp only [exec, execStEnd]; split <;> exact ⟨_, rfl⟩
  | stCmd b => exact ⟨_, rfl⟩
  | stData bytes => exact ⟨_, rfl⟩
  | rbPush bytes => simp only [exec, execRbPush]; split <;> exact ⟨_, rfl⟩
  | txStart => simp only [exec, execTxStart]; split <;> exact ⟨_, rfl⟩
  | txPush bytes => simp only [exec, execTxPush]; split <;> exact ⟨_, rfl⟩
  | rstSet v => exact ⟨_, rfl⟩
  | delayUs us => exact ⟨_, rfl⟩

theorem issueOp_ok {op : Op} {i : Instr} (h : decode op = .ok i) (s : State) : issueOp op s = exec i s := by
  simp [issueOp, h]

theorem issueOp_error {op : Op} {r : Reject} (h : decode op = .error r) (s : State) :
    issueOp op s = .next (s.raiseOp .illegalOperation op.word) := by simp [issueOp, h]

/-- Issuing an operation executes what it decodes to, or raises ILLEGAL_OPERATION. -/
theorem issueOp_cases {op : Op} {s t : State} (h : issueOp op s = .next t) :
    (∃ i, decode op = .ok i ∧ exec i s = .next t) ∨
      (∃ r, decode op = .error r ∧ t = s.raiseOp .illegalOperation op.word) := by
  cases hd : decode op with
  | ok i => exact .inl ⟨i, rfl, by rwa [issueOp_ok hd] at h⟩
  | error r => rw [issueOp_error hd] at h; exact .inr ⟨r, rfl, by injection h with h; exact h.symm⟩

/-- An operation records no fault, or it records one with its own word and changes nothing else. -/
theorem exec_faults {i : Instr} {s t : State} (h : exec i s = .next t) :
    t.faults = s.faults ∨ ∃ code, t = s.raiseOp code i.word := by
  cases i with
  | stBegin => injection h with h; rw [← h, sessionOpen_eq]; exact .inl rfl
  | stEnd =>
    simp only [exec, execStEnd] at h
    split at h <;> injection h with h <;> rw [← h]
    · exact .inr ⟨_, rfl⟩
    · rw [sessionClose_eq]; exact .inl rfl
  | stCmd b =>
    injection h with h
    have := (emitFrame_frame false b (sessionOpen s)).faults
    rw [← h, sessionClose_eq]
    exact .inl (this.trans (by rw [sessionOpen_eq]))
  | stData bytes =>
    injection h with h
    have := (sendData_frame bytes (sessionOpen s)).faults
    rw [← h, sessionClose_eq]
    exact .inl (this.trans (by rw [sessionOpen_eq]))
  | rbPush bytes =>
    simp only [exec, execRbPush] at h
    split at h <;> injection h with h <;> rw [← h]
    · exact .inr ⟨_, rfl⟩
    · exact .inl rfl
  | txStart =>
    simp only [exec, execTxStart] at h
    split at h <;> injection h with h <;> rw [← h]
    · exact .inr ⟨_, rfl⟩
    · exact .inl rfl
  | txPush bytes =>
    simp only [exec, execTxPush] at h
    split at h <;> injection h with h <;> rw [← h]
    · exact .inr ⟨_, rfl⟩
    · exact .inl rfl
  | rstSet v => injection h with h; rw [← h]; exact .inl rfl
  | delayUs us => injection h with h; rw [← h]; exact .inl rfl

/-! Host commands. -/

/-- Only the host's own state differs: its system state, its last error and its control. -/
def HostOnly (s t : State) : Prop := t = { s with sys := t.sys, sysError := t.sysError, host := t.host }

theorem HostOnly.refl (s : State) : HostOnly s s := rfl

theorem thenHost_cases {o : Host.Outcome State Fault Refusal} {f : State → State} {t : State}
    (h : thenHost o f = .next t) :
    ∃ u, o = .next u ∧ ((u.faults = [] ∧ t = f u) ∨ (u.faults ≠ [] ∧ t = u)) := by
  cases o with
  | next u =>
    refine ⟨u, rfl, ?_⟩
    simp only [thenHost] at h
    split at h
    · next hu => injection h with h; exact .inl ⟨hu, h.symm⟩
    · next hu => injection h with h; exact .inr ⟨hu, h.symm⟩
  | fault r => simp [thenHost] at h
  | refused r => simp [thenHost] at h

theorem HostOnly.thenHost {o : Host.Outcome State Fault Refusal} {f : State → State} {t : State}
    (h : Machine.thenHost o f = .next t) (hf : ∀ u, HostOnly u (f u)) : ∃ u, o = .next u ∧ HostOnly u t := by
  obtain ⟨u, ho, ⟨-, rfl⟩ | ⟨-, rfl⟩⟩ := thenHost_cases h
  · exact ⟨u, ho, hf u⟩
  · exact ⟨_, ho, .refl _⟩

/-- A host command issues the operation that `HostCmd.issued` names, if any, and beyond that changes only the host's own
state. -/
theorem hostCmd_cases {c : HostCmd} {s t : State} (h : hostCmd c s = .next t) :
    (∃ op u, c.issued s = some op ∧ issueOp op s = .next u ∧ HostOnly u t) ∨ (c.issued s = none ∧ HostOnly s t) := by
  cases c with
  | issue op => exact .inl ⟨op, t, rfl, h, .refl t⟩
  | whileAsserted body => injection h with h; exact .inr ⟨rfl, by rw [← h]; rfl⟩
  | resetPulse => injection h with h; exact .inr ⟨rfl, by rw [← h]; rfl⟩
  | init =>
    simp only [hostCmd, hostInit] at h
    split at h
    · injection h with h; exact .inr ⟨rfl, by rw [← h]; rfl⟩
    · cases h
  | prefill p =>
    simp only [hostCmd, hostPrefill] at h
    split at h
    · cases h
    · injection h with h; exact .inr ⟨rfl, by rw [← h]; rfl⟩
  | start =>
    simp only [hostCmd, hostStart] at h
    split at h
    · obtain ⟨u, ho, hu⟩ := HostOnly.thenHost h (fun u => rfl)
      exact .inl ⟨_, u, rfl, ho, hu⟩
    · cases h
  | stream p off =>
    simp only [hostCmd, hostStream] at h
    split at h
    · cases h
    · injection h with h; exact .inr ⟨rfl, by rw [← h]; rfl⟩
  | boot p => injection h with h; exact .inr ⟨rfl, by rw [← h]; rfl⟩
  | initEntry rest =>
    cases rest with
    | nil => injection h with h; exact .inr ⟨rfl, by rw [← h]; rfl⟩
    | cons e rest =>
      simp only [hostCmd, hostInitEntry] at h
      obtain ⟨u, ho, hu⟩ := HostOnly.thenHost h (fun u => rfl)
      exact .inl ⟨_, u, rfl, ho, hu⟩
  | initCmd op ps rest =>
    obtain ⟨u, ho, hu⟩ := HostOnly.thenHost h (fun u => rfl)
    exact .inl ⟨_, u, rfl, ho, hu⟩
  | initData op ps rest =>
    obtain ⟨u, ho, hu⟩ := HostOnly.thenHost h (fun u => rfl)
    exact .inl ⟨_, u, rfl, ho, hu⟩
  | initEnd op rest =>
    obtain ⟨u, ho, hu⟩ := HostOnly.thenHost h (fun u => by rw [afterEntry]; split <;> rfl)
    exact .inl ⟨_, u, rfl, ho, hu⟩
  | prefillLoop p =>
    obtain ⟨u, ho, hu⟩ := HostOnly.thenHost h (fun u => by split <;> rfl)
    exact .inl ⟨_, u, rfl, ho, hu⟩
  | streamLoop p =>
    obtain ⟨u, ho, hu⟩ := HostOnly.thenHost h (fun u => rfl)
    exact .inl ⟨_, u, rfl, ho, hu⟩
  | bootContinue p =>
    simp only [hostCmd, hostBootContinue] at h
    split at h
    · injection h with h; exact .inr ⟨rfl, by rw [← h]; rfl⟩
    · injection h with h; exact .inr ⟨rfl, by rw [← h]; rfl⟩

/-! The DMA step. -/

/-- A DMA step either underruns, or it consumes one descriptor whose bytes are all there. -/
theorem dmaStep_cases (s : State) :
    dmaStep s = dmaUnderrun s ∨
      ∃ bytes next, s.cfg.ringS ≤ s.fill ∧ s.readDescriptor (s.rpos / s.cfg.ringS) = some (bytes, next) ∧
        dmaStep s = { s with lcdOut := s.lcdOut ++ bytes, rpos := next, fill := s.fill - s.cfg.ringS } := by
  unfold dmaStep
  split
  · exact .inl rfl
  · next hf =>
    split
    · exact .inl rfl
    · next bytes next h => exact .inr ⟨bytes, next, by omega, h, rfl⟩

theorem chain_length (n size : Nat) : (Descriptor.chain n size).length = n := by simp [Descriptor.chain]

theorem chain_get {n size i : Nat} (h : i < n) : (Descriptor.chain n size)[i]? = some ⟨i * size, size, (i + 1) % n⟩ := by
  simp [Descriptor.chain, List.getElem?_range h]

theorem ringOk_iff (c : Config) : c.ringOk = true ↔ 1 ≤ c.ringN ∧ 1 ≤ c.ringS ∧ c.ringC = c.ringN * c.ringS := by
  simp [Config.ringOk, and_assoc]

/-- The constructed machine's configuration is well-formed whatever its parameters are (log 2). -/
theorem machine_ringOk : Config.machine.ringOk = true := by
  rw [ringOk_iff]; simp [Config.machine]

/-- Reset is the construction of the machine's configuration (42_ring_buffer.md R150). -/
theorem reset_is_construction :
    State.construct Config.machine Config.sdaReset Config.rstReset = State.reset := by
  rw [State.construct, if_pos machine_ringOk, State.reset]

/-- Under the ring's invariant a full descriptor is read whole, and the chain goes on where R170 says. -/
theorem RingInv.readDescriptor {s : State} (h : RingInv s) (hf : s.cfg.ringS ≤ s.fill) :
    s.readDescriptor (s.rpos / s.cfg.ringS) =
      some (Memory.ringBytes s.storage s.cfg.ringC s.rpos s.cfg.ringS, (s.rpos + s.cfg.ringS) % s.cfg.ringC) := by
  obtain ⟨hN, hS, hC⟩ := (ringOk_iff _).1 h.config
  have hpos := h.rpos_lt
  have hal : s.rpos / s.cfg.ringS * s.cfg.ringS = s.rpos := Nat.div_mul_cancel (Nat.dvd_of_mod_eq_zero h.rpos_aligned)
  have hi : s.rpos / s.cfg.ringS < s.cfg.ringN := by
    apply Nat.lt_of_mul_lt_mul_right (a := s.cfg.ringS); rw [hal, ← hC]; exact hpos
  have hfit : s.rpos + s.cfg.ringS ≤ s.cfg.ringC := by
    have := Nat.mul_le_mul_right s.cfg.ringS (Nat.succ_le_of_lt hi)
    rw [Nat.succ_mul, hal, ← hC] at this; exact this
  have hnext : (s.rpos / s.cfg.ringS + 1) % s.cfg.ringN * s.cfg.ringS = (s.rpos + s.cfg.ringS) % s.cfg.ringC := by
    rw [hC, ← Nat.mul_mod_mul_right, Nat.add_mul, hal, Nat.one_mul]
  have hread := Memory.readCells_of_valued (m := s.storage) _ _ hfit fun j hj => h.valued j (by omega)
  simp only [State.readDescriptor, h.chain, chain_get hi, chain_get (Nat.mod_lt _ hN), hal, hread, hnext]

/-- Under the ring's invariant a DMA step with a full descriptor is R170's: S bytes out, the cursor S further. -/
theorem RingInv.dmaStep_consumes {s : State} (h : RingInv s) (hf : s.cfg.ringS ≤ s.fill) :
    dmaStep s =
      { s with
        lcdOut := s.lcdOut ++ Memory.ringBytes s.storage s.cfg.ringC s.rpos s.cfg.ringS
        rpos := (s.rpos + s.cfg.ringS) % s.cfg.ringC
        fill := s.fill - s.cfg.ringS } := by
  simp only [dmaStep, if_neg (Nat.not_lt.2 hf), h.readDescriptor hf]

theorem dmaStep_underruns {s : State} (hf : s.fill < s.cfg.ringS) : dmaStep s = dmaUnderrun s := by
  simp [dmaStep, hf]

/-! Steps. -/

theorem step_faulted {s : State} {r : FaultRecord} {rs : List FaultRecord} (h : s.faults = r :: rs) :
    step s = .fault (.stopped r) := by simp [step, h]

/-- Which agent has taken a step that answered a next state. -/
theorem step_cases {s t : State} (h : step s = .next t) :
    s.faults = [] ∧
      ((s.phase = .owned ∧ hostStep s = .next t) ∨
        (s.phase = .shared ∧ s.host.todo = [] ∧ t = dmaStep s) ∨
        (s.phase = .shared ∧ s.host.todo ≠ [] ∧ s.drawnAgent = .host ∧ hostStep s.takeChoice = .next t) ∨
        (s.phase = .shared ∧ s.host.todo ≠ [] ∧ s.drawnAgent = .dma ∧ t = dmaStep s.takeChoice)) := by
  cases hfa : s.faults with
  | cons r rs => rw [step_faulted hfa] at h; cases h
  | nil =>
    refine ⟨rfl, ?_⟩
    simp only [step, hfa, agentStep] at h
    cases hp : s.phase with
    | owned => rw [hp] at h; exact .inl ⟨rfl, h⟩
    | shared =>
      rw [hp] at h
      cases ht : s.host.todo with
      | nil =>
        simp only [ht] at h
        injection h with h
        exact .inr (.inl ⟨rfl, rfl, h.symm⟩)
      | cons c rest =>
        simp only [ht] at h
        cases ha : s.drawnAgent with
        | host => rw [ha] at h; exact .inr (.inr (.inl ⟨rfl, by simp, rfl, h⟩))
        | dma =>
          rw [ha] at h
          injection h with h
          exact .inr (.inr (.inr ⟨rfl, by simp, rfl, h.symm⟩))

/-- A host step runs the first command on what is left of the list, or waits. -/
theorem hostStep_cases {s t : State} (h : hostStep s = .next t) :
    (s.host.todo = [] ∧ t = s) ∨ ∃ c rest, s.host.todo = c :: rest ∧ hostCmd c s.popTodo = .next t := by
  cases ht : s.host.todo with
  | nil => simp only [hostStep, ht] at h; injection h with h; exact .inl ⟨rfl, h.symm⟩
  | cons c rest => simp only [hostStep, ht] at h; exact .inr ⟨c, rest, rfl, h⟩

/-- A step keeps whatever the operations, an illegal operation, the host's own changes, a schedule choice and the DMA step
keep. -/
theorem step_keeps {P : State → Prop} (hexec : ∀ i s t, P s → exec i s = .next t → P t)
    (hillegal : ∀ s w, P s → P (s.raiseOp .illegalOperation w)) (hhost : ∀ s t, HostOnly s t → P s → P t)
    (hchoice : ∀ s, P s → P s.takeChoice) (hdma : ∀ s, s.phase = .shared → P s → P (dmaStep s)) {s t : State} (hP : P s)
    (h : step s = .next t) : P t := by
  have hcmd : ∀ {c s t}, P s → hostCmd c s = .next t → P t := by
    intro c s t hP h
    rcases hostCmd_cases h with ⟨op, u, -, ho, hu⟩ | ⟨-, hu⟩
    · refine hhost _ _ hu ?_
      rcases issueOp_cases ho with ⟨i, -, h⟩ | ⟨r, -, rfl⟩
      · exact hexec _ _ _ hP h
      · exact hillegal _ _ hP
    · exact hhost _ _ hu hP
  have hstep : ∀ {s t}, P s → hostStep s = .next t → P t := by
    intro s t hP h
    rcases hostStep_cases h with ⟨-, rfl⟩ | ⟨c, rest, -, h⟩
    · exact hP
    · exact hcmd (hhost _ _ (show HostOnly s s.popTodo from rfl) hP) h
  obtain ⟨-, h⟩ := step_cases h
  rcases h with ⟨_, h⟩ | ⟨hp, _, rfl⟩ | ⟨_, _, _, h⟩ | ⟨hp, _, _, rfl⟩
  · exact hstep hP h
  · exact hdma _ hp hP
  · exact hstep (hchoice _ hP) h
  · exact hdma _ hp (hchoice _ hP)

/-! The host's turns. -/

theorem hostTakes_owned {n : Nat} {s : State} (h : s.phase = .owned) : HostTakes n s := by
  intro h'; rw [h] at h'; cases h'

theorem HostTakes.mono {m n : Nat} {s : State} (h : HostTakes n s) (hm : m ≤ n) : HostTakes m s :=
  fun hp => Nat.le_trans hm (h hp)

theorem hostTakes_shared {n : Nat} {s : State} (h : n ≤ s.draws.gap) : HostTakes n s := fun _ => h

/-- Where the host takes the next step and has something to do, the step is its first command on what is left of the
list. -/
theorem step_host {s : State} {c : HostCmd} {rest : List HostCmd} (hf : s.faults = []) (hh : HostTakes 1 s)
    (ht : s.host.todo = c :: rest) : step s = hostCmd c ((s.afterTurns 1).withTodo rest) := by
  cases hp : s.phase with
  | owned =>
    rw [State.afterTurns_owned 1 hp]
    simp only [step, hf, agentStep, hp, hostStep, ht, State.popTodo, List.drop_succ_cons, List.drop_zero, State.withTodo]
  | shared =>
    have ha : s.drawnAgent = .host := State.drawnAgent_host_iff.2 (hh hp)
    rw [State.afterTurns_shared 1 hp]
    simp only [step, hf, agentStep, hp, ht, ha, hostStep, State.takeChoice, State.popTodo, List.drop_succ_cons,
      List.drop_zero, State.withTodo, Draws.takeChoices]

/-- Taking `m` turns and then `n` is taking `m + n`. -/
theorem Draws.takeChoices_add (m n : Nat) : ∀ d : Draws, d.takeChoices (m + n) = (d.takeChoices m).takeChoices n := by
  induction m with
  | zero => intro d; rw [Nat.zero_add, Draws.takeChoices]
  | succ m ih => intro d; rw [Nat.succ_add, Draws.takeChoices, Draws.takeChoices, ih]

/-- The bus part of the draws and the schedule's do not touch each other. -/
theorem Draws.takeBus_takeChoices (d : Draws) (k : Nat) (n : Nat) :
    (d.takeBus k).takeChoices n = (d.takeChoices n).takeBus k := by
  induction n generalizing d with
  | zero => rfl
  | succ n ih =>
    have h : (d.takeBus k).takeChoice = d.takeChoice.takeBus k := by
      cases hg : d.gap with
      | zero => rw [Draws.takeChoice_dma hg, Draws.takeChoice_dma (d := d.takeBus k) hg]; rfl
      | succ g => rw [Draws.takeChoice_host hg, Draws.takeChoice_host (d := d.takeBus k) hg]; rfl
    rw [Draws.takeChoices, Draws.takeChoices, h, ih]

/-- Where the schedule leaves the host its next `n + 1` choices, it leaves it `n` after a step that used up one of them and
left phase and schedule alone. -/
theorem HostTakes.after {n : Nat} {s t : State} (h : HostTakes (n + 1) s) (hp : t.phase = s.phase)
    (hd : t.draws.gap = (s.afterTurns 1).draws.gap) : HostTakes n t := by
  intro ht
  have hs : s.phase = .shared := hp ▸ ht
  have hg := h hs
  rw [hd, State.afterTurns_shared 1 hs]
  simp only [Draws.takeChoices_gap (Nat.le_trans (Nat.le_add_left 1 n) hg)]
  omega

/-! Runs. -/

@[simp] theorem run_zero (s : State) : run 0 s = .next s := rfl

theorem run_succ {s t : State} (n : Nat) (h : step s = .next t) : run (n + 1) s = run n t := by
  simp only [run, Host.Core.run]
  rw [show core.step s = .next t from h]

theorem run_succ_cases {n : Nat} {s u : State} (h : run (n + 1) s = .next u) :
    ∃ t, step s = .next t ∧ run n t = .next u := by
  cases ht : step s with
  | next t => exact ⟨t, rfl, by rwa [run_succ n ht] at h⟩
  | fault r => simp only [run, Host.Core.run] at h; rw [show core.step s = .fault r from ht] at h; cases h
  | refused r => simp only [run, Host.Core.run] at h; rw [show core.step s = .refused r from ht] at h; cases h

/-- A run goes on where another ended. -/
theorem run_add {m n : Nat} {s t : State} (h : run m s = .next t) : run (m + n) s = run n t := by
  induction m generalizing s with
  | zero => injection h with h; rw [h, Nat.zero_add]
  | succ m ih =>
    obtain ⟨u, hs, hu⟩ := run_succ_cases h
    rw [Nat.succ_add, run_succ _ hs, ih hu]

end Sys2Proof.Machine
end

