-- ==== Sys2Proof/Laws/Trace.lean ====
section
/-! SUPPORT. What slots, frames and session brackets do to a trace's minimum time, to the panel's view and to the timing
monitor. -/

namespace Sys2Proof.Machine

open Sys2Proof

/-! Minimum time. -/

namespace Trace

theorem minTime_append (t u : List Event) : minTime (t ++ u) = minTime t + minTime u := by
  induction t with
  | nil => simp [minTime]
  | cons e t ih => simp [minTime, ih, Nat.add_assoc]

theorem minTime_frame (cfg : Config) (cd : Level) (b : Byte) :
    minTime (frame cfg cd b) = 18 * cfg.tBit + cfg.tByte := by
  simp only [frame, slots, frameBits, slot, List.flatMap_cons, List.flatMap_nil, minTime_append, minTime, eventTime]
  omega

theorem minTime_frames (cfg : Config) (cd : Level) (bytes : List Byte) :
    minTime (bytes.flatMap (frame cfg cd)) = bytes.length * (18 * cfg.tBit + cfg.tByte) := by
  induction bytes with
  | nil => simp [minTime]
  | cons b bytes ih =>
    rw [List.flatMap_cons, minTime_append, ih, minTime_frame, List.length_cons, Nat.add_mul, Nat.one_mul, Nat.add_comm]

theorem minTime_session (cfg : Config) (d : Nat) (body : List Event) :
    minTime (session cfg d body) = (if d = 0 then cfg.tCsLead + cfg.tCsLag else 0) + minTime body := by
  unfold session
  split
  · simp only [openEvents, closeEvents, minTime_append, minTime, eventTime]; omega
  · simp

theorem minTime_settle (cfg : Config) (op : Byte) :
    minTime (settleTrace cfg op) =
      (if op = cfg.sleepOutOpcode then 100000000 else 0) + if op = cfg.displayOnOpcode then 50000000 else 0 := by
  unfold settleTrace
  generalize 100000000 = x
  generalize 50000000 = y
  split <;> split <;> simp [minTime, eventTime]

end Trace

/-! The panel's view. -/

namespace Panel

theorem view_append (p : View) (t u : List Event) : view p (t ++ u) = view (view p t) u := by simp [view]

theorem received_append (t u : List Event) : received (t ++ u) = (view (view View.init t) u).out := by
  rw [received, view_append]

/-- Nine slots inside a session, from between two frames: one frame received. -/
theorem view_nine_slots (cfg : Config) (v8 v7 v6 v5 v4 v3 v2 v1 v0 : Level) {p : View} (hcs : p.cs = false)
    (hbits : p.bits = []) :
    view p (Trace.slots cfg [v8, v7, v6, v5, v4, v3, v2, v1, v0]) =
      { p with
        scl := true
        sda := some v0
        out := p.out ++ [.frame v8 (byteOf [v7, v6, v5, v4, v3, v2, v1, v0])] } := by
  simp [view, Trace.slots, Trace.slot, View.next, View.clock, View.sample, hcs, hbits]

theorem byteOf_frameBits (cd : Level) (b : Byte) : byteOf (frameBits (frameWord cd b)).tail = b := by
  cases cd <;> revert b <;> decide

/-- A frame inside a session, received whole (40_serial_transport.md R140, R141). -/
theorem view_frame (cfg : Config) (cd : Level) (b : Byte) {p : View} (hcs : p.cs = false) (hbits : p.bits = []) :
    view p (Trace.frame cfg cd b) =
      { p with scl := true, sda := some (b.getLsbD 0), out := p.out ++ [.frame cd b] } := by
  have hbyte := byteOf_frameBits cd b
  have hcd := frameWord_control cd b
  have h0 := frameWord_zero cd b
  rw [frameBits, List.tail_cons] at hbyte
  rw [Trace.frame, view_append, frameBits, view_nine_slots cfg _ _ _ _ _ _ _ _ _ hcs hbits, hbyte, hcd, h0]
  rfl

theorem view_frames (cfg : Config) (cd : Level) (bytes : List Byte) {p : View} (hcs : p.cs = false) (hscl : p.scl = true)
    (hbits : p.bits = []) :
    ∃ sda, view p (bytes.flatMap (Trace.frame cfg cd)) =
      { p with sda := sda, out := p.out ++ bytes.map (.frame cd) } := by
  induction bytes generalizing p with
  | nil => exact ⟨p.sda, by simp [view]⟩
  | cons b bytes ih =>
    rw [List.flatMap_cons, view_append, view_frame cfg cd b hcs hbits]
    obtain ⟨sda, h⟩ := ih (p := { p with scl := true, sda := some (b.getLsbD 0), out := p.out ++ [.frame cd b] })
      hcs rfl hbits
    exact ⟨sda, by rw [h]; simp [hscl]⟩

theorem view_open (cfg : Config) {p : View} (hcs : p.cs = true) :
    view p (Trace.openEvents cfg) = { p with cs := false, bits := [], out := p.out ++ [.select] } := by
  simp [view, Trace.openEvents, View.next, View.select, hcs]

theorem view_close (cfg : Config) {p : View} (hcs : p.cs = false) (hbits : p.bits = []) :
    view p (Trace.closeEvents cfg) = { p with cs := true, bits := [], out := p.out ++ [.deselect] } := by
  simp [view, Trace.closeEvents, View.next, View.select, hcs, hbits]

/-- HW words only add to what the panel receives. -/
theorem view_hwWords (ws : List FrameWord) (p : View) :
    view p (ws.map .hwWord) = { p with out := p.out ++ ws.map fun w => .frame (w.getLsbD 8) (w.setWidth 8) } := by
  induction ws generalizing p with
  | nil => simp [view]
  | cons w ws ih =>
    rw [List.map_cons, show Event.hwWord w :: ws.map .hwWord = [.hwWord w] ++ ws.map .hwWord from rfl, view_append, ih,
      List.map_cons]
    simp only [view, List.foldl_cons, List.foldl_nil, View.next, List.append_assoc, List.singleton_append]

end Panel

/-! The timing monitor. -/

namespace Trace

theorem monitor_append (cfg : Config) (m : Monitor) (t u : List Event) :
    monitor cfg m (t ++ u) = monitor cfg (monitor cfg m t) u := by simp [monitor]

theorem atLeast_some (d t : Nat) : atLeast d (some t) = decide (d ≤ t) := rfl

theorem atLeast_add {d n : Nat} {t : Option Nat} (h : d ≤ n) : atLeast d (t.map (· + n)) = true := by
  cases t <;> simp [atLeast]; omega

theorem atLeast_later {d : Nat} (n : Nat) {t : Option Nat} (h : atLeast d t = true) :
    atLeast d (t.map (· + n)) = true := by
  cases t <;> simp_all [atLeast]; omega

/-- The monitor is ready for a clock period: everything met so far, inside a session whose lead time has passed, the last
clock event and rising edge `T_BIT` ago. -/
structure Monitor.Ready (cfg : Config) (m : Monitor) : Prop where
  ok : m.ok = true
  cs : m.cs = false
  scl : m.scl = true
  since_scl : atLeast cfg.tBit m.sinceScl = true
  since_rise : atLeast cfg.tBit m.sinceRise = true
  since_select : atLeast cfg.tCsLead m.sinceSelect = true

theorem Monitor.Ready.slot {cfg : Config} {m : Monitor} (h : m.Ready cfg) (v : Level) :
    (monitor cfg m (Trace.slot cfg v)).Ready cfg := by
  obtain ⟨hok, hcs, hscl, h1, h2, h3⟩ := h
  obtain ⟨cs, scl, s1, s2, s3, s4, ok⟩ := m
  simp only at hok hcs hscl h1 h2 h3
  subst hok hcs hscl
  have h4 : atLeast cfg.tCsLead (s4.map (· + cfg.tBit)) = true := atLeast_later _ h3
  have h5 : atLeast cfg.tCsLead ((s4.map (· + cfg.tBit)).map (· + cfg.tBit)) = true := atLeast_later _ h4
  constructor <;> simp_all [monitor, Trace.slot, Monitor.next, atLeast_some]

theorem Monitor.Ready.wait {cfg : Config} {m : Monitor} (h : m.Ready cfg) (ns : Nat) :
    (m.next cfg (.wait ns)).Ready cfg :=
  ⟨h.ok, h.cs, h.scl, atLeast_later _ h.since_scl, atLeast_later _ h.since_rise, atLeast_later _ h.since_select⟩

theorem Monitor.Ready.slots {cfg : Config} (vs : List Level) {m : Monitor} (h : m.Ready cfg) :
    (monitor cfg m (Trace.slots cfg vs)).Ready cfg := by
  induction vs generalizing m with
  | nil => exact h
  | cons v vs ih =>
    rw [Trace.slots, List.flatMap_cons, monitor_append]
    exact ih (h.slot v)

theorem Monitor.Ready.frame {cfg : Config} {m : Monitor} (h : m.Ready cfg) (cd : Level) (b : Byte) :
    (monitor cfg m (Trace.frame cfg cd b)).Ready cfg := by
  rw [Trace.frame, monitor_append]
  exact (h.slots _).wait _

theorem Monitor.Ready.frames {cfg : Config} (cd : Level) (bytes : List Byte) {m : Monitor} (h : m.Ready cfg) :
    (monitor cfg m (bytes.flatMap (Trace.frame cfg cd))).Ready cfg := by
  induction bytes generalizing m with
  | nil => exact h
  | cons b bytes ih =>
    rw [List.flatMap_cons, monitor_append]
    exact ih (h.frame cd b)

end Trace

end Sys2Proof.Machine
end

