-- ==== Sys2Proof/Tests/Slice0.lean ====
section
/-! SUPPORT. Small tests with expected results from spec/95_test_vectors.md, the well-formedness smoke tests, and for
every obligation with hypotheses a witness that meets them. -/

namespace Sys2Proof.Tests

open Sys2Proof Sys2Proof.Machine

/-! Small states: C = 8, N = 2, S = 4 (95_test_vectors.md, conventions) and the example parameters of V23 and V42. -/

def cfg (k : Kind) : Config where
  kind := k
  ringC := 8
  ringN := 2
  ringS := 4
  tBit := 20
  tByte := 0
  tCsLead := 1000000
  tCsLag := 1000000
  sleepOutOpcode := 0x11#8
  displayOnOpcode := 0x29#8
  initTable := [(0x11#8, []), (0x3A#8, [0x55#8]), (0x29#8, [])]
  hwWireOrder := [8, 7, 6, 5, 4, 3, 2, 1, 0]

def start (k : Kind) : State := State.fresh (cfg k) false false

/-- The coming HW frames' outcomes. -/
def hw (bus : List (Option Err)) : State :=
  { start .hw with draws := { (start .hw).draws with bus := bus } }

def err : Err := ⟨0, .inl rfl⟩

/-- Storage `[1..8]`, all of it pending. -/
def full : State :=
  { start .bb with
    storage := [(0, 1#8), (1, 2#8), (2, 3#8), (3, 4#8), (4, 5#8), (5, 6#8), (6, 7#8), (7, 8#8)]
    fill := 8
    phase := .shared }

/-- V32 row 4: one byte pending at descriptor 1, the drawn bytes known. -/
def low : State :=
  { start .bb with
    storage := [(0, 1#8), (1, 2#8), (2, 3#8), (3, 4#8), (4, 5#8)]
    wpos := 5
    rpos := 4
    fill := 1
    phase := .shared
    lcdOut := [1#8, 2#8, 3#8, 4#8]
    draws := { (start .bb).draws with underrun := [0xE0#8, 0xE1#8, 0xE2#8, 0xE3#8] } }

/-- A session open under BB. -/
def inside (d : Nat) : State :=
  { start .bb with cs := false, depth := d, wire := Trace.openEvents (cfg .bb) }

/-- The numbers of host choices before the DMA agent's coming ones. -/
def sched (l : List Nat) (s : State) : State := { s with draws := { s.draws with sched := l } }

/-- The state a step ended in, if it did. -/
def next (o : Host.Outcome State Fault Refusal) : Option State :=
  match o with
  | .next t => some t
  | .fault _ => none
  | .refused _ => none

/-! Well-formedness: a payload too long for its length field is refused. -/

theorem test_wf_stData_too_long : (Instr.stData (List.replicate maxPayload 0#8)).wf = false := by
  rw [Instr.wf, List.length_replicate]; exact decide_eq_false (Nat.lt_irrefl _)

theorem test_wf_rbPush_too_long : (Instr.rbPush (List.replicate maxPayload 0#8)).wf = false := by
  rw [Instr.wf, List.length_replicate]; exact decide_eq_false (Nat.lt_irrefl _)

theorem test_wf_txPush_too_long : (Instr.txPush (List.replicate maxPayload 0#8)).wf = false := by
  rw [Instr.wf, List.length_replicate]; exact decide_eq_false (Nat.lt_irrefl _)

theorem test_wf_longest : (Instr.stData (List.replicate (maxPayload - 1) 0#8)).wf = true := by
  rw [Instr.wf, List.length_replicate]; exact decide_eq_true (Nat.sub_lt (Nat.two_pow_pos 24) Nat.one_pos)

/-! Decoding: V10, each word written out from the encoding tables. -/

theorem test_decode_stBegin : decode ⟨0b00000001_000000000000000000000000#32, []⟩ = .ok .stBegin := by decide

theorem test_decode_stEnd : decode ⟨0b00000010_000000000000000000000000#32, []⟩ = .ok .stEnd := by decide

theorem test_decode_stCmd : decode ⟨0b00000011_0000000000000000_00010001#32, []⟩ = .ok (.stCmd 0x11#8) := by decide

theorem test_decode_stData : decode ⟨0b00000100_000000000000000000000001#32, [0xAA#8]⟩ = .ok (.stData [0xAA#8]) := by
  decide

theorem test_decode_rbPush :
    decode ⟨0b00000101_000000000000000000000011#32, [1#8, 2#8, 3#8]⟩ = .ok (.rbPush [1#8, 2#8, 3#8]) := by decide

theorem test_decode_txStart : decode ⟨0b00000110_000000000000000000000000#32, []⟩ = .ok .txStart := by decide

theorem test_decode_txPush : decode ⟨0b00000111_000000000000000000000001#32, [0x07#8]⟩ = .ok (.txPush [0x07#8]) := by
  decide

theorem test_decode_rstSet : decode ⟨0b00001000_00000000000000000000000_1#32, []⟩ = .ok (.rstSet true) := by decide

theorem test_decode_rstSet_low : decode ⟨0x08000000#32, []⟩ = .ok (.rstSet false) := by decide

theorem test_decode_delayUs : decode ⟨0b00001001_000000011000011010100000#32, []⟩ = .ok (.delayUs 100000#24) := by
  decide

theorem test_decode_illegal :
    decode ⟨0x00000000#32, []⟩ = .error .reservedOpcode ∧ decode ⟨0x01000001#32, []⟩ = .error .mustBeZero ∧
    decode ⟨0x03000100#32, []⟩ = .error .mustBeZero ∧ decode ⟨0x04000002#32, [0xAA#8]⟩ = .error .lengthMismatch ∧
    decode ⟨0x06800000#32, []⟩ = .error .mustBeZero ∧ decode ⟨0x08000002#32, []⟩ = .error .mustBeZero ∧
    decode ⟨0x0A000000#32, []⟩ = .error .reservedOpcode ∧ decode ⟨0xFF000000#32, []⟩ = .error .reservedOpcode := by
  decide

/-- The rows of the opcode table are disjoint. -/
theorem test_rows_disjoint : opcodeTable.Pairwise fun r r' => r.value &&& r'.mask ≠ r'.value := by decide

theorem test_tableWord_payload : decodeTableWord 56 0x03020105000003 = some (.rbPush [1#8, 2#8, 3#8]) ∧
    decodeTableWord 32 0x05000003 = some (.rbPush [0#8, 0#8, 0#8]) := by decide

/-! Frame words: V11. -/

theorem test_frameWord :
    frameWord false 0x11#8 = 0x011#9 ∧ frameWord true 0x00#8 = 0x100#9 ∧ frameWord true 0xAA#8 = 0x1AA#9 := by decide

/-! The Serial Transport Unit: V2, V20, V21, V22. -/

theorem test_stBegin : (next (exec .stBegin (start .bb))).map (fun t => (t.depth, t.cs, t.wire)) =
    some (1, false, [.setCs false, .wait 1000000]) := by decide

theorem test_stBegin_nested : (next (exec .stBegin (inside 1))).map (fun t => (t.depth, t.cs, t.wire.length)) =
    some (2, false, 2) := by decide

theorem test_stEnd : (next (exec .stEnd (inside 1))).map (fun t => (t.depth, t.cs, t.wire.drop 2)) =
    some (0, true, [.wait 1000000, .setCs true]) := by decide

theorem test_stEnd_underflow : (next (exec .stEnd (start .hw))).map (fun t => (t.depth, t.wire, t.faults)) =
    some (0, [], [⟨.sessionUnderflow, .opWord 0x02000000#32⟩]) := by decide

theorem test_stCmd_bb : (next (exec (.stCmd 0x11#8) (start .bb))).map (fun t =>
      (t.wire.length, Trace.samples true false t.wire, t.sda, Panel.received t.wire)) =
    some (50, [false, false, false, false, true, false, false, false, true], true,
      [.select, .frame false 0x11#8, .deselect]) := by decide

theorem test_stCmd_hw_fault : (next (exec (.stCmd 0x3A#8) (hw [some err]))).map (fun t =>
      (t.wire, t.result, t.depth)) = some ([.hwFault 0x03A#9], .err err, 0) := by decide

theorem test_stData_bb : (next (exec (.stData [0xAA#8]) (start .bb))).map (fun t =>
      (t.wire.length, Trace.samples true false t.wire, t.sda, t.cs)) =
    some (50, [true, true, false, true, false, true, false, true, false], false, true) := by decide

theorem test_stData_hw_stops : (next (exec (.stData [1#8, 2#8, 3#8]) (hw [none, some err]))).map (fun t =>
      (t.wire, t.result, t.depth)) = some ([.hwWord 0x101#9, .hwFault 0x102#9], .err err, 0) := by decide

/-! The Ring Buffer Manager: V30, V31, V32, V33. -/

theorem test_rbPush_clips : (next (exec (.rbPush [6#8, 7#8, 8#8, 9#8]) { start .bb with wpos := 5, fill := 5 })).map
      (fun t => (t.accepted, t.wpos, t.fill, t.storage)) =
    some (3, 0, 8, [(5, 6#8), (6, 7#8), (7, 8#8)]) := by decide

theorem test_rbPush_consumed : (next (exec (.rbPush [1#8]) full)).map (fun t => (t.storage == full.storage, t.faults)) =
    some (true, [⟨.handleConsumed, .opWord 0x05000001#32⟩]) := by decide

theorem test_txStart : (next (exec .txStart (start .bb))).map (fun t => (t.phase, t.faults)) = some (.shared, []) := by
  decide

theorem test_txStart_consumed : (next (exec .txStart full)).map (fun t => (t.phase, t.faults)) =
    some (.shared, [⟨.handleConsumed, .opWord 0x06000000#32⟩]) := by decide

theorem test_txPush : (next (exec (.txPush [9#8, 10#8, 11#8]) { full with fill := 4, rpos := 4 })).map
      (fun t => (t.accepted, t.wpos, t.fill, t.storage.take 4)) =
    some (3, 3, 7, [(0, 9#8), (1, 10#8), (2, 11#8), (3, 4#8)]) := by decide

theorem test_txPush_noTransfer : (next (exec (.txPush [1#8]) (start .bb))).map (fun t => (t.fill, t.faults)) =
    some (0, [⟨.noTransfer, .opWord 0x07000001#32⟩]) := by decide

theorem test_dmaStep : (dmaStep full).lcdOut = [1#8, 2#8, 3#8, 4#8] ∧ (dmaStep full).rpos = 4 ∧ (dmaStep full).fill = 4 := by
  decide

theorem test_dmaStep_underrun : (dmaStep low).lcdOut.drop 4 = [0xE0#8, 0xE1#8, 0xE2#8, 0xE3#8] ∧ (dmaStep low).rpos = 4 ∧
    (dmaStep low).fill = 1 ∧ (dmaStep low).faults = [⟨.underrun, .descriptorFill 1 1⟩] := by decide

/-! The host: V40, V41, P5. -/

theorem test_rstSet : (next (exec (.rstSet false) (start .bb))).map (fun t => (t.rst, t.wire)) =
    some (false, [.setRst false]) := by decide

theorem test_delayUs : (next (exec (.delayUs 50000#24) (start .bb))).map (·.wire) = some [.wait 50000000] := by decide

theorem test_prefill_third_round :
    (next (step ({ start .bb with fill := 6, wpos := 6 }.withTodo [.prefillLoop [0x0A#8, 0x0B#8, 0x0C#8]]))).map
      (fun t => (t.accepted, t.host.off, t.host.todo.length, t.storage)) =
    some (2, 2, 0, [(6, 0x0A#8), (7, 0x0B#8)]) := by decide

theorem test_faulted_stops : step { start .bb with faults := [⟨.sessionUnderflow, .opWord 0x02000000#32⟩] } =
    .fault (.stopped ⟨.sessionUnderflow, .opWord 0x02000000#32⟩) := rfl

/-! The next step runs a table word's operation. -/

theorem test_fetch : (next (step ((start .bb).withFetchWord 32 0x08000001))).map (fun t => (t.rst, t.host.todo)) =
    some (true, []) := by decide

theorem test_fetch_shared : (next (step (full.withFetchWord 32 0x08000001))).map (fun t => (t.rst, t.lcdOut)) =
    some (true, []) := by decide

/-! Witnesses: every obligation that has hypotheses, with a concrete state and operands that meet all of them, clause by
clause at boundary values. Obligations without hypotheses (WrittenOutWordsDecode, FaultCodeNumbers, FrameWordFields,
ResetValues, the closing equations of RST_SET and DELAY_US) need none. -/

theorem ring_start (k : Kind) : RingInv (start k) := by
  cases k <;> exact ⟨by decide, by decide, by decide, by decide, by decide, by decide, by decide, by decide, by decide, by decide⟩

theorem ring_full : RingInv full :=
  ⟨by decide, by decide, by decide, by decide, by decide, by decide, by decide, by decide, by decide, by decide⟩

theorem ring_low : RingInv low :=
  ⟨by decide, by decide, by decide, by decide, by decide, by decide, by decide, by decide, by decide, by decide⟩

theorem line_start (k : Kind) : LineInv (start k) := by
  cases k <;> exact ⟨by decide, by decide, by decide, by decide⟩

theorem line_inside : LineInv (inside 1) := ⟨by decide, by decide, by decide, by decide⟩

theorem panel_start (k : Kind) : PanelInv (start k) := by
  cases k <;> exact ⟨by decide, by decide, by decide, by decide⟩

theorem panel_inside : PanelInv (inside 1) := ⟨by decide, by decide, by decide, by decide⟩

theorem timing_start (k : Kind) : TimingInv (start k) := by
  cases k <;> exact ⟨by decide, by decide, by decide, by decide, by decide, by decide⟩

theorem timing_inside : TimingInv (inside 1) := ⟨by decide, by decide, by decide, by decide, by decide, by decide⟩

theorem host_running : HostInv ({ start .bb with sys := .configuring }.withTodo [.initEntry []]) :=
  ⟨by decide, by decide⟩

theorem witness_DecodeOfEncode :
    (Instr.stBegin).wf = true ∧ (Instr.stData []).wf = true ∧
      (Instr.stData (List.replicate (maxPayload - 1) 0#8)).wf = true ∧ (Instr.delayUs 0xFFFFFF#24).wf = true :=
  ⟨rfl, by decide, test_wf_longest, rfl⟩

theorem witness_EncodeOfDecode : decode ⟨0x030000FF#32, []⟩ = .ok (.stCmd 0xFF#8) := by decide

theorem witness_DecodeSelectsOperation_words :
    ((0x01000000#32).toNat / 0x1000000 = 0x01 ∧ (0x01000000#32).toNat % 0x1000000 = 0) ∧
    ((0x02000000#32).toNat / 0x1000000 = 0x02 ∧ (0x02000000#32).toNat % 0x1000000 = 0) ∧
    ((0x030000FF#32).toNat / 0x1000000 = 0x03 ∧ (0x030000FF#32).toNat % 0x1000000 < 256) ∧
    (([] : List Byte).length = (0x04000000#32).toNat % 0x1000000 ∧ (0x04000000#32).toNat / 0x1000000 = 0x04) ∧
    ([0#8].length = (0x05000001#32).toNat % 0x1000000 ∧ (0x05000001#32).toNat / 0x1000000 = 0x05) ∧
    ([0#8].length = (0x07000001#32).toNat % 0x1000000 ∧ (0x07000001#32).toNat / 0x1000000 = 0x07) ∧
    ((0x06000000#32).toNat / 0x1000000 = 0x06 ∧ (0x06000000#32).toNat % 0x1000000 = 0) ∧
    ((0x08000001#32).toNat / 0x1000000 = 0x08 ∧ (0x08000001#32).toNat % 0x1000000 < 2) ∧
    (0x09FFFFFF#32).toNat / 0x1000000 = 0x09 := by decide

theorem witness_DecodeSelectsOperation_rows :
    (⟨"ST_CMD", 0x03000000#32, 0xFFFFFF00#32⟩ : OpRow) ∈ opcodeTable ∧
      (0x030000FF#32 : OpWord) &&& 0xFFFFFF00#32 = 0x03000000#32 ∧ ([] : List Byte).length = payloadLength 0x030000FF#32 := by
  decide

/-- The illegal forms of R87 at their boundary words, each with a payload the statement's hypothesis allows; and the
largest legal neighbours. -/
theorem witness_IllegalOperationsExactly :
    ((0x00FFFFFF#32).toNat / 0x1000000 = 0 ∧ 0x0A ≤ (0x0A000000#32).toNat / 0x1000000) ∧
    ((0x01000001#32).toNat / 0x1000000 = 1 ∧ (0x01000001#32).toNat % 0x1000000 ≠ 0) ∧
    ((0x06800000#32).toNat / 0x1000000 = 6 ∧ (0x06800000#32).toNat % 0x1000000 ≠ 0) ∧
    ((0x03000100#32).toNat / 0x1000000 = 3 ∧ (0x03000100#32).toNat % 0x1000000 / 0x100 ≠ 0) ∧
    ((0x08000002#32).toNat / 0x1000000 = 8 ∧ (0x08000002#32).toNat % 0x1000000 / 2 ≠ 0) ∧
    ((0x04000002#32).toNat / 0x1000000 = 4 ∧ [0xAA#8].length ≠ (0x04000002#32).toNat % 0x1000000) ∧
    ((0x030000FF#32).toNat % 0x1000000 / 0x100 = 0 ∧ (0x08000001#32).toNat % 0x1000000 / 2 = 0) := by decide

theorem witness_StepRunsDecodedOperation_owned :
    (start .bb).faults = [] ∧ ((start .bb).withTodo [.issue ⟨0x03000011#32, []⟩]).host.todo =
      .issue ⟨0x03000011#32, []⟩ :: [] ∧ decode ⟨0x03000011#32, []⟩ = .ok (.stCmd 0x11#8) ∧ (start .bb).phase = .owned := by
  decide

theorem witness_StepRunsDecodedOperation_shared :
    (sched [1] (full.withTodo [.issue ⟨0x03000011#32, []⟩])).faults = [] ∧
      (sched [1] (full.withTodo [.issue ⟨0x03000011#32, []⟩])).phase = .shared ∧
      (sched [1] (full.withTodo [.issue ⟨0x03000011#32, []⟩])).drawnAgent = .host := by decide

theorem witness_TableWordRunsNext :
    (start .bb).faults = [] ∧ full.faults = [] ∧ decodeTableWord 32 0x06000000 = some .txStart ∧
      (start .bb).phase = .owned ∧ full.phase = .shared := by decide

theorem witness_FaultedStateStops :
    { full with faults := [⟨.underrun, .descriptorFill 1 1⟩] }.faults ≠ [] ∧
      ∃ t, step ((start .bb).withTodo [.issue ⟨0x00000000#32, []⟩]) = .next t ∧ t.faults ≠ [] :=
  ⟨by decide, _, rfl, by decide⟩

theorem witness_StepRecordsAtMostOneFault :
    (∃ t, step ((start .bb).withTodo [.issue ⟨0x02000000#32, []⟩]) = .next t ∧ t.faults.length = 1) ∧
      decode ⟨0x05000002#32, [1#8]⟩ = .error .lengthMismatch :=
  ⟨⟨_, rfl, by decide⟩, by decide⟩

theorem witness_FaultsArePrecise :
    (∃ t, issueOp ⟨0x02000000#32, []⟩ (start .bb) = .next t ∧ t.faults ≠ (start .bb).faults) ∧
      (dmaStep low).faults ≠ low.faults :=
  ⟨⟨_, rfl, by decide⟩, by decide⟩

theorem witness_StBeginOpensSession :
    (0x01000001#32).toNat / 0x1000000 = 1 ∧ (0x01000001#32).toNat % 0x1000000 ≠ 0 := by decide

theorem witness_StEndClosesSession :
    ((0x02FFFFFF#32).toNat / 0x1000000 = 2 ∧ (0x02FFFFFF#32).toNat % 0x1000000 ≠ 0) ∧ (start .bb).depth = 0 ∧
      0 < (inside 1).depth ∧ 0 < (inside 2).depth := by decide

theorem witness_StCmdSendsCommandFrame :
    ((0x03000100#32).toNat / 0x1000000 = 3 ∧ (0x03000100#32).toNat % 0x1000000 / 0x100 ≠ 0) ∧
      (start .bb).cfg.kind = .bb ∧ ((hw [none]).cfg.kind = .hw ∧ (hw [none]).busOutcome 0 = none) ∧
      ((hw [some err]).cfg.kind = .hw ∧ (hw [some err]).busOutcome 0 = some err) := by decide

theorem witness_StDataSendsDataFrames :
    ([0#8].length < 2 ^ 24 ∧ (0x04000002#32).toNat / 0x1000000 = 4 ∧ [0#8].length ≠ (0x04000002#32).toNat % 0x1000000) ∧
      (start .bb).cfg.kind = .bb ∧ (hw [none]).cfg.kind = .hw ∧ (∀ i < [0xAA#8].length, (hw [none]).busOutcome i = none) ∧
      (∀ i < [1#8].length, (hw [none, some err]).busOutcome i = none) ∧
      (hw [none, some err]).busOutcome [1#8].length = some err ∧ (hw [some err]).busOutcome ([] : List Byte).length = some err := by
  decide

theorem witness_SerialOperationsFrame :
    (∃ t, exec (.stCmd 0x11#8) (start .bb) = .next t ∧ t.faults = (start .bb).faults) ∧
      (∃ t, exec .stEnd (inside 1) = .next t ∧ t.faults = (inside 1).faults) ∧
      (∃ t, exec .stBegin (start .hw) = .next t ∧ t.faults = (start .hw).faults) ∧
      (∃ t, exec (.stData [1#8]) (hw [none]) = .next t ∧ t.faults = (hw [none]).faults) :=
  ⟨⟨_, rfl, by decide⟩, ⟨_, rfl, by decide⟩, ⟨_, rfl, by decide⟩, ⟨_, rfl, by decide⟩⟩

theorem witness_FrameSampledControlBitFirst : (start .bb).cfg.kind = .bb := rfl

theorem witness_BitBangedMinimumDurations : (inside 1).cfg.kind = .bb ∧ (start .bb).cfg.kind = .bb := ⟨rfl, rfl⟩

theorem witness_PanelReceivesBitBangedFrames :
    ((start .bb).cfg.kind = .bb ∧ LineInv (start .bb) ∧ PanelInv (start .bb)) ∧
      ((inside 1).cfg.kind = .bb ∧ LineInv (inside 1) ∧ PanelInv (inside 1)) :=
  ⟨⟨rfl, line_start .bb, panel_start .bb⟩, rfl, line_inside, panel_inside⟩

theorem witness_PanelReceivesHardwareFrames :
    (hw [none]).cfg.kind = .hw ∧ (hw [none]).busOutcome 0 = none ∧ (hw [some err]).busOutcome 0 = some err ∧
      (∀ i < [1#8].length, (hw [none, some err]).busOutcome i = none) ∧
      (hw [none, some err]).busOutcome [1#8].length = some err := by decide

theorem witness_SessionGrouping :
    ((start .bb).cfg.kind = .bb ∧ (start .bb).faults = [] ∧ (start .bb).depth = 0) ∧
      (HostTakes 5 ((start .bb).withTodo [.whileAsserted [encode (.stCmd 0x11#8), encode (.stData [0xAA#8])]]) ∧
        LineInv ((start .bb).withTodo [.whileAsserted [encode (.stCmd 0x11#8), encode (.stData [0xAA#8])]]) ∧
        PanelInv ((start .bb).withTodo [.whileAsserted [encode (.stCmd 0x11#8), encode (.stData [0xAA#8])]])) ∧
      (HostTakes 2 (sched [2] (full.withTodo [.issue (encode (.stCmd 0x11#8)), .issue (encode (.stData [0xAA#8]))])) ∧
        full.faults = [] ∧ full.depth = 0 ∧
        LineInv (sched [2] (full.withTodo [.issue (encode (.stCmd 0x11#8)), .issue (encode (.stData [0xAA#8]))])) ∧
        PanelInv (sched [2] (full.withTodo [.issue (encode (.stCmd 0x11#8)), .issue (encode (.stData [0xAA#8]))]))) :=
  ⟨⟨rfl, rfl, rfl⟩,
    ⟨hostTakes_owned rfl, ⟨by decide, by decide, by decide, by decide⟩, ⟨by decide, by decide, by decide, by decide⟩⟩,
    hostTakes_shared (by decide), rfl, rfl, ⟨by decide, by decide, by decide, by decide⟩, ⟨by decide, by decide, by decide, by decide⟩⟩

/-- The clauses about a body that fails: one frame under HW, and a body of two operations whose second frame fails. -/
theorem witness_SessionGrouping_failing_body :
    ((hw [some err]).cfg.kind = .hw ∧ (hw [some err]).faults = [] ∧ HostTakes 4 (hw [some err]) ∧
        (hw [some err]).busOutcome 0 = some err) ∧
      (HostTakes 5 (hw [none, some err]) ∧
        (∀ i ∈ [Instr.stCmd 0x11#8, .stData [0xAA#8]],
          i.wf = true ∧ ((∃ b, i = .stCmd b) ∨ ∃ bytes, i = .stData bytes)) ∧
        ∃ t, run 5 ((hw [none, some err]).withTodo
          [.whileAsserted ([Instr.stCmd 0x11#8, .stData [0xAA#8]].map encode)]) = .next t ∧
          t.result = .err err ∧ t.depth = 0) := by
  refine ⟨⟨rfl, rfl, hostTakes_owned rfl, rfl⟩, hostTakes_owned rfl, ?_, _, rfl, by decide, by decide⟩
  intro i hi
  simp only [List.mem_cons, List.not_mem_nil, or_false] at hi
  rcases hi with rfl | rfl
  · exact ⟨rfl, .inl ⟨_, rfl⟩⟩
  · exact ⟨by decide, .inr ⟨_, rfl⟩⟩

theorem witness_StepKeepsLineInv :
    LineInv ((start .bb).withTodo [.issue (encode .stBegin)]) ∧
      ∃ t, step ((start .bb).withTodo [.issue (encode .stBegin)]) = .next t ∧ t.cs = false :=
  ⟨⟨by decide, by decide, by decide, by decide⟩, _, rfl, by decide⟩

theorem witness_StepKeepsPanelInv :
    LineInv ((start .bb).withTodo [.issue (encode .stBegin)]) ∧ PanelInv ((start .bb).withTodo [.issue (encode .stBegin)]) ∧
      ∃ t, step ((start .bb).withTodo [.issue (encode .stBegin)]) = .next t ∧ t.wire ≠ [] :=
  ⟨⟨by decide, by decide, by decide, by decide⟩, ⟨by decide, by decide, by decide, by decide⟩, _, rfl, by decide⟩

theorem witness_StepKeepsLineTiming :
    LineInv ((inside 1).withTodo [.issue (encode .stEnd)]) ∧ TimingInv ((inside 1).withTodo [.issue (encode .stEnd)]) ∧
      ∃ t, step ((inside 1).withTodo [.issue (encode .stEnd)]) = .next t ∧ t.cs = true :=
  ⟨⟨by decide, by decide, by decide, by decide⟩,
    ⟨by decide, by decide, by decide, by decide, by decide, by decide⟩, _, rfl, by decide⟩

theorem witness_RbPushStoresLeadingBytes :
    ([1#8].length < 2 ^ 24 ∧ (0x05000002#32).toNat / 0x1000000 = 5 ∧ [1#8].length ≠ (0x05000002#32).toNat % 0x1000000) ∧
      full.phase = .shared ∧ (start .bb).phase = .owned := by decide

theorem witness_TxPushStoresLeadingBytes :
    ([1#8].length < 2 ^ 24 ∧ (0x07000000#32).toNat / 0x1000000 = 7 ∧ [1#8].length ≠ (0x07000000#32).toNat % 0x1000000) ∧
      full.phase = .shared ∧ (start .bb).phase = .owned := by decide

theorem witness_TxStartHandsRingOver :
    ((0x06800000#32).toNat / 0x1000000 = 6 ∧ (0x06800000#32).toNat % 0x1000000 ≠ 0) ∧ (start .bb).phase = .owned ∧
      full.phase = .shared ∧ (step full = .next (dmaStep full)) := ⟨by decide, by decide, by decide, rfl⟩

theorem witness_PushNeverOverwrites :
    RingInv (start .bb) ∧ (∃ t, exec (.rbPush [1#8]) (start .bb) = .next t ∧ t.fill = 1) ∧ RingInv low ∧
      (∃ t, exec (.txPush [9#8, 10#8]) low = .next t ∧ t.fill = 3) :=
  ⟨ring_start .bb, ⟨_, rfl, by decide⟩, ring_low, _, rfl, by decide⟩

theorem witness_EmptyRingAcceptsUpToCapacity :
    ((start .bb).fill = 0 ∧ (start .bb).phase = .owned ∧ (start .bb).cfg.ringC ≤ (List.replicate 8 1#8).length) ∧
      ({ start .bb with phase := .shared, wpos := 4, rpos := 4 }.fill = 0 ∧
        { start .bb with phase := .shared, wpos := 4, rpos := 4 }.phase = .shared) := by decide

theorem witness_DmaStepConsumesDescriptor : RingInv full ∧ full.cfg.ringS ≤ full.fill := ⟨ring_full, by decide⟩

theorem witness_DmaStepUnderruns :
    low.fill < low.cfg.ringS ∧ low.draws.underrun.length = low.cfg.ringS ∧ low.faults = [] := by decide

theorem witness_ScheduleChoosesAgent :
    full.faults = [] ∧ (start .bb).phase = .owned ∧ (full.phase = .shared ∧ full.host.todo = []) ∧
      ((sched [0] (full.withTodo [.start])).host.todo ≠ [] ∧ (sched [0] (full.withTodo [.start])).drawnAgent = .dma) ∧
      ((sched [1] (full.withTodo [.start])).host.todo ≠ [] ∧
        (sched [1] (full.withTodo [.start])).drawnAgent = .host) := by decide

theorem witness_NoDmaStepWhileOwned :
    ((start .bb).phase = .owned ∧ ∃ t, step ((start .bb).withTodo [.issue (encode .txStart)]) = .next t ∧ t.phase = .shared) ∧
      RingInv (start .bb) ∧ ∃ t, step (start .bb) = .next t ∧ t.phase = .owned :=
  ⟨⟨rfl, _, rfl, by decide⟩, ring_start .bb, _, rfl, by decide⟩

theorem witness_ReadyDescriptorsArePublished :
    RingInv full ∧ full.phase = .shared ∧ 0 < full.cfg.ringN ∧ full.descriptorReady 0 = true ∧
      full.descriptorReady 1 = true ∧ 3 < full.cfg.ringS := ⟨ring_full, by decide⟩

theorem witness_DmaWalksTheChain :
    (RingInv (start .bb) ∧ (start .bb).phase = .owned) ∧ RingInv { full with rpos := 4, wpos := 0, fill := 4 } ∧
      { full with rpos := 4, wpos := 0, fill := 4 }.cfg.ringS ≤ { full with rpos := 4, wpos := 0, fill := 4 }.fill :=
  ⟨⟨ring_start .bb, rfl⟩,
    ⟨by decide, by decide, by decide, by decide, by decide, by decide, by decide, by decide, by decide, by decide⟩, by decide⟩

theorem witness_StepKeepsRingInv : RingInv full ∧ ∃ t, step full = .next t ∧ t.fill = 4 := ⟨ring_full, _, rfl, by decide⟩

theorem witness_AcceptedBytesLeaveInOrder :
    RingInv (sched [1] ({ full with rpos := 4, fill := 4 }.withTodo [.issue (encode (.txPush [9#8, 10#8]))])) ∧
      ∃ t, run 2 (sched [1] ({ full with rpos := 4, fill := 4 }.withTodo [.issue (encode (.txPush [9#8, 10#8]))])) =
        .next t ∧ t.faults = [] ∧ t.lcdOut = [5#8, 6#8, 7#8, 8#8] ∧ t.pending = [9#8, 10#8] :=
  ⟨⟨by decide, by decide, by decide, by decide, by decide, by decide, by decide, by decide, by decide, by decide⟩,
    _, rfl, by decide, by decide, by decide⟩

theorem witness_ConfigurationIsConstant : ∃ t, step full = .next t := ⟨_, rfl⟩

theorem witness_InvalidConfigurationRunsNothing :
    (1 ≤ (cfg .bb).ringN ∧ 1 ≤ (cfg .bb).ringS ∧ (cfg .bb).ringC = (cfg .bb).ringN * (cfg .bb).ringS) ∧
      ¬ (1 ≤ { cfg .bb with ringC := 9 }.ringN ∧ 1 ≤ { cfg .bb with ringC := 9 }.ringS ∧
        { cfg .bb with ringC := 9 }.ringC = { cfg .bb with ringC := 9 }.ringN * { cfg .bb with ringC := 9 }.ringS) ∧
      ¬ (1 ≤ { cfg .bb with ringC := 0, ringN := 0 }.ringN ∧ 1 ≤ { cfg .bb with ringC := 0, ringN := 0 }.ringS ∧
        { cfg .bb with ringC := 0, ringN := 0 }.ringC =
          { cfg .bb with ringC := 0, ringN := 0 }.ringN * { cfg .bb with ringC := 0, ringN := 0 }.ringS) := by decide

theorem witness_ResetMeetsInvariants : (cfg .hw).ringOk = true := by decide

theorem witness_RstSetDrivesResetLine :
    (0x08000002#32).toNat / 0x1000000 = 8 ∧ (0x08000002#32).toNat % 0x1000000 / 2 ≠ 0 := by decide

theorem witness_ResetPulseTrace :
    (((start .bb).withTodo [.resetPulse]).faults = [] ∧ HostTakes 7 ((start .bb).withTodo [.resetPulse]) ∧
        ((start .bb).withTodo [.resetPulse]).host.todo = .resetPulse :: []) ∧
      ((sched [7] (full.withTodo [.resetPulse])).faults = [] ∧ HostTakes 7 (sched [7] (full.withTodo [.resetPulse])) ∧
        (sched [7] (full.withTodo [.resetPulse])).host.todo = .resetPulse :: []) :=
  ⟨⟨rfl, hostTakes_owned rfl, rfl⟩, rfl, hostTakes_shared (by decide), rfl⟩

theorem witness_StepKeepsHostInv :
    HostInv ({ start .bb with sys := .configuring }.withTodo [.initEntry []]) ∧
      ∃ t, step ({ start .bb with sys := .configuring }.withTodo [.initEntry []]) = .next t ∧ t.sys = .ready :=
  ⟨host_running, _, rfl, by decide⟩

theorem witness_SystemStateTransitions :
    HostInv ({ start .bb with sys := .ready }.withTodo [.start]) ∧
      ∃ t, step ({ start .bb with sys := .ready }.withTodo [.start]) = .next t ∧ t.sys = .streaming :=
  ⟨⟨by decide, by decide⟩, _, rfl, by decide⟩

theorem witness_InitAbortsAtFirstError_command :
    ({ hw [some err] with depth := 1 }.withTodo [.initCmd 0x3A#8 [1#8] []]).cfg.kind = .hw ∧
      ({ hw [some err] with depth := 1 }.withTodo [.initCmd 0x3A#8 [1#8] []]).faults = [] ∧
      HostTakes 2 ({ hw [some err] with depth := 1 }.withTodo [.initCmd 0x3A#8 [1#8] []]) ∧
      0 < ({ hw [some err] with depth := 1 }.withTodo [.initCmd 0x3A#8 [1#8] []]).depth ∧
      [1#8].length < maxPayload ∧
      ({ hw [some err] with depth := 1 }.withTodo [.initCmd 0x3A#8 [1#8] []]).busOutcome 0 = some err :=
  ⟨rfl, rfl, hostTakes_owned rfl, by decide, by decide, rfl⟩

theorem witness_InitAbortsAtFirstError_data :
    ({ hw [none, some err] with depth := 1 }.withTodo [.initData 0x3A#8 [1#8, 2#8] []]).faults = [] ∧
      [1#8, 2#8] = [1#8] ++ 2#8 :: [] ∧
      (∀ i < [1#8].length,
        ({ hw [none, some err] with depth := 1 }.withTodo [.initData 0x3A#8 [1#8, 2#8] []]).busOutcome i = none) ∧
      ({ hw [none, some err] with depth := 1 }.withTodo [.initData 0x3A#8 [1#8, 2#8] []]).busOutcome [1#8].length =
        some err := by decide

theorem witness_InitSettlesAfterEntry :
    ((inside 1).withTodo [.initEnd 0x11#8 []]).faults = [] ∧ HostTakes 1 ((inside 1).withTodo [.initEnd 0x11#8 []]) ∧
      0 < ((inside 1).withTodo [.initEnd 0x11#8 []]).depth ∧ ((inside 1).withTodo [.initEnd 0x11#8 []]).host.r = .ok :=
  ⟨rfl, hostTakes_owned rfl, by decide, rfl⟩

theorem table_fits (k : Kind) : tableFits (cfg k).initTable := by
  intro e he
  cases k <;> simp only [cfg, List.mem_cons, List.not_mem_nil, or_false] at he <;> rcases he with rfl | rfl | rfl <;> decide

/-- In phase OWNED at depth 0, and in phase SHARED, where the schedule leaves the host its 20 steps. -/
theorem witness_BitBangedInitConfiguresPanel :
    (((start .bb).withTodo [.init]).cfg.kind = .bb ∧ HostTakes (initSteps (cfg .bb)) ((start .bb).withTodo [.init]) ∧
        ((start .bb).withTodo [.init]).sys = .reset ∧
        LineInv ((start .bb).withTodo [.init]) ∧ PanelInv ((start .bb).withTodo [.init]) ∧
        tableFits ((start .bb).withTodo [.init]).cfg.initTable ∧ ((start .bb).withTodo [.init]).host.todo = .init :: []) ∧
      (HostTakes (initSteps (cfg .bb)) (sched [20] (full.withTodo [.init])) ∧
        (sched [20] (full.withTodo [.init])).faults = [] ∧ (sched [20] (full.withTodo [.init])).sys = .reset ∧
        LineInv (sched [20] (full.withTodo [.init])) ∧ PanelInv (sched [20] (full.withTodo [.init]))) :=
  ⟨⟨rfl, hostTakes_owned rfl, rfl, ⟨by decide, by decide, by decide, by decide⟩, ⟨by decide, by decide, by decide, by decide⟩,
      table_fits .bb, rfl⟩,
    hostTakes_shared (by decide), rfl, rfl, ⟨by decide, by decide, by decide, by decide⟩,
    ⟨by decide, by decide, by decide, by decide⟩⟩

/-- Inside an open session. -/
theorem witness_BitBangedInitConfiguresPanel_inside :
    ((inside 1).withTodo [.init]).sys = .reset ∧ HostTakes (initSteps (cfg .bb)) ((inside 1).withTodo [.init]) ∧
      LineInv ((inside 1).withTodo [.init]) ∧ PanelInv ((inside 1).withTodo [.init]) :=
  ⟨rfl, hostTakes_owned rfl, ⟨by decide, by decide, by decide, by decide⟩, ⟨by decide, by decide, by decide, by decide⟩⟩

theorem witness_HardwareInitConfiguresPanel :
    ((hw [none, none, none, none]).withTodo [.init]).cfg.kind = .hw ∧
      ((hw [none, none, none, none]).withTodo [.init]).faults = [] ∧
      HostTakes (initSteps (cfg .hw)) ((hw [none, none, none, none]).withTodo [.init]) ∧
      ((hw [none, none, none, none]).withTodo [.init]).sys = .reset ∧
      tableFits ((hw [none, none, none, none]).withTodo [.init]).cfg.initTable ∧
      (∀ i < tableFrames ((hw [none, none, none, none]).withTodo [.init]).cfg.initTable,
        ((hw [none, none, none, none]).withTodo [.init]).busOutcome i = none) ∧
      ((hw [none, none, none, none]).withTodo [.init]).host.todo = .init :: [] :=
  ⟨rfl, rfl, hostTakes_owned rfl, rfl, table_fits .hw, by decide, rfl⟩

theorem witness_PrefillFillsTheRing :
    RingInv ((start .bb).withTodo [.prefillLoop [0x0A#8, 0x0B#8, 0x0C#8]]) ∧
      ((start .bb).withTodo [.prefillLoop [0x0A#8, 0x0B#8, 0x0C#8]]).phase = .owned ∧
      ([0x0A#8, 0x0B#8, 0x0C#8] : List Byte) ≠ [] ∧ ([0x0A#8, 0x0B#8, 0x0C#8] : List Byte).length < maxPayload :=
  ⟨⟨by decide, by decide, by decide, by decide, by decide, by decide, by decide, by decide, by decide, by decide⟩, by decide⟩

theorem witness_StartEntersStreaming :
    (({ start .bb with sys := .ready }.withTodo [.start]).faults = [] ∧
        ({ start .bb with sys := .ready }.withTodo [.start]).phase = .owned ∧
        ({ start .bb with sys := .ready }.withTodo [.start]).sys = .ready ∧
        ({ start .bb with sys := .ready }.withTodo [.start]).host.todo = .start :: []) ∧
      ((sched [1] (full.withTodo [.start])).phase = .shared ∧ HostTakes 1 (sched [1] (full.withTodo [.start]))) :=
  ⟨by decide, rfl, hostTakes_shared (by decide)⟩

theorem witness_StreamOffersContinuation :
    (sched [1] (full.withTodo [.streamLoop [1#8, 2#8]])).faults = [] ∧
      (sched [1] (full.withTodo [.streamLoop [1#8, 2#8]])).phase = .shared ∧
      (sched [1] (full.withTodo [.streamLoop [1#8, 2#8]])).drawnAgent = .host ∧ [1#8, 2#8].length < maxPayload := by
  decide

theorem witness_BootRunsProceduresInOrder :
    (((start .bb).withTodo [.bootContinue [1#8]]).faults = [] ∧ HostTakes 1 ((start .bb).withTodo [.bootContinue [1#8]]) ∧
        ((start .bb).withTodo [.bootContinue [1#8]]).host.r = .ok ∧
        { (start .bb).host with r := .err err }.r ≠ .ok ∧ [1#8] ≠ []) ∧
      (HostTakes 1 (sched [1] (full.withTodo [.boot [1#8]])) ∧ (sched [1] (full.withTodo [.boot [1#8]])).faults = []) :=
  ⟨⟨rfl, hostTakes_owned rfl, rfl, by decide, by decide⟩, hostTakes_shared (by decide), rfl⟩

theorem witness_BootSendsRepeatedPattern :
    RingInv ((start .hw).withTodo [.boot [1#8, 2#8, 3#8]]) ∧ ((start .hw).withTodo [.boot [1#8, 2#8, 3#8]]).phase = .owned ∧
      ((start .hw).withTodo [.boot [1#8, 2#8, 3#8]]).fill = 0 ∧
      ∃ t, run 3 ((start .hw).withTodo [.boot [1#8, 2#8, 3#8]]) = .next t ∧ t.faults = [] ∧ t.sys = .configuring :=
  ⟨⟨by decide, by decide, by decide, by decide, by decide, by decide, by decide, by decide, by decide, by decide⟩, rfl, rfl,
    _, rfl, by decide, by decide⟩

theorem witness_BootFaultsOnlyByUnderrun :
    RingInv ((start .hw).withTodo [.boot [1#8]]) ∧ ((start .hw).withTodo [.boot [1#8]]).faults = [] ∧
      ((start .hw).withTodo [.boot [1#8]]).phase = .owned ∧ ((start .hw).withTodo [.boot [1#8]]).sys = .reset ∧
      ([1#8] : List Byte) ≠ [] ∧ ([1#8] : List Byte).length < maxPayload ∧
      tableFits ((start .hw).withTodo [.boot [1#8]]).cfg.initTable :=
  ⟨⟨by decide, by decide, by decide, by decide, by decide, by decide, by decide, by decide, by decide, by decide⟩, rfl, rfl,
    rfl, by decide, by decide, table_fits .hw⟩

theorem witness_BrokenHostDutiesStop :
    HostTakes 1 (start .bb) ∧ HostTakes 1 (sched [1] full) ∧ full.faults = [] ∧
      ({ start .bb with sys := .configuring }.withTodo [.init]).sys ≠ .reset ∧
      ((start .bb).withTodo [.prefill []]).host.todo = .prefill [] :: [] ∧
      ((start .bb).withTodo [.stream [] 0]).host.todo = .stream [] 0 :: [] ∧
      (((start .bb).withTodo [.start]).phase = .owned ∧ ((start .bb).withTodo [.start]).sys ≠ .ready) :=
  ⟨hostTakes_owned rfl, hostTakes_shared (by decide), by decide⟩

/-- In the first clause the DMA agent's step comes after one step of the host. -/
theorem witness_DmaAgentIsWeaklyFair :
    (full.faults = [] ∧ full.phase = .shared ∧ (full.withTodo [.start]).host.todo ≠ [] ∧ RingInv full ∧ RingInv low) ∧
      (sched [1] (full.withTodo [.issue (encode (.txPush []))])).draws.gap = 1 ∧
      ∃ t, run 1 (sched [1] (full.withTodo [.issue (encode (.txPush [])), .issue (encode (.txPush []))])) = .next t ∧
        t.faults = [] ∧ step t = .next (dmaStep t.takeChoice) :=
  ⟨⟨rfl, rfl, by decide, ring_full, ring_low⟩, rfl, _, rfl, rfl, rfl⟩

theorem running_boot (k : Kind) : BootRunning [1#8] ((start k).withTodo [.boot [1#8]]) := by
  refine ⟨?_, by decide, .boot rfl rfl rfl, rfl⟩
  cases k <;> exact ⟨by decide, by decide, by decide, by decide, by decide, by decide, by decide, by decide, by decide, by decide⟩

/-- At the point of streaming: the pattern's eight first bytes pending, offset 0. -/
theorem running_stream :
    BootRunning [1#8, 2#8, 3#8, 4#8, 5#8, 6#8, 7#8, 8#8]
      ({ full with sys := .streaming }.withTodo [.streamLoop [1#8, 2#8, 3#8, 4#8, 5#8, 6#8, 7#8, 8#8]]) :=
  ⟨⟨by decide, by decide, by decide, by decide, by decide, by decide, by decide, by decide, by decide, by decide⟩,
    by decide, .streaming rfl rfl rfl rfl, by decide⟩

theorem witness_StepKeepsBootInv :
    BootInv [1#8] ((start .bb).withTodo [.boot [1#8]]) ∧ BootRunning [1#8] ((start .bb).withTodo [.boot [1#8]]) ∧
      (∃ t, step ((start .bb).withTodo [.boot [1#8]]) = .next t ∧ t.faults = []) ∧
      ([1#8] : List Byte).length < maxPayload ∧ tableFits ((start .bb).withTodo [.boot [1#8]]).cfg.initTable ∧
      (((start .bb).withTodo [.boot [1#8]]).initAhead [1#8] → ((start .bb).withTodo [.boot [1#8]]).sys = .reset) :=
  ⟨fun _ => running_boot .bb, running_boot .bb, ⟨_, rfl, rfl⟩, by decide, table_fits .bb, fun _ => rfl⟩

end Sys2Proof.Tests
end

section
/-! PROOFS. What the operations, the host and the DMA step do to the ring: its invariant (10_state.md R42, R48) and the
constant configuration follow from this and from `step_keeps`. -/

namespace Sys2Proof.Machine

open Sys2Proof

/-! ## The ring's part of the state -/

/-- The configuration and the ring are as before: every field that `RingInv` reads. -/
structure RingUnchanged (s t : State) : Prop where
  cfg : t.cfg = s.cfg
  storage : t.storage = s.storage
  wpos : t.wpos = s.wpos
  rpos : t.rpos = s.rpos
  fill : t.fill = s.fill
  phase : t.phase = s.phase
  desc : t.desc = s.desc
  lcdOut : t.lcdOut = s.lcdOut

theorem RingUnchanged.trans {s t u : State} (h : RingUnchanged s t) (h' : RingUnchanged t u) : RingUnchanged s u :=
  ⟨h'.cfg.trans h.cfg, h'.storage.trans h.storage, h'.wpos.trans h.wpos, h'.rpos.trans h.rpos, h'.fill.trans h.fill,
    h'.phase.trans h.phase, h'.desc.trans h.desc, h'.lcdOut.trans h.lcdOut⟩

theorem SameButFrames.ringUnchanged {s t : State} (h : SameButFrames s t) : RingUnchanged s t :=
  ⟨h.cfg, h.storage, h.wpos, h.rpos, h.fill, h.phase, h.desc, h.lcdOut⟩

theorem HostOnly.ringUnchanged {s t : State} (h : HostOnly s t) : RingUnchanged s t := by
  rw [h]; constructor <;> rfl

theorem raiseOp_ringUnchanged (s : State) (c : FaultCode) (w : OpWord) : RingUnchanged s (s.raiseOp c w) := by
  constructor <;> rfl

theorem takeChoice_ringUnchanged (s : State) : RingUnchanged s s.takeChoice := by constructor <;> rfl

theorem sessionOpen_ringUnchanged (s : State) : RingUnchanged s (sessionOpen s) := by
  rw [sessionOpen_eq]; constructor <;> rfl

theorem sessionClose_ringUnchanged (s : State) : RingUnchanged s (sessionClose s) := by
  rw [sessionClose_eq]; constructor <;> rfl

/-- Whatever frames a session sends, it leaves the ring alone (20_memory.md R57). -/
theorem session_ringUnchanged {s t : State} (h : SameButFrames (sessionOpen s) t) (r : Result) :
    RingUnchanged s ((sessionClose t).setResult r) := by
  have hclose := sessionClose_ringUnchanged t
  have hresult : RingUnchanged (sessionClose t) ((sessionClose t).setResult r) := by constructor <;> rfl
  exact (((sessionOpen_ringUnchanged s).trans h.ringUnchanged).trans hclose).trans hresult

/-- What an operation can do to the ring: a push stores its bytes, TX_START hands the storage over, and everything else,
a push or TX_START that faults included, leaves the ring alone. -/
theorem exec_ring_cases {i : Instr} {s t : State} (h : exec i s = .next t) :
    RingUnchanged s t ∨
      (∃ bytes, (i = .rbPush bytes ∧ s.phase = .owned ∨ i = .txPush bytes ∧ s.phase = .shared) ∧
        t = pushCore bytes s) ∨
      (i = .txStart ∧ s.phase = .owned ∧ t = { s with phase := .shared }) := by
  cases i with
  | stBegin => injection h with h; rw [← h]; exact .inl (sessionOpen_ringUnchanged s)
  | stEnd =>
    simp only [exec, execStEnd] at h
    split at h <;> injection h with h <;> rw [← h]
    · exact .inl (raiseOp_ringUnchanged ..)
    · exact .inl (sessionClose_ringUnchanged s)
  | stCmd b => injection h with h; rw [← h]; exact .inl (session_ringUnchanged (emitFrame_frame ..) _)
  | stData bytes => injection h with h; rw [← h]; exact .inl (session_ringUnchanged (sendData_frame ..) _)
  | rbPush bytes =>
    simp only [exec, execRbPush] at h
    split at h <;> injection h with h <;> rw [← h]
    · exact .inl (raiseOp_ringUnchanged ..)
    · next hp => exact .inr (.inl ⟨bytes, .inl ⟨rfl, hp⟩, rfl⟩)
  | txStart =>
    simp only [exec, execTxStart] at h
    split at h <;> injection h with h <;> rw [← h]
    · exact .inl (raiseOp_ringUnchanged ..)
    · next hp => exact .inr (.inr ⟨rfl, hp, rfl⟩)
  | txPush bytes =>
    simp only [exec, execTxPush] at h
    split at h <;> injection h with h <;> rw [← h]
    · exact .inl (raiseOp_ringUnchanged ..)
    · next hp => exact .inr (.inl ⟨bytes, .inr ⟨rfl, hp⟩, rfl⟩)
  | rstSet v => injection h with h; rw [← h]; exact .inl (by constructor <;> rfl)
  | delayUs us => injection h with h; rw [← h]; exact .inl (by constructor <;> rfl)

/-! ## The ring's invariant -/

theorem RingInv.of_ringUnchanged {s t : State} (h : RingInv s) (hu : RingUnchanged s t) : RingInv t := by
  obtain ⟨hcfg, hstorage, hwpos, hrpos, hfill, hphase, hdesc, hlcd⟩ := hu
  constructor <;> simp only [hcfg, hstorage, hwpos, hrpos, hfill, hphase, hdesc, hlcd]
  exacts [h.config, h.chain, h.memory, h.bounded, h.fill_le, h.rpos_lt, h.rpos_aligned, h.cursors, h.valued, h.owned]

theorem RingInv.ringC_pos {s : State} (h : RingInv s) : 0 < s.cfg.ringC := Nat.zero_lt_of_lt h.rpos_lt

theorem acceptCount_le_length (s : State) (n : Nat) : s.acceptCount n ≤ n := Nat.min_le_left ..

theorem fill_add_acceptCount_le {s : State} (h : s.fill ≤ s.cfg.ringC) (n : Nat) :
    s.fill + s.acceptCount n ≤ s.cfg.ringC := by
  have : s.acceptCount n ≤ s.cfg.ringC - s.fill := Nat.min_le_right ..
  omega

theorem length_take_acceptCount (s : State) (bytes : List Byte) :
    (bytes.take (s.acceptCount bytes.length)).length = s.acceptCount bytes.length :=
  List.length_take_of_le (acceptCount_le_length ..)

/-- The cells a push writes lie behind the pending ones. -/
theorem RingInv.wpos_add_mod {s : State} (h : RingInv s) (i : Nat) :
    (s.wpos + i) % s.cfg.ringC = (s.rpos + (s.fill + i)) % s.cfg.ringC := by
  rw [h.cursors, Nat.mod_add_mod, Nat.add_assoc]

/-- A push overwrites no pending cell (42_ring_buffer.md R177). -/
theorem RingInv.read_pushCore_pending {s : State} (h : RingInv s) (bytes : List Byte) {j : Nat} (hj : j < s.fill) :
    Memory.read (pushCore bytes s).storage ((s.rpos + j) % s.cfg.ringC) =
      Memory.read s.storage ((s.rpos + j) % s.cfg.ringC) := by
  refine Memory.read_writeRing_other _ _ _ fun i hi heq => ?_
  rw [length_take_acceptCount] at hi
  rw [h.wpos_add_mod] at heq
  have hroom := fill_add_acceptCount_le h.fill_le bytes.length
  have := Memory.ringIndex_inj (by omega) (by omega) heq
  omega

/-- The cells behind the pending ones hold the accepted bytes after a push (42_ring_buffer.md R153). -/
theorem RingInv.read_pushCore_accepted {s : State} (h : RingInv s) (bytes : List Byte) {i : Nat}
    (hi : i < s.acceptCount bytes.length) :
    Memory.read (pushCore bytes s).storage ((s.rpos + (s.fill + i)) % s.cfg.ringC) = bytes[i]? := by
  have hlen := length_take_acceptCount s bytes
  have hroom := fill_add_acceptCount_le h.fill_le bytes.length
  have hlt := Nat.lt_of_lt_of_le hi (acceptCount_le_length s bytes.length)
  rw [← h.wpos_add_mod]
  refine (Memory.read_writeRing_at _ _ _ (by omega) i (by omega)).trans ?_
  rw [List.getElem_take, List.getElem?_eq_getElem hlt]

/-- A push keeps the ring's invariant: the cells that `fill` counts are the pending ones and those just written. -/
theorem RingInv.pushCore {s : State} (h : RingInv s) (bytes : List Byte) : RingInv (pushCore bytes s) where
  config := h.config
  chain := h.chain
  memory := Memory.wf_writeRing _ _ _ _ h.memory
  bounded := Memory.bounded_writeRing h.ringC_pos _ _ _ h.bounded
  fill_le := fill_add_acceptCount_le h.fill_le _
  rpos_lt := h.rpos_lt
  rpos_aligned := h.rpos_aligned
  cursors := h.wpos_add_mod _
  valued := by
    intro j hj
    change (Memory.read _ ((s.rpos + j) % s.cfg.ringC)).isSome = true
    by_cases hold : j < s.fill
    · rw [h.read_pushCore_pending bytes hold]
      exact h.valued j hold
    · obtain ⟨i, rfl⟩ := Nat.exists_eq_add_of_le (Nat.le_of_not_lt hold)
      have hi : i < s.acceptCount bytes.length := Nat.lt_of_add_lt_add_left hj
      have hlt := Nat.lt_of_lt_of_le hi (acceptCount_le_length s bytes.length)
      rw [h.read_pushCore_accepted bytes hi, List.getElem?_eq_getElem hlt]
      rfl
  owned := h.owned

/-- TX_START keeps the ring's invariant: SHARED asks for less than OWNED. -/
theorem RingInv.handOver {s : State} (h : RingInv s) : RingInv { s with phase := .shared } :=
  ⟨h.config, h.chain, h.memory, h.bounded, h.fill_le, h.rpos_lt, h.rpos_aligned, h.cursors, h.valued, nofun⟩

theorem RingInv.exec {i : Instr} {s t : State} (h : RingInv s) (he : exec i s = .next t) : RingInv t := by
  rcases exec_ring_cases he with hu | ⟨bytes, -, rfl⟩ | ⟨-, -, rfl⟩
  · exact h.of_ringUnchanged hu
  · exact h.pushCore bytes
  · exact h.handOver

/-- An underrun keeps the ring's invariant in SHARED: it only appends to `lcd_out` and to the fault list. -/
theorem RingInv.dmaUnderrun {s : State} (h : RingInv s) (hp : s.phase = .shared) : RingInv (dmaUnderrun s) :=
  ⟨h.config, h.chain, h.memory, h.bounded, h.fill_le, h.rpos_lt, h.rpos_aligned, h.cursors, h.valued,
    fun ho => nomatch hp.symm.trans ho⟩

/-- Consuming a descriptor moves the start of the pending cells by S and leaves their end where it is. -/
theorem RingInv.dmaStep {s : State} (h : RingInv s) (hp : s.phase = .shared) : RingInv (dmaStep s) := by
  rcases Nat.lt_or_ge s.fill s.cfg.ringS with hlow | hfull
  · rw [dmaStep_underruns hlow]
    exact h.dmaUnderrun hp
  · rw [h.dmaStep_consumes hfull]
    obtain ⟨-, -, hC⟩ := (ringOk_iff _).1 h.config
    have hmove (j : Nat) :
        ((s.rpos + s.cfg.ringS) % s.cfg.ringC + j) % s.cfg.ringC = (s.rpos + (s.cfg.ringS + j)) % s.cfg.ringC := by
      rw [Nat.mod_add_mod, Nat.add_assoc]
    exact {
      config := h.config
      chain := h.chain
      memory := h.memory
      bounded := h.bounded
      fill_le := Nat.le_trans (Nat.sub_le ..) h.fill_le
      rpos_lt := Nat.mod_lt _ h.ringC_pos
      rpos_aligned := by
        have hdvd : s.cfg.ringS ∣ s.cfg.ringC := hC ▸ Nat.dvd_mul_left ..
        rw [Nat.mod_mod_of_dvd _ hdvd, Nat.add_mod_right, h.rpos_aligned]
      cursors := by rw [hmove, Nat.add_sub_cancel' hfull, h.cursors]
      valued := fun j hj => by
        rw [hmove]
        exact h.valued _ (Nat.add_lt_of_lt_sub' hj)
      owned := fun ho => nomatch hp.symm.trans ho }

/-- Settles O37: every kind of step keeps the ring's invariant. -/
theorem stepKeepsRingInv : Obligations.StepKeepsRingInv := by
  unfold Obligations.StepKeepsRingInv
  intro s t h
  exact step_keeps (fun _ _ _ h he => RingInv.exec h he) (fun _ _ h => h.of_ringUnchanged (raiseOp_ringUnchanged ..))
    (fun _ _ hu h => h.of_ringUnchanged hu.ringUnchanged) (fun _ h => h.of_ringUnchanged (takeChoice_ringUnchanged _))
    (fun _ hp h => h.dmaStep hp) h

/-! ## The configuration and the chain -/

/-- The configuration and the descriptor chain are those of `s`. -/
def SameCfgDesc (s t : State) : Prop := t.cfg = s.cfg ∧ t.desc = s.desc

theorem SameCfgDesc.trans {s t u : State} (h : SameCfgDesc s t) (h' : SameCfgDesc t u) : SameCfgDesc s u :=
  ⟨h'.1.trans h.1, h'.2.trans h.2⟩

theorem RingUnchanged.sameCfgDesc {s t : State} (h : RingUnchanged s t) : SameCfgDesc s t := ⟨h.cfg, h.desc⟩

theorem exec_sameCfgDesc {i : Instr} {s t : State} (h : exec i s = .next t) : SameCfgDesc s t := by
  rcases exec_ring_cases h with hu | ⟨bytes, -, rfl⟩ | ⟨-, -, rfl⟩
  · exact hu.sameCfgDesc
  · exact ⟨rfl, rfl⟩
  · exact ⟨rfl, rfl⟩

theorem dmaStep_sameCfgDesc (s : State) : SameCfgDesc s (dmaStep s) := by
  rcases dmaStep_cases s with h | ⟨_, _, -, -, h⟩ <;> rw [h] <;> exact ⟨rfl, rfl⟩

/-- Settles O39: no operation, host assignment, schedule choice or DMA step writes either field. -/
theorem configurationIsConstant : Obligations.ConfigurationIsConstant := by
  unfold Obligations.ConfigurationIsConstant
  intro s t
  exact step_keeps (P := SameCfgDesc s) (fun _ _ _ h he => h.trans (exec_sameCfgDesc he))
    (fun _ _ h => h.trans (raiseOp_ringUnchanged ..).sameCfgDesc) (fun _ _ hu h => h.trans hu.ringUnchanged.sameCfgDesc)
    (fun _ h => h.trans (takeChoice_ringUnchanged _).sameCfgDesc)
    (fun _ _ h => h.trans (dmaStep_sameCfgDesc _)) ⟨rfl, rfl⟩

end Sys2Proof.Machine
end

section
/-! PROOFS. The lines at an operation boundary, the ready descriptors, the step of a decoded operation, and reset. -/

namespace Sys2Proof.Machine

open Sys2Proof

/-! ## The lines -/

/-- Every field that `LineInv` reads is as before. -/
structure LinesUnchanged (s t : State) : Prop where
  cfg : t.cfg = s.cfg
  cs : t.cs = s.cs
  scl : t.scl = s.scl
  depth : t.depth = s.depth
  result : t.result = s.result

theorem LineInv.of_linesUnchanged {s t : State} (h : LineInv s) (hu : LinesUnchanged s t) : LineInv t := by
  obtain ⟨hcfg, hcs, hscl, hdepth, hresult⟩ := hu
  constructor <;> simp only [hcfg, hcs, hscl, hdepth, hresult]
  exacts [h.bb_select, h.hw_select, h.clock_idle, h.bb_result]

theorem HostOnly.linesUnchanged {s t : State} (h : HostOnly s t) : LinesUnchanged s t := by
  rw [h]; constructor <;> rfl

theorem raiseOp_linesUnchanged (s : State) (c : FaultCode) (w : OpWord) : LinesUnchanged s (s.raiseOp c w) := by
  constructor <;> rfl

theorem takeChoice_linesUnchanged (s : State) : LinesUnchanged s s.takeChoice := by constructor <;> rfl

theorem dmaStep_linesUnchanged (s : State) : LinesUnchanged s (dmaStep s) := by
  rcases dmaStep_cases s with h | ⟨_, _, -, -, h⟩ <;> rw [h] <;> constructor <;> rfl

/-- Opening a session selects the panel under BB, if it was not selected yet (R114). -/
theorem LineInv.sessionOpen {s : State} (h : LineInv s) : LineInv (sessionOpen s) := by
  rw [sessionOpen_eq]
  refine ⟨fun hk => ?_, fun hk => ?_, h.clock_idle, h.bb_result⟩
  · have hcs := h.bb_select hk
    by_cases hd : s.depth = 0
    · simp [show s.cfg.kind = .bb from hk, hd]
    · simpa [hd] using hcs.2 (Nat.pos_of_ne_zero hd)
  · simpa [show s.cfg.kind = .hw from hk] using h.hw_select hk

/-- Closing a session deselects the panel under BB where it was the outermost one (R115). -/
theorem LineInv.sessionClose {s : State} (h : LineInv s) (hd : 0 < s.depth) : LineInv (sessionClose s) := by
  rw [sessionClose_eq]
  refine ⟨fun hk => ?_, fun hk => ?_, h.clock_idle, h.bb_result⟩
  · have hcs := (h.bb_select hk).2 hd
    by_cases hlast : s.depth - 1 = 0
    · simp [show s.cfg.kind = .bb from hk, hlast]
    · simpa [hlast, hcs] using Nat.pos_of_ne_zero hlast
  · simpa [show s.cfg.kind = .hw from hk] using h.hw_select hk

/-- A frame keeps the lines' invariant: it leaves the clock high, and its own result is OK under BB. -/
theorem LineInv.emitFrame {s : State} (h : LineInv s) (cd : Level) (b : Byte) : LineInv (emitFrame cd b s).2 := by
  cases hk : s.cfg.kind with
  | bb => rw [emitFrame_bb hk, frameBB_eq]; exact ⟨h.bb_select, h.hw_select, rfl, h.bb_result⟩
  | hw =>
    rw [emitFrame_hw hk, frameHW]
    split <;> exact h.of_linesUnchanged (by constructor <;> rfl)

theorem LineInv.sendData {s : State} (h : LineInv s) (bytes : List Byte) : LineInv (sendData bytes s).2 := by
  induction bytes generalizing s with
  | nil => exact h
  | cons b bytes ih =>
    have hframe := h.emitFrame true b
    rw [Machine.sendData]
    split
    · next t ht => rw [ht] at hframe; exact ih hframe
    · next e t ht => rw [ht] at hframe; exact hframe

/-- Closing a session and noting a result that is OK under BB. -/
theorem LineInv.finish {s t : State} (h : LineInv t) (hs : SameButFrames (Machine.sessionOpen s) t) {r : Result}
    (hr : s.cfg.kind = .bb → r = .ok) : LineInv ((Machine.sessionClose t).setResult r) := by
  have hcfg : t.cfg = s.cfg := hs.cfg.trans (sessionOpen_ringUnchanged s).cfg
  have hdepth : 0 < t.depth := by
    rw [hs.depth, sessionOpen_eq]
    exact Nat.succ_pos _
  have hclose := h.sessionClose hdepth
  have hcfg' : (Machine.sessionClose t).cfg = s.cfg := (sessionClose_ringUnchanged t).cfg.trans hcfg
  exact ⟨hclose.bb_select, hclose.hw_select, hclose.clock_idle, fun hk => hr (hcfg' ▸ hk)⟩

theorem LineInv.exec {i : Instr} {s t : State} (h : LineInv s) (he : exec i s = .next t) : LineInv t := by
  have hkind (hk : s.cfg.kind = .bb) : (Machine.sessionOpen s).cfg.kind = .bb := by
    rw [(sessionOpen_ringUnchanged s).cfg, hk]
  cases i with
  | stBegin => injection he with he; rw [← he]; exact h.sessionOpen
  | stEnd =>
    simp only [Machine.exec, execStEnd] at he
    split at he <;> injection he with he <;> rw [← he]
    · exact h.of_linesUnchanged (raiseOp_linesUnchanged ..)
    · next hd => exact h.sessionClose (Nat.pos_of_ne_zero hd)
  | stCmd b =>
    injection he with he
    rw [← he]
    exact (h.sessionOpen.emitFrame false b).finish (emitFrame_frame ..) fun hk => by rw [emitFrame_bb (hkind hk)]
  | stData bytes =>
    injection he with he
    rw [← he]
    exact (h.sessionOpen.sendData bytes).finish (sendData_frame ..) fun hk => by rw [sendData_bb _ (hkind hk)]
  | rbPush _ | txStart | txPush _ =>
    simp only [Machine.exec, execRbPush, execTxStart, execTxPush] at he
    split at he <;> injection he with he <;> rw [← he] <;> exact h.of_linesUnchanged (by constructor <;> rfl)
  | rstSet _ | delayUs _ => injection he with he; rw [← he]; exact h.of_linesUnchanged (by constructor <;> rfl)

/-- Settles O23: every kind of step keeps the lines' invariant. -/
theorem stepKeepsLineInv : Obligations.StepKeepsLineInv := by
  unfold Obligations.StepKeepsLineInv
  intro s t h
  exact step_keeps (fun _ _ _ h he => LineInv.exec h he) (fun _ _ h => h.of_linesUnchanged (raiseOp_linesUnchanged ..))
    (fun _ _ hu h => h.of_linesUnchanged hu.linesUnchanged) (fun _ h => h.of_linesUnchanged (takeChoice_linesUnchanged _))
    (fun _ _ h => h.of_linesUnchanged (dmaStep_linesUnchanged _)) h

/-! ## Ready descriptors -/

theorem RingInv.rpos_eq {s : State} (h : RingInv s) : s.rpos / s.cfg.ringS * s.cfg.ringS = s.rpos :=
  Nat.div_mul_cancel (Nat.dvd_of_mod_eq_zero h.rpos_aligned)

/-- The DMA position is one of the N descriptors. -/
theorem RingInv.position_lt {s : State} (h : RingInv s) : s.rpos / s.cfg.ringS < s.cfg.ringN := by
  obtain ⟨-, -, hC⟩ := (ringOk_iff _).1 h.config
  exact Nat.div_lt_of_lt_mul (by rw [Nat.mul_comm, ← hC]; exact h.rpos_lt)

theorem RingInv.descriptorDistance_position {s : State} (h : RingInv s) :
    s.descriptorDistance (s.rpos / s.cfg.ringS) = 0 := by
  rw [State.descriptorDistance, Nat.mod_eq_of_lt h.position_lt, Nat.add_sub_cancel_left, Nat.mod_self]

/-- Going the distance from the DMA position on leads to the descriptor, at most once around the chain. -/
theorem RingInv.position_add_distance {s : State} (h : RingInv s) {i : Nat} (hi : i < s.cfg.ringN) :
    s.rpos / s.cfg.ringS + s.descriptorDistance i = i ∨
      s.rpos / s.cfg.ringS + s.descriptorDistance i = i + s.cfg.ringN := by
  have hr := h.position_lt
  rw [State.descriptorDistance, Nat.mod_eq_of_lt hr]
  rcases Nat.lt_or_ge i (s.rpos / s.cfg.ringS) with hbehind | hahead
  · right
    rw [Nat.mod_eq_of_lt (by omega)]
    omega
  · left
    rw [Nat.sub_add_comm hahead, Nat.add_mod_right, Nat.mod_eq_of_lt (Nat.lt_of_le_of_lt (Nat.sub_le ..) hi)]
    exact Nat.add_sub_cancel' hahead

/-- Cell j of a descriptor as a ring position counted from the read cursor. -/
theorem RingInv.descriptor_cell {s : State} (h : RingInv s) {i j : Nat} (hi : i < s.cfg.ringN) (hj : j < s.cfg.ringS) :
    i * s.cfg.ringS + j = (s.rpos + (s.descriptorDistance i * s.cfg.ringS + j)) % s.cfg.ringC := by
  obtain ⟨-, -, hC⟩ := (ringOk_iff _).1 h.config
  have hcell : i * s.cfg.ringS + j < s.cfg.ringC := by
    have := Nat.mul_le_mul_right s.cfg.ringS (Nat.succ_le_of_lt hi)
    rw [Nat.succ_mul, ← hC] at this
    omega
  have hpos : s.rpos + (s.descriptorDistance i * s.cfg.ringS + j) =
      (s.rpos / s.cfg.ringS + s.descriptorDistance i) * s.cfg.ringS + j := by
    rw [Nat.add_mul, h.rpos_eq, Nat.add_assoc]
  rw [hpos]
  rcases h.position_add_distance hi with hd | hd
  · rw [hd, Nat.mod_eq_of_lt hcell]
  · rw [hd, Nat.add_mul, ← hC, Nat.add_right_comm, Nat.add_mod_right, Nat.mod_eq_of_lt hcell]

theorem descriptorReady_iff {s : State} (hp : s.phase = .shared) (i : Nat) :
    s.descriptorReady i = true ↔ (s.descriptorDistance i + 1) * s.cfg.ringS ≤ s.fill := by
  simp [State.descriptorReady, hp]

/-- Settles O35: cell j of a ready descriptor is the pending cell `k(i) * S + j`. -/
theorem readyDescriptorsArePublished : Obligations.ReadyDescriptorsArePublished := by
  unfold Obligations.ReadyDescriptorsArePublished
  intro s h hp
  refine ⟨?_, fun i hi hready j hj => ⟨s.descriptorDistance i * s.cfg.ringS + j, ?_, h.descriptor_cell hi hj⟩⟩
  · rw [descriptorReady_iff hp, h.descriptorDistance_position, Nat.zero_add, Nat.one_mul]
  · rw [descriptorReady_iff hp, Nat.succ_mul] at hready
    omega

/-! ## The step of a decoded operation -/

/-- Settles O6: a host step issues its command on the rest of the list, and issuing executes what decodes. -/
theorem stepRunsDecodedOperation : Obligations.StepRunsDecodedOperation := by
  unfold Obligations.StepRunsDecodedOperation
  intro s op rest i hf ht hd
  have hstep (hh : HostTakes 1 s) : step s = exec i ((s.afterTurns 1).withTodo rest) :=
    (step_host hf hh ht).trans (issueOp_ok hd _)
  constructor
  · intro hp
    rw [hstep (hostTakes_owned hp), State.afterTurns_owned 1 hp]
  · intro hp ha
    rw [hstep (hostTakes_shared (State.drawnAgent_host_iff.1 ha)), State.afterTurns_shared 1 hp]
    rfl

/-! ## Reset -/

section
variable (cfg : Config) (sda rst : Level)

theorem ringInv_fresh (h : cfg.ringOk = true) : RingInv (State.fresh cfg sda rst) := by
  obtain ⟨hN, hS, hC⟩ := (ringOk_iff _).1 h
  have hpos : 0 < cfg.ringC := hC ▸ Nat.mul_pos hN hS
  exact ⟨h, rfl, rfl, nofun, Nat.zero_le _, hpos, Nat.zero_mod _, (Nat.zero_mod _).symm, nofun, fun _ => ⟨rfl, rfl⟩⟩

theorem lineInv_fresh : LineInv (State.fresh cfg sda rst) :=
  ⟨fun _ => ⟨nofun, nofun⟩, fun _ => rfl, rfl, fun _ => rfl⟩

theorem hostInv_fresh : HostInv (State.fresh cfg sda rst) := ⟨Nat.zero_le _, nofun⟩

theorem panelInv_fresh : PanelInv (State.fresh cfg sda rst) := ⟨rfl, rfl, rfl, nofun⟩

theorem timingInv_fresh : TimingInv (State.fresh cfg sda rst) := ⟨rfl, rfl, rfl, rfl, rfl, nofun⟩

end

/-- Settles O42: reset is a fresh state whose configuration is well-formed. -/
theorem resetMeetsInvariants : Obligations.ResetMeetsInvariants := by
  unfold Obligations.ResetMeetsInvariants
  exact ⟨
    ⟨ringInv_fresh _ _ _ machine_ringOk, lineInv_fresh .., hostInv_fresh .., panelInv_fresh .., timingInv_fresh ..⟩,
    fun _ _ _ h => ⟨ringInv_fresh _ _ _ h, lineInv_fresh .., hostInv_fresh .., panelInv_fresh .., timingInv_fresh ..⟩⟩

end Sys2Proof.Machine
end

section
/-! PROOFS. The frame of the Serial Transport Unit's four operations (20_memory.md R57, 40_serial_transport.md R116,
R118) and the agent that takes a step (20_memory.md R60). -/

namespace Sys2Proof.Machine

open Sys2Proof

/-! ## What the Serial Transport Unit leaves alone -/

/-- `t` is `s` but for what the Serial Transport Unit may write: its lines, depth, trace and result, and the draws
(R57); the HW backend drives no line (R116) and the BB backend takes no draw (R118). -/
structure SerialFrame (s t : State) : Prop where
  only : t = { s with cs := t.cs, scl := t.scl, sda := t.sda, depth := t.depth, wire := t.wire, result := t.result,
                      draws := t.draws }
  hw_lines : s.cfg.kind = .hw → t.cs = s.cs ∧ t.scl = s.scl ∧ t.sda = s.sda
  bb_draws : s.cfg.kind = .bb → t.draws = s.draws

theorem SerialFrame.refl (s : State) : SerialFrame s s := ⟨rfl, fun _ => ⟨rfl, rfl, rfl⟩, fun _ => rfl⟩

theorem SerialFrame.cfg {s t : State} (h : SerialFrame s t) : t.cfg = s.cfg := by rw [h.only]

theorem SerialFrame.storage {s t : State} (h : SerialFrame s t) : t.storage = s.storage := by rw [h.only]

theorem SerialFrame.trans {s t u : State} (h : SerialFrame s t) (h' : SerialFrame t u) : SerialFrame s u where
  only := by rw [h'.only, h.only]
  hw_lines hk := by
    obtain ⟨hcs, hscl, hsda⟩ := h.hw_lines hk
    obtain ⟨hcs', hscl', hsda'⟩ := h'.hw_lines (by rw [h.cfg, hk])
    exact ⟨hcs'.trans hcs, hscl'.trans hscl, hsda'.trans hsda⟩
  bb_draws hk := (h'.bb_draws (by rw [h.cfg, hk])).trans (h.bb_draws hk)

/-- Chip-select is asserted under BB only (R114). -/
theorem sessionOpen_serialFrame (s : State) : SerialFrame s (sessionOpen s) := by
  rw [sessionOpen_eq]
  exact ⟨rfl, fun hk => by simp [hk], fun _ => rfl⟩

/-- Chip-select is released under BB only (R115). -/
theorem sessionClose_serialFrame (s : State) : SerialFrame s (sessionClose s) := by
  rw [sessionClose_eq]
  exact ⟨rfl, fun hk => by simp [hk], fun _ => rfl⟩

theorem setResult_serialFrame (s : State) (r : Result) : SerialFrame s (s.setResult r) :=
  ⟨rfl, fun _ => ⟨rfl, rfl, rfl⟩, fun _ => rfl⟩

/-- A BB frame drives clock and data and draws nothing; a HW frame uses one draw and drives no line (R113, R117). -/
theorem emitFrame_serialFrame (cd : Level) (b : Byte) (s : State) : SerialFrame s (emitFrame cd b s).2 := by
  cases hk : s.cfg.kind with
  | bb =>
    rw [emitFrame_bb hk, frameBB_eq]
    exact ⟨rfl, fun hk' => (nomatch hk.symm.trans hk'), fun _ => rfl⟩
  | hw =>
    rw [emitFrame_hw hk, frameHW]
    split <;> exact ⟨rfl, fun _ => ⟨rfl, rfl, rfl⟩, fun hk' => nomatch hk.symm.trans hk'⟩

/-- The loop of ST_DATA keeps what every data frame keeps. -/
theorem sendData_keeps {P : State → Prop} (hframe : ∀ s b, P s → P (emitFrame true b s).2) (bytes : List Byte)
    {s : State} (hP : P s) : P (sendData bytes s).2 := by
  induction bytes generalizing s with
  | nil => exact hP
  | cons b bytes ih =>
    have hsent := hframe s b hP
    rw [sendData]
    split
    · next t ht => rw [ht] at hsent; exact ih hsent
    · next e t ht => rw [ht] at hsent; exact hsent

theorem sendData_serialFrame (bytes : List Byte) (s : State) : SerialFrame s (sendData bytes s).2 :=
  sendData_keeps (fun _ b h => h.trans (emitFrame_serialFrame true b _)) bytes (.refl s)

/-- A session around some frames, with their result noted. -/
theorem session_serialFrame {s t : State} (h : SerialFrame (sessionOpen s) t) (r : Result) :
    SerialFrame s ((sessionClose t).setResult r) :=
  (((sessionOpen_serialFrame s).trans h).trans (sessionClose_serialFrame t)).trans (setResult_serialFrame ..)

/-- A session around some frames ends at the depth it began at. -/
theorem session_depth {s t : State} (h : SameButFrames (sessionOpen s) t) (r : Result) :
    ((sessionClose t).setResult r).depth = s.depth := by
  rw [State.setResult_depth, sessionClose_eq]
  simp only [h.depth, sessionOpen_eq, Nat.add_sub_cancel]

/-- An ST_END that records no fault closes a session (R120). -/
theorem exec_stEnd_of_faults_eq {s t : State} (h : exec .stEnd s = .next t) (hf : t.faults = s.faults) :
    t = sessionClose s := by
  simp only [exec, execStEnd] at h
  split at h <;> injection h with h <;> subst h
  · simp at hf
  · rfl

/-- Settles O16: each operation is made of session changes, frames and a noted result, and these keep the frame. -/
theorem serialOperationsFrame : Obligations.SerialOperationsFrame := by
  unfold Obligations.SerialOperationsFrame
  intro i s t hi he hf
  have hframe : SerialFrame s t := by
    rcases hi with rfl | rfl | ⟨b, rfl⟩ | ⟨bytes, rfl⟩
    · injection he with he; exact he ▸ sessionOpen_serialFrame s
    · exact exec_stEnd_of_faults_eq he hf ▸ sessionClose_serialFrame s
    · injection he with he; exact he ▸ session_serialFrame (emitFrame_serialFrame ..) _
    · injection he with he; exact he ▸ session_serialFrame (sendData_serialFrame ..) _
  refine ⟨hframe.only, fun a => by rw [hframe.storage], hframe.hw_lines, hframe.bb_draws, ?_, ?_⟩
  · rintro (rfl | rfl)
    · injection he with he
      rw [← he, sessionOpen_eq]
      exact ⟨rfl, rfl, rfl, rfl⟩
    · rw [exec_stEnd_of_faults_eq he hf, sessionClose_eq]
      exact ⟨rfl, rfl, rfl, rfl⟩
  · rintro (⟨b, rfl⟩ | ⟨bytes, rfl⟩) <;> injection he with he <;> rw [← he]
    · exact session_depth (emitFrame_frame ..) _
    · exact session_depth (sendData_frame ..) _

/-! ## The agent that steps -/

theorem step_of_no_fault {s : State} (h : s.faults = []) : step s = agentStep s := by simp only [step, h]

theorem agentStep_owned {s : State} (hp : s.phase = .owned) : agentStep s = hostStep s := by simp only [agentStep, hp]

theorem agentStep_shared_idle {s : State} (hp : s.phase = .shared) (ht : s.host.todo = []) :
    agentStep s = .next (dmaStep s) := by simp only [agentStep, hp, ht]

theorem agentStep_shared_dma {s : State} (hp : s.phase = .shared) (ht : s.host.todo ≠ []) (ha : s.drawnAgent = .dma) :
    agentStep s = .next (dmaStep s.takeChoice) := by
  obtain ⟨c, rest, ht⟩ := List.exists_cons_of_ne_nil ht
  simp only [agentStep, hp, ht, ha]

theorem agentStep_shared_host {s : State} (hp : s.phase = .shared) (ht : s.host.todo ≠ []) (ha : s.drawnAgent = .host) :
    agentStep s = hostStep s.takeChoice := by
  obtain ⟨c, rest, ht⟩ := List.exists_cons_of_ne_nil ht
  simp only [agentStep, hp, ht, ha]

/-- Settles O33: without a fault the step is `agentStep`'s, which draws from the schedule only where both agents are
enabled (the model's choice, log 7). -/
theorem scheduleChoosesAgent : Obligations.ScheduleChoosesAgent := by
  unfold Obligations.ScheduleChoosesAgent
  intro s hf
  rw [step_of_no_fault hf]
  exact ⟨agentStep_owned, agentStep_shared_idle, agentStep_shared_dma, agentStep_shared_host⟩

end Sys2Proof.Machine
end

section
/-! PROOFS. The decoder and the encoder are inverse on well-formed operations (30_encoding.md R83 to R89), and the rows of
the opcode table are exactly the words that decode (R88). -/

namespace Sys2Proof

/-! ## What each format accepts -/

/-- Format B's `arg` is its byte under 16 zeros. -/
theorem arg_eq_byte_iff {a : BitVec 24} {b : Byte} :
    a = b.setWidth 24 ↔ a.extractLsb' 8 16 = 0#16 ∧ a.extractLsb' 0 8 = b := by
  rw [arg_high16_eq_zero_iff, arg_low8, ← BitVec.toNat_inj, ← BitVec.toNat_inj]
  simp only [BitVec.toNat_setWidth, BitVec.toNat_ofNat]
  omega

theorem getLsbD_zero_eq_iff {a : BitVec 24} {v : Level} : a.getLsbD 0 = v ↔ a.toNat % 2 = v.toNat := by
  rw [BitVec.getLsbD, Nat.testBit_zero]
  cases v <;> simp

/-- Format V's `arg` is its level under 23 zeros. -/
theorem arg_eq_level_iff {a : BitVec 24} {v : Level} :
    a = (BitVec.ofBool v).setWidth 24 ↔ a.extractLsb' 1 23 = 0#23 ∧ a.getLsbD 0 = v := by
  have hv := v.toNat_lt
  rw [arg_high23_eq_zero_iff, getLsbD_zero_eq_iff, ← BitVec.toNat_inj, BitVec.toNat_setWidth, BitVec.toNat_ofBool]
  omega

/-- Format L's `arg` is the number of its bytes. -/
theorem arg_eq_length_iff {a : BitVec 24} {n : Nat} : n = a.toNat ↔ n < maxPayload ∧ a = BitVec.ofNat 24 n := by
  have ha := a.isLt
  rw [maxPayload, ← BitVec.toNat_inj, BitVec.toNat_ofNat]
  omega

theorem noPayload_eq_ok {op : Op} {r : Except Reject Instr} {i : Instr} :
    noPayload op r = .ok i ↔ op.payload = [] ∧ r = .ok i := by
  unfold noPayload
  split <;> simp [*]

theorem decodeN_eq_ok {op : Op} {i j : Instr} :
    decodeN op j = .ok i ↔ op.payload = [] ∧ argOf op.word = 0#24 ∧ j = i := by
  rw [decodeN, noPayload_eq_ok]
  split <;> simp [*]

theorem decodeB_eq_ok {op : Op} {f : Byte → Instr} {i : Instr} :
    decodeB op f = .ok i ↔ op.payload = [] ∧ ∃ b : Byte, argOf op.word = b.setWidth 24 ∧ f b = i := by
  rw [decodeB, noPayload_eq_ok]
  split <;> simp [arg_eq_byte_iff, *]

theorem decodeL_eq_ok {op : Op} {f : List Byte → Instr} {i : Instr} :
    decodeL op f = .ok i ↔
      op.payload.length < maxPayload ∧ argOf op.word = BitVec.ofNat 24 op.payload.length ∧ f op.payload = i := by
  rw [decodeL, ← and_assoc, ← arg_eq_length_iff]
  split <;> simp [*]

theorem decodeV_eq_ok {op : Op} {f : Level → Instr} {i : Instr} :
    decodeV op f = .ok i ↔ op.payload = [] ∧ ∃ v : Level, argOf op.word = (BitVec.ofBool v).setWidth 24 ∧ f v = i := by
  rw [decodeV, noPayload_eq_ok]
  split <;> simp only [arg_eq_level_iff, *] <;> simp

theorem decodeD_eq_ok {op : Op} {f : BitVec 24 → Instr} {i : Instr} :
    decodeD op f = .ok i ↔ op.payload = [] ∧ f (argOf op.word) = i := by
  rw [decodeD, noPayload_eq_ok, Except.ok.injEq]

/-! ## Decoding and encoding -/

theorem op_of_fields {op : Op} {k : Nat} {a : BitVec 24} {bytes : List Byte} (hopc : (opcOf op.word).toNat = k)
    (harg : argOf op.word = a) (hbytes : op.payload = bytes) : (⟨opWord (BitVec.ofNat 8 k) a, bytes⟩ : Op) = op := by
  rw [opWord_of_fields hopc harg, ← hbytes]

theorem encode_of_decodeN {op : Op} {k : Nat} {i j : Instr} (hopc : (opcOf op.word).toNat = k)
    (h : decodeN op j = .ok i) : j = i ∧ (⟨opWord (BitVec.ofNat 8 k) 0#24, []⟩ : Op) = op := by
  obtain ⟨hp, harg, hi⟩ := decodeN_eq_ok.1 h
  exact ⟨hi, op_of_fields hopc harg hp⟩

theorem encode_of_decodeL {op : Op} {k : Nat} {f : List Byte → Instr} {i : Instr} (hopc : (opcOf op.word).toNat = k)
    (h : decodeL op f = .ok i) :
    f op.payload = i ∧ encodeL (BitVec.ofNat 8 k) op.payload = op ∧ decide (op.payload.length < maxPayload) = true := by
  obtain ⟨hlen, harg, hi⟩ := decodeL_eq_ok.1 h
  exact ⟨hi, op_of_fields hopc harg rfl, decide_eq_true hlen⟩

/-- What decodes is the encoding of a well-formed operation. -/
theorem encode_of_decode {op : Op} {i : Instr} (h : decode op = .ok i) : encode i = op ∧ i.wf = true := by
  unfold decode at h
  split at h
  case h_1 hopc => obtain ⟨rfl, hop⟩ := encode_of_decodeN hopc h; exact ⟨hop, rfl⟩
  case h_2 hopc => obtain ⟨rfl, hop⟩ := encode_of_decodeN hopc h; exact ⟨hop, rfl⟩
  case h_3 hopc => obtain ⟨hp, b, harg, rfl⟩ := decodeB_eq_ok.1 h; exact ⟨op_of_fields hopc harg hp, rfl⟩
  case h_4 hopc => obtain ⟨rfl, hop⟩ := encode_of_decodeL hopc h; exact hop
  case h_5 hopc => obtain ⟨rfl, hop⟩ := encode_of_decodeL hopc h; exact hop
  case h_6 hopc => obtain ⟨rfl, hop⟩ := encode_of_decodeN hopc h; exact ⟨hop, rfl⟩
  case h_7 hopc => obtain ⟨rfl, hop⟩ := encode_of_decodeL hopc h; exact hop
  case h_8 hopc => obtain ⟨hp, v, harg, rfl⟩ := decodeV_eq_ok.1 h; exact ⟨op_of_fields hopc harg hp, rfl⟩
  case h_9 hopc => obtain ⟨hp, rfl⟩ := decodeD_eq_ok.1 h; exact ⟨op_of_fields hopc rfl hp, rfl⟩
  case h_10 => cases h

/-- The `opc` of an operation's row (30_encoding.md R86). -/
def Instr.opc : Instr → BitVec 8
  | .stBegin => 1#8
  | .stEnd => 2#8
  | .stCmd _ => 3#8
  | .stData _ => 4#8
  | .rbPush _ => 5#8
  | .txStart => 6#8
  | .txPush _ => 7#8
  | .rstSet _ => 8#8
  | .delayUs _ => 9#8

theorem opcOf_encode (i : Instr) : opcOf (encode i).word = i.opc := by
  cases i <;> exact opcOf_opWord ..

/-- Settles O1, format by format: each one's decoder reads back the field that `encode` has written. -/
theorem decodeOfEncode : Obligations.DecodeOfEncode := by
  unfold Obligations.DecodeOfEncode
  intro i hwf
  rw [decode_of_opc _ (congrArg BitVec.toNat (opcOf_encode i))]
  cases i with
  | stBegin | stEnd | txStart => exact decodeN_eq_ok.2 ⟨rfl, argOf_opWord .., rfl⟩
  | stCmd b => exact decodeB_eq_ok.2 ⟨rfl, b, argOf_opWord .., rfl⟩
  | stData _ | rbPush _ | txPush _ => exact decodeL_eq_ok.2 ⟨of_decide_eq_true hwf, argOf_opWord .., rfl⟩
  | rstSet v => exact decodeV_eq_ok.2 ⟨rfl, v, argOf_opWord .., rfl⟩
  | delayUs us => exact decodeD_eq_ok.2 ⟨rfl, congrArg Instr.delayUs (argOf_opWord ..)⟩

/-- Exactly the encodings of the well-formed operations decode. -/
theorem decode_eq_ok_iff {op : Op} {i : Instr} : decode op = .ok i ↔ encode i = op ∧ i.wf = true :=
  ⟨encode_of_decode, fun ⟨hop, hwf⟩ => hop ▸ decodeOfEncode i hwf⟩

/-- An operation's word lies in the row that bears its mnemonic, and its payload is as long as the word says. -/
theorem encode_in_row : ∀ i : Instr, Laws.TableRow.Statement i
  | .stBegin => Laws.TableRow.stBegin
  | .stEnd => Laws.TableRow.stEnd
  | .stCmd b => Laws.TableRow.stCmd b
  | .stData bytes => Laws.TableRow.stData bytes
  | .rbPush bytes => Laws.TableRow.rbPush bytes
  | .txStart => Laws.TableRow.txStart
  | .txPush bytes => Laws.TableRow.txPush bytes
  | .rstSet v => Laws.TableRow.rstSet v
  | .delayUs us => Laws.TableRow.delayUs us

/-- What decodes lies in the row of its mnemonic, with a payload as long as its word says. -/
theorem row_of_decode {op : Op} {i : Instr} (h : decode op = .ok i) :
    (∃ row ∈ opcodeTable, row.mnemonic = i.mnemonic ∧ op.word &&& row.mask = row.value) ∧
      op.payload.length = payloadLength op.word := by
  obtain ⟨rfl, hwf⟩ := encode_of_decode h
  obtain ⟨hrow, hlen⟩ := encode_in_row i
  exact ⟨hrow, hlen hwf⟩

/-- Settles O2: the word that decodes is the one that `encode` writes, in its row of the table. -/
theorem encodeOfDecode : Obligations.EncodeOfDecode := by
  unfold Obligations.EncodeOfDecode
  intro op i h
  obtain ⟨hop, hwf⟩ := encode_of_decode h
  obtain ⟨-, hlen⟩ := row_of_decode h
  exact ⟨hop, hwf, by rw [opLength, hlen]⟩

/-! ## The rows of the opcode table -/

theorem row_eq_of_mnemonic {r r' : OpRow} (h : r ∈ opcodeTable) (h' : r' ∈ opcodeTable)
    (hm : r.mnemonic = r'.mnemonic) : r = r' :=
  List.inj_on_of_nodup_map (f := OpRow.mnemonic) (by decide) h h' hm

/-- A word under a mask of high bits is that word with its low bits cleared. -/
theorem toNat_and_highBits (w : OpWord) (n : Nat) :
    (w &&& BitVec.allOnes 32 <<< n).toNat = w.toNat / 2 ^ n * 2 ^ n := by
  have hw : w.toNat / 2 ^ n * 2 ^ n < 2 ^ 32 := Nat.lt_of_le_of_lt (Nat.div_mul_le_self ..) w.isLt
  rw [← BitVec.shiftLeft_ushiftRight, BitVec.toNat_shiftLeft, BitVec.toNat_ushiftRight, Nat.shiftLeft_eq,
    Nat.shiftRight_eq_div_pow, Nat.mod_eq_of_lt hw]

section
variable {w : OpWord} {m : Nat} (hm : m < 2 ^ 32)
include hm

/-- The words that a mask of high bits selects. -/
theorem and_highBits_eq_iff (n : Nat) :
    w &&& BitVec.allOnes 32 <<< n = BitVec.ofNat 32 m ↔ w.toNat / 2 ^ n * 2 ^ n = m := by
  rw [← BitVec.toNat_inj, toNat_and_highBits, BitVec.toNat_ofNat, Nat.mod_eq_of_lt hm]

/-! The four masks of spec/opcode_table.json: a row of format N, of format B, of format L or D, and of format V. -/

theorem and_maskN_iff : w &&& 0xFFFFFFFF#32 = BitVec.ofNat 32 m ↔ w.toNat = m :=
  (and_highBits_eq_iff hm 0).trans (by rw [Nat.pow_zero, Nat.div_one, Nat.mul_one])

theorem and_maskB_iff : w &&& 0xFFFFFF00#32 = BitVec.ofNat 32 m ↔ w.toNat / 0x100 * 0x100 = m :=
  and_highBits_eq_iff hm 8

theorem and_maskOpc_iff : w &&& 0xFF000000#32 = BitVec.ofNat 32 m ↔ w.toNat / 0x1000000 * 0x1000000 = m :=
  and_highBits_eq_iff hm 24

theorem and_maskV_iff : w &&& 0xFFFFFFFE#32 = BitVec.ofNat 32 m ↔ w.toNat / 2 * 2 = m := and_highBits_eq_iff hm 1

end

/-- The word's `opc` is one of the three of format L (30_encoding.md R85, R86). -/
abbrev IsFormatL (w : OpWord) : Prop :=
  w.toNat / 0x1000000 = 4 ∨ w.toNat / 0x1000000 = 5 ∨ w.toNat / 0x1000000 = 7

theorem payloadLength_of_formatL {w : OpWord} (h : IsFormatL w) : payloadLength w = w.toNat % 0x1000000 := by
  rw [IsFormatL, ← opcOf_toNat] at h
  rw [← argOf_toNat]
  obtain h | h | h := h <;> simp only [payloadLength, h]

theorem payloadLength_of_not_formatL {w : OpWord} (h : ¬IsFormatL w) : payloadLength w = 0 := by
  rw [IsFormatL, ← opcOf_toNat] at h
  unfold payloadLength
  split <;> omega

theorem decode_of_fields {w : OpWord} {bytes : List Byte} {k : Nat} {a : BitVec 24} {i : Instr}
    (hopc : w.toNat / 0x1000000 = k) (harg : w.toNat % 0x1000000 = a.toNat)
    (hi : encode i = ⟨opWord (BitVec.ofNat 8 k) a, bytes⟩) (hwf : i.wf = true) : decode ⟨w, bytes⟩ = .ok i := by
  have ha : argOf w = a := by rw [← BitVec.toNat_inj, argOf_toNat, harg]
  rw [decode_eq_ok_iff, hi]
  exact ⟨op_of_fields (by rw [opcOf_toNat, hopc]) ha rfl, hwf⟩

section
variable {w : OpWord} {k : Nat} {i : Instr}

theorem decode_formatN (hi : encode i = ⟨opWord (BitVec.ofNat 8 k) 0#24, []⟩) (hwf : i.wf = true)
    (hopc : w.toNat / 0x1000000 = k) (harg : w.toNat % 0x1000000 = 0) : decode ⟨w, []⟩ = .ok i :=
  decode_of_fields (a := 0#24) hopc harg hi hwf

theorem decode_formatB (hopc : w.toNat / 0x1000000 = 0x03) (harg : w.toNat % 0x1000000 < 256) :
    decode ⟨w, []⟩ = .ok (.stCmd (BitVec.ofNat 8 (w.toNat % 0x1000000))) := by
  refine decode_of_fields hopc ?_ rfl rfl
  rw [BitVec.toNat_setWidth, BitVec.toNat_ofNat]
  omega

theorem decode_formatL {bytes : List Byte} (hi : encode i = encodeL (BitVec.ofNat 8 k) bytes)
    (hwf : i.wf = decide (bytes.length < maxPayload)) (hopc : w.toNat / 0x1000000 = k)
    (harg : bytes.length = w.toNat % 0x1000000) : decode ⟨w, bytes⟩ = .ok i := by
  obtain ⟨hlen, ha⟩ := arg_eq_length_iff.1 (harg.trans (argOf_toNat w).symm)
  refine decode_of_fields hopc ?_ hi (hwf.trans (decide_eq_true hlen))
  rw [← ha, argOf_toNat]

theorem decode_formatV (hopc : w.toNat / 0x1000000 = 0x08) (harg : w.toNat % 0x1000000 < 2) :
    decode ⟨w, []⟩ = .ok (.rstSet (decide (w.toNat % 0x1000000 = 1))) := by
  refine decode_of_fields hopc ?_ rfl rfl
  obtain h | h : w.toNat % 0x1000000 = 0 ∨ w.toNat % 0x1000000 = 1 := by omega
  all_goals rw [h]; rfl

theorem decode_formatD (hopc : w.toNat / 0x1000000 = 0x09) :
    decode ⟨w, []⟩ = .ok (.delayUs (BitVec.ofNat 24 (w.toNat % 0x1000000))) := by
  refine decode_of_fields hopc ?_ rfl rfl
  rw [BitVec.toNat_ofNat]
  omega

end

/-- A row's words decode to its mnemonic where the payload is as long as the word says. -/
theorem decode_of_row {row : OpRow} (hrow : row ∈ opcodeTable) {w : OpWord} {bytes : List Byte}
    (hword : w &&& row.mask = row.value) (hlen : bytes.length = payloadLength w) :
    ∃ i, decode ⟨w, bytes⟩ = .ok i ∧ i.mnemonic = row.mnemonic := by
  have hL (h : IsFormatL w) : bytes.length = w.toNat % 0x1000000 := hlen.trans (payloadLength_of_formatL h)
  have hnil (h : ¬IsFormatL w) : bytes = [] :=
    List.eq_nil_of_length_eq_zero (hlen.trans (payloadLength_of_not_formatL h))
  simp only [opcodeTable, List.mem_cons, List.not_mem_nil, or_false] at hrow
  rcases hrow with rfl | rfl | rfl | rfl | rfl | rfl | rfl | rfl | rfl
  · have hw := (and_maskN_iff (by decide)).1 hword
    obtain rfl := hnil (by omega)
    exact ⟨.stBegin, decode_formatN (k := 1) rfl rfl (by omega) (by omega), rfl⟩
  · have hw := (and_maskN_iff (by decide)).1 hword
    obtain rfl := hnil (by omega)
    exact ⟨.stEnd, decode_formatN (k := 2) rfl rfl (by omega) (by omega), rfl⟩
  · have hw := (and_maskB_iff (by decide)).1 hword
    obtain rfl := hnil (by omega)
    exact ⟨_, decode_formatB (by omega) (by omega), rfl⟩
  · have hw := (and_maskOpc_iff (by decide)).1 hword
    exact ⟨.stData bytes, decode_formatL (k := 4) rfl rfl (by omega) (hL (by omega)), rfl⟩
  · have hw := (and_maskOpc_iff (by decide)).1 hword
    exact ⟨.rbPush bytes, decode_formatL (k := 5) rfl rfl (by omega) (hL (by omega)), rfl⟩
  · have hw := (and_maskN_iff (by decide)).1 hword
    obtain rfl := hnil (by omega)
    exact ⟨.txStart, decode_formatN (k := 6) rfl rfl (by omega) (by omega), rfl⟩
  · have hw := (and_maskOpc_iff (by decide)).1 hword
    exact ⟨.txPush bytes, decode_formatL (k := 7) rfl rfl (by omega) (hL (by omega)), rfl⟩
  · have hw := (and_maskV_iff (by decide)).1 hword
    obtain rfl := hnil (by omega)
    exact ⟨_, decode_formatV (by omega) (by omega), rfl⟩
  · have hw := (and_maskOpc_iff (by decide)).1 hword
    obtain rfl := hnil (by omega)
    exact ⟨_, decode_formatD (by omega), rfl⟩

theorem decode_row_iff {row : OpRow} (hrow : row ∈ opcodeTable) (op : Op) :
    (∃ i, decode op = .ok i ∧ i.mnemonic = row.mnemonic) ↔
      (op.word &&& row.mask = row.value ∧ op.payload.length = payloadLength op.word) := by
  constructor
  · rintro ⟨i, hi, hmnemonic⟩
    obtain ⟨⟨row', hrow', hmnemonic', hword⟩, hlen⟩ := row_of_decode hi
    obtain rfl := row_eq_of_mnemonic hrow' hrow (hmnemonic'.trans hmnemonic)
    exact ⟨hword, hlen⟩
  · rintro ⟨hword, hlen⟩
    exact decode_of_row hrow hword hlen

/-- Settles O3: the format lemmas give the case table, and `decode_row_iff` the words of a row. That a payload beside a
word of format N, B, V or D does not decode is the model's choice (log 9). -/
theorem decodeSelectsOperation : Obligations.DecodeSelectsOperation := by
  unfold Obligations.DecodeSelectsOperation
  exact ⟨fun w =>
    ⟨decode_formatN rfl rfl, decode_formatN rfl rfl, decode_formatB,
      fun bytes hlen =>
        ⟨(decode_formatL rfl rfl · hlen), (decode_formatL rfl rfl · hlen), (decode_formatL rfl rfl · hlen)⟩,
      decode_formatN rfl rfl, decode_formatV, decode_formatD⟩,
    fun row hrow op => decode_row_iff hrow op⟩

/-- What decodes is a word of some row with a payload as long as the word says (30_encoding.md R84, R87). -/
theorem decodes_iff (op : Op) :
    (∃ i, decode op = .ok i) ↔
      (∃ row ∈ opcodeTable, op.word &&& row.mask = row.value) ∧ op.payload.length = payloadLength op.word := by
  constructor
  · rintro ⟨i, hi⟩
    obtain ⟨⟨row, hrow, -, hword⟩, hlen⟩ := row_of_decode hi
    exact ⟨⟨row, hrow, hword⟩, hlen⟩
  · rintro ⟨⟨row, hrow, hword⟩, hlen⟩
    obtain ⟨i, hi, -⟩ := decode_of_row hrow hword hlen
    exact ⟨i, hi⟩

end Sys2Proof
end

section
/-! PROOFS. Illegal operations (30_encoding.md R87), a table word as the next operation (log 22), and the levels that a
frame puts on the wire (R80, R81). -/

namespace Sys2Proof.Machine

open Sys2Proof

/-! ## Illegal operations -/

/-- The words that lie in a row of the opcode table: a used `opc` with zeros in its must-be-zero field. -/
theorem row_exists_iff (w : OpWord) :
    (∃ row ∈ opcodeTable, w &&& row.mask = row.value) ↔
      (w.toNat / 0x1000000 = 1 ∨ w.toNat / 0x1000000 = 2 ∨ w.toNat / 0x1000000 = 6) ∧ w.toNat % 0x1000000 = 0 ∨
        w.toNat / 0x1000000 = 3 ∧ w.toNat % 0x1000000 / 0x100 = 0 ∨
        w.toNat / 0x1000000 = 8 ∧ w.toNat % 0x1000000 / 2 = 0 ∨
        IsFormatL w ∨ w.toNat / 0x1000000 = 9 := by
  simp only [opcodeTable, List.exists_mem_cons_iff, List.not_mem_nil, false_and, exists_false, or_false]
  rw [and_maskN_iff (by decide), and_maskN_iff (by decide), and_maskB_iff (by decide), and_maskOpc_iff (by decide),
    and_maskOpc_iff (by decide), and_maskN_iff (by decide), and_maskOpc_iff (by decide), and_maskV_iff (by decide),
    and_maskOpc_iff (by decide)]
  omega

/-- An operation that decodes to nothing is not executed (R87). -/
theorem raisesIllegal_of_not_decodes {op : Op} (h : ¬∃ i, decode op = .ok i) : RaisesIllegal op := by
  intro s
  cases hd : decode op with
  | ok i => exact absurd ⟨i, hd⟩ h
  | error r => exact issueOp_error hd s

/-- Settles O5: by `decodes_iff`, what is illegal is a word in no row or a payload that is not as long as the word says. -/
theorem illegalOperationsExactly : Obligations.IllegalOperationsExactly := by
  unfold Obligations.IllegalOperationsExactly
  refine ⟨fun op hpayload => ?_, by decide⟩
  have hiff := decodes_iff op
  have hrow := row_exists_iff op.word
  by_cases hL : IsFormatL op.word
  · rw [payloadLength_of_formatL hL] at hiff
    split
    · next h => exact raisesIllegal_of_not_decodes (by rw [hiff]; omega)
    · next h => exact hiff.2 (by rw [hrow]; omega)
  · rw [payloadLength_of_not_formatL hL, hpayload hL, List.length_nil] at hiff
    split
    · next h => exact raisesIllegal_of_not_decodes (by rw [hiff, hrow]; omega)
    · next h => exact hiff.2 (by rw [hrow]; omega)

/-! ## A table word as the next operation -/

theorem decodeTableWord_eq_some {nbits w : Nat} {i : Instr} :
    decodeTableWord nbits w = some i ↔ decode (tableOp nbits w) = .ok i := by
  unfold decodeTableWord
  split <;> simp [*]

theorem withNextOp_owned {s : State} (hp : s.phase = .owned) (op : Op) :
    s.withNextOp op = s.pushTodo [.issue op] := by simp only [State.withNextOp, hp]

theorem withNextOp_shared {s : State} (hp : s.phase = .shared) (op : Op) :
    s.withNextOp op = { s.pushTodo [.issue op] with draws := s.draws.withGap (s.draws.gap + 1) } := by
  simp only [State.withNextOp, hp]

/-- Settles O7: `withFetchWord` puts the word's operation first on the to-do list, and in phase SHARED leaves the host the
choice that issues it, so `stepRunsDecodedOperation` applies (the payload's layout in the word is log 22's). -/
theorem tableWordRunsNext : Obligations.TableWordRunsNext := by
  unfold Obligations.TableWordRunsNext
  intro s nbits w i hf hd
  have hstep (t : State) (ht : t.faults = s.faults) (htodo : t.host.todo = .issue (tableOp nbits w) :: s.host.todo) :=
    stepRunsDecodedOperation t _ _ i (ht.trans hf) htodo (decodeTableWord_eq_some.1 hd)
  constructor
  · intro hp
    rw [State.withFetchWord, withNextOp_owned hp]
    obtain ⟨howned, -⟩ := hstep (s.pushTodo [.issue (tableOp nbits w)]) rfl rfl
    exact howned hp
  · intro hp
    rw [State.withFetchWord, withNextOp_shared hp]
    obtain ⟨-, hshared⟩ := hstep { s.pushTodo [.issue (tableOp nbits w)] with draws := s.draws.withGap (s.draws.gap + 1) }
      rfl rfl
    exact hshared hp rfl

/-! ## Frames -/

theorem frameWord_toNat (cd : Level) (b : Byte) : (frameWord cd b).toNat = cd.toNat * 256 + b.toNat := by
  have hb := b.isLt
  have hcd := cd.toNat_lt
  simp only [frameWord, BitVec.toNat_add, BitVec.toNat_mul, BitVec.toNat_setWidth, BitVec.toNat_ofBool, BitVec.toNat_ofNat]
  omega

/-- Settles O17: value, control bit and byte of the frame word. -/
theorem frameWordFields : Obligations.FrameWordFields :=
  fun cd b => ⟨frameWord_toNat cd b, frameWord_control cd b, frameWord_payload cd b⟩

theorem frameWord_getLsbD_of_lt (cd : Level) (b : Byte) {i : Nat} (hi : i < 8) :
    (frameWord cd b).getLsbD i = b.getLsbD i := by
  have h := congrArg (·.getLsbD i) (frameWord_payload cd b)
  simpa [BitVec.getLsbD_setWidth, hi] using h

namespace Trace

/-- A slot has one rising clock edge, and the data level at it is the slot's. -/
theorem samples_slot (cfg : Config) (scl sda v : Level) (t : List Event) :
    samples scl sda (slot cfg v ++ t) = v :: samples true v t := by simp [slot, samples]

theorem samples_slots (cfg : Config) (vs : List Level) (scl sda : Level) (ns : Nat) :
    samples scl sda (slots cfg vs ++ [.wait ns]) = vs := by
  induction vs generalizing scl sda with
  | nil => rfl
  | cons v vs ih => rw [slots, List.flatMap_cons, List.append_assoc, samples_slot, ← slots, ih]

end Trace

/-- Settles O18: under BB a frame appends the slots of its nine levels. -/
theorem frameSampledControlBitFirst : Obligations.FrameSampledControlBitFirst := by
  unfold Obligations.FrameSampledControlBitFirst
  intro cd b s hk
  refine ⟨Trace.frame s.cfg cd b, by rw [emitFrame_bb hk, frameBB_eq], ?_⟩
  have hb {i : Nat} (hi : i < 8) := frameWord_getLsbD_of_lt cd b hi
  rw [Trace.frame, Trace.samples_slots, frameBits, frameWord_control, hb (by decide), hb (by decide), hb (by decide),
    hb (by decide), hb (by decide), hb (by decide), hb (by decide), hb (by decide)]

end Sys2Proof.Machine
end

section
/-! PROOFS. The four operations of the Serial Transport Unit in closed form, on either backend, at every depth, with and
without a bus fault (40_serial_transport.md R119 to R122). -/

namespace Sys2Proof.Machine

open Sys2Proof

/-! ## Words outside the table -/

/-- A word in no row of the opcode table is illegal beside every payload (30_encoding.md R87). -/
theorem raisesIllegal_of_no_row {w : OpWord} (h : ¬∃ row ∈ opcodeTable, w &&& row.mask = row.value) (p : List Byte) :
    RaisesIllegal ⟨w, p⟩ :=
  raisesIllegal_of_not_decodes fun hd => h ((decodes_iff ⟨w, p⟩).1 hd).1

/-- A payload of another length than the word says is illegal (R84). -/
theorem raisesIllegal_of_length_ne {w : OpWord} {p : List Byte} (h : p.length ≠ payloadLength w) :
    RaisesIllegal ⟨w, p⟩ :=
  raisesIllegal_of_not_decodes fun hd => h ((decodes_iff ⟨w, p⟩).1 hd).2

/-! ## Sessions -/

/-- Under BB a session around events that leave chip-select alone is bracketed where it is the outermost one (R114,
R115). -/
theorem sessionClose_sessionOpen_bb {s : State} (hk : s.cfg.kind = .bb) (scl sda : Level) (body : List Event) :
    sessionClose { sessionOpen s with scl := scl, sda := sda, wire := (sessionOpen s).wire ++ body } =
      { s with
        cs := if s.depth = 0 then true else s.cs
        scl := scl
        sda := sda
        wire := s.wire ++ Trace.session s.cfg s.depth body } := by
  rw [sessionClose_eq, sessionOpen_eq]
  by_cases hd : s.depth = 0 <;> simp [hk, hd, Trace.session]

/-- Under HW opening a session only counts its depth (R114). -/
theorem sessionOpen_hw {s : State} (hk : s.cfg.kind = .hw) : sessionOpen s = { s with depth := s.depth + 1 } := by
  rw [sessionOpen_eq]
  simp [hk]

/-- Under HW closing a session only counts its depth (R115). -/
theorem sessionClose_hw {s : State} (hk : s.cfg.kind = .hw) : sessionClose s = { s with depth := s.depth - 1 } := by
  rw [sessionClose_eq]
  simp [hk]

/-- Under HW a session leaves nothing but what its frames appended and drew. -/
theorem sessionClose_sessionOpen_hw {s : State} (hk : s.cfg.kind = .hw) (wire : List Event) (draws : Draws) :
    sessionClose { sessionOpen s with wire := wire, draws := draws } = { s with wire := wire, draws := draws } := by
  rw [sessionClose_eq, sessionOpen_hw hk]
  simp [hk]

@[simp] theorem sessionOpen_cfg (s : State) : (sessionOpen s).cfg = s.cfg := (sessionOpen_ringUnchanged s).cfg

theorem sessionOpen_wire_hw {s : State} (hk : s.cfg.kind = .hw) : (sessionOpen s).wire = s.wire := by
  rw [sessionOpen_hw hk]

theorem sessionOpen_draws (s : State) : (sessionOpen s).draws = s.draws := by rw [sessionOpen_eq]

theorem sessionOpen_busOutcome (s : State) (i : Nat) : (sessionOpen s).busOutcome i = s.busOutcome i := by
  rw [State.busOutcome, sessionOpen_draws]
  rfl

@[simp] theorem sessionOpen_depth (s : State) : (sessionOpen s).depth = s.depth + 1 := by rw [sessionOpen_eq]

@[simp] theorem sessionClose_depth (s : State) : (sessionClose s).depth = s.depth - 1 := by rw [sessionClose_eq]

theorem sessionOpen_wire (s : State) :
    (sessionOpen s).wire = s.wire ++ if s.cfg.kind = .bb ∧ s.depth = 0 then Trace.openEvents s.cfg else [] := by
  rw [sessionOpen_eq]

theorem sessionClose_wire (s : State) :
    (sessionClose s).wire = s.wire ++ if s.cfg.kind = .bb ∧ s.depth - 1 = 0 then Trace.closeEvents s.cfg else [] := by
  rw [sessionClose_eq]

/-! ## Frames under HW -/

theorem emitFrame_hw_ok {s : State} (hk : s.cfg.kind = .hw) (hok : s.busOutcome 0 = none) (cd : Level) (b : Byte) :
    emitFrame cd b s =
      (.ok, { s with wire := s.wire ++ [.hwWord (frameWord cd b)], draws := s.draws.takeBus 1 }) :=
  (emitFrame_hw hk cd b).trans (frameHW_ok hok cd b)

theorem emitFrame_hw_err {s : State} {e : Err} (hk : s.cfg.kind = .hw) (herr : s.busOutcome 0 = some e) (cd : Level)
    (b : Byte) :
    emitFrame cd b s =
      (.err e, { s with wire := s.wire ++ [.hwFault (frameWord cd b)], draws := s.draws.takeBus 1 }) :=
  (emitFrame_hw hk cd b).trans (frameHW_err herr cd b)

theorem frameWord_false (b : Byte) : frameWord false b = b.setWidth 9 := by
  rw [← BitVec.toNat_inj, frameWord_toNat, BitVec.toNat_setWidth]
  have hb := b.isLt
  rw [Nat.mod_eq_of_lt (by omega), Bool.toNat_false, Nat.zero_mul, Nat.zero_add]

theorem frameWord_true (b : Byte) : frameWord true b = BitVec.ofNat 9 (0x100 + b.toNat) := by
  rw [← BitVec.toNat_inj, frameWord_toNat, BitVec.toNat_ofNat]
  have hb := b.isLt
  rw [Nat.mod_eq_of_lt (by omega), Bool.toNat_true, Nat.one_mul]

/-! ## ST_END -/

theorem exec_stEnd_underflow {s : State} (hd : s.depth = 0) :
    exec .stEnd s = .next (s.raiseOp .sessionUnderflow Instr.stEnd.word) := by rw [exec, execStEnd, if_pos hd]

theorem exec_stEnd_closes {s : State} (hd : 0 < s.depth) : exec .stEnd s = .next (sessionClose s) := by
  rw [exec, execStEnd, if_neg (Nat.ne_of_gt hd)]

/-! ## ST_CMD and ST_DATA -/

theorem exec_stCmd_of_emitFrame (b : Byte) (s : State) {r : Result} {t : State}
    (h : emitFrame false b (sessionOpen s) = (r, t)) : exec (.stCmd b) s = .next ((sessionClose t).setResult r) := by
  rw [exec, execStCmd, h]

theorem exec_stData_of_sendData (bytes : List Byte) (s : State) {r : Result} {t : State}
    (h : sendData bytes (sessionOpen s) = (r, t)) : exec (.stData bytes) s = .next ((sessionClose t).setResult r) := by
  rw [exec, execStData, h]

theorem exec_stCmd_bb {s : State} (hk : s.cfg.kind = .bb) (b : Byte) :
    exec (.stCmd b) s = .next
      { s with
        cs := if s.depth = 0 then true else s.cs
        scl := true
        sda := b.getLsbD 0
        wire := s.wire ++ Trace.session s.cfg s.depth (Trace.frame s.cfg false b)
        result := .ok } := by
  rw [exec_stCmd_of_emitFrame b s (emitFrame_bb (by rw [sessionOpen_cfg, hk]) ..), frameBB_eq,
    sessionClose_sessionOpen_bb hk, sessionOpen_cfg]
  rfl

theorem exec_stData_bb {s : State} (hk : s.cfg.kind = .bb) (bytes : List Byte) :
    exec (.stData bytes) s = .next
      { s with
        cs := if s.depth = 0 then true else s.cs
        scl := if bytes = [] then s.scl else true
        sda := lastBit bytes s.sda
        wire := s.wire ++ Trace.session s.cfg s.depth (bytes.flatMap (Trace.frame s.cfg true))
        result := .ok } := by
  have hscl : (sessionOpen s).scl = s.scl := by rw [sessionOpen_eq]
  have hsda : (sessionOpen s).sda = s.sda := by rw [sessionOpen_eq]
  rw [exec_stData_of_sendData bytes s (sendData_bb bytes (by rw [sessionOpen_cfg, hk])), sessionClose_sessionOpen_bb hk,
    sessionOpen_cfg, hscl, hsda]
  rfl

section
variable {s : State} (hk : s.cfg.kind = .hw)
include hk

theorem exec_stCmd_hw_ok (b : Byte) (hok : s.busOutcome 0 = none) :
    exec (.stCmd b) s = .next
      { s with
        wire := s.wire ++ [.hwWord (frameWord false b)]
        result := .ok
        draws := s.draws.takeBus 1 } := by
  rw [exec_stCmd_of_emitFrame b s (emitFrame_hw_ok (by rw [sessionOpen_cfg, hk])
    (by rw [sessionOpen_busOutcome, hok]) ..), sessionClose_sessionOpen_hw hk, sessionOpen_wire_hw hk, sessionOpen_draws]
  rfl

theorem exec_stCmd_hw_err (b : Byte) {e : Err} (herr : s.busOutcome 0 = some e) :
    exec (.stCmd b) s = .next
      { s with
        wire := s.wire ++ [.hwFault (frameWord false b)]
        result := .err e
        draws := s.draws.takeBus 1 } := by
  rw [exec_stCmd_of_emitFrame b s (emitFrame_hw_err (by rw [sessionOpen_cfg, hk])
    (by rw [sessionOpen_busOutcome, herr]) ..), sessionClose_sessionOpen_hw hk, sessionOpen_wire_hw hk,
    sessionOpen_draws]
  rfl

theorem exec_stData_hw_ok (bytes : List Byte) (hok : ∀ i < bytes.length, s.busOutcome i = none) :
    exec (.stData bytes) s = .next
      { s with
        wire := s.wire ++ bytes.map fun b => .hwWord (frameWord true b)
        result := .ok
        draws := s.draws.takeBus bytes.length } := by
  rw [exec_stData_of_sendData bytes s (sendData_hw_ok bytes (by rw [sessionOpen_cfg, hk])
    fun i hi => by rw [sessionOpen_busOutcome, hok i hi]), sessionClose_sessionOpen_hw hk, sessionOpen_wire_hw hk,
    sessionOpen_draws]
  rfl

theorem exec_stData_hw_err (sent : List Byte) (b : Byte) (rest : List Byte) {e : Err}
    (hok : ∀ i < sent.length, s.busOutcome i = none) (herr : s.busOutcome sent.length = some e) :
    exec (.stData (sent ++ b :: rest)) s = .next
      { s with
        wire := s.wire ++ (sent.map fun b => .hwWord (frameWord true b)) ++ [.hwFault (frameWord true b)]
        result := .err e
        draws := s.draws.takeBus (sent.length + 1) } := by
  rw [exec_stData_of_sendData _ s (sendData_hw_err sent b rest (by rw [sessionOpen_cfg, hk])
    (fun i hi => by rw [sessionOpen_busOutcome, hok i hi]) (by rw [sessionOpen_busOutcome, herr])),
    sessionClose_sessionOpen_hw hk, sessionOpen_wire_hw hk, sessionOpen_draws]
  rfl

end

/-! ## The four operations -/

/-- Settles O14: ST_CMD is one frame in its own session. -/
theorem stCmdSendsCommandFrame : Obligations.StCmdSendsCommandFrame := by
  unfold Obligations.StCmdSendsCommandFrame
  refine ⟨fun b => ?_, fun w p hopc harg => ?_, fun s b hk => exec_stCmd_bb hk b, fun s b hk hok => ?_,
    fun s b e hk herr => ?_⟩
  · have hb := b.isLt
    refine decode_of_fields (k := 3) (a := b.setWidth 24) ?_ ?_ rfl rfl
    · rw [BitVec.toNat_ofNat]; omega
    · rw [BitVec.toNat_ofNat, BitVec.toNat_setWidth]; omega
  · exact raisesIllegal_of_no_row (by rw [row_exists_iff]; omega) p
  · rw [← frameWord_false, exec_stCmd_hw_ok hk b hok]
  · rw [← frameWord_false, exec_stCmd_hw_err hk b herr]

/-- Settles O15: ST_DATA is the frames of its bytes, up to the first one that fails, in one session. -/
theorem stDataSendsDataFrames : Obligations.StDataSendsDataFrames := by
  unfold Obligations.StDataSendsDataFrames
  refine ⟨fun bytes hlen => ?_, fun w p hopc hlen => ?_, fun s bytes hk => exec_stData_bb hk bytes,
    fun s bytes hk hok => ?_, fun s sent b rest e hk hok herr => ?_⟩
  · refine decode_formatL (k := 4) rfl rfl ?_ ?_
    · rw [BitVec.toNat_ofNat]; omega
    · rw [BitVec.toNat_ofNat]; omega
  · exact raisesIllegal_of_length_ne (by rwa [payloadLength_of_formatL (.inl hopc)])
  · simp only [← frameWord_true, exec_stData_hw_ok hk bytes hok]
  · simp only [← frameWord_true, exec_stData_hw_err hk sent b rest hok herr]

/-- Settles O12: ST_BEGIN opens a session. -/
theorem stBeginOpensSession : Obligations.StBeginOpensSession := by
  unfold Obligations.StBeginOpensSession
  exact ⟨decodeOfEncode .stBegin rfl,
    fun w p hopc harg => raisesIllegal_of_no_row (by rw [row_exists_iff]; omega) p,
    fun s => congrArg Host.Outcome.next (sessionOpen_eq s)⟩

/-- Settles O13: ST_END closes a session where one is open. -/
theorem stEndClosesSession : Obligations.StEndClosesSession := by
  unfold Obligations.StEndClosesSession
  refine ⟨decodeOfEncode .stEnd rfl,
    fun w p hopc harg => raisesIllegal_of_no_row (by rw [row_exists_iff]; omega) p,
    fun s hd => exec_stEnd_underflow hd, fun s hd => ?_⟩
  have hlast : s.depth - 1 = 0 ↔ s.depth = 1 := by omega
  simp only [exec_stEnd_closes hd, sessionClose_eq, hlast, Trace.closeEvents]

end Sys2Proof.Machine
end

section
/-! PROOFS. What the panel receives of hardware frames (40_serial_transport.md R142), and of bit-banged ones in one
bracket or two (R141). -/

namespace Sys2Proof.Machine

open Sys2Proof

/-! ## What the panel receives -/

namespace Panel

theorem received_hwFrames (t : List Event) (cd : Level) (bytes : List Byte) :
    received (t ++ bytes.map fun b => .hwWord (frameWord cd b)) = received t ++ bytes.map (.frame cd) := by
  have hwords := view_hwWords (bytes.map (frameWord cd)) (view View.init t)
  rw [List.map_map, List.map_map] at hwords
  rw [received_append]
  refine (congrArg View.out hwords).trans (congrArg (received t ++ ·) (List.map_congr_left fun b _ => ?_))
  simp only [Function.comp, frameWord_control, frameWord_payload]

theorem received_hwFault (t : List Event) (w : FrameWord) : received (t ++ [.hwFault w]) = received t ++ [.unknown w] :=
  received_append t _

/-- One frame in a bracket of its own, from between two frames. -/
theorem view_bracketedFrame (cfg : Config) (cd : Level) (b : Byte) {p : View} (hcs : p.cs = true) (hbits : p.bits = []) :
    view p (Trace.session cfg 0 (Trace.frame cfg cd b)) =
      { p with scl := true, sda := some (b.getLsbD 0), out := p.out ++ [.select, .frame cd b, .deselect] } := by
  rw [Trace.session, if_pos rfl, view_append, view_append, view_open cfg hcs, view_frame cfg cd b rfl rfl,
    view_close cfg rfl rfl]
  simp [hcs, hbits]

section
variable (cfg : Config) (c d : Level) (a b : Byte) {t : List Event} (hcs : (view View.init t).cs = true)
include hcs

theorem received_twoBrackets (hbits : (view View.init t).bits = []) :
    received (t ++ Trace.session cfg 0 (Trace.frame cfg c a) ++ Trace.session cfg 0 (Trace.frame cfg d b)) =
      received t ++ [.select, .frame c a, .deselect, .select, .frame d b, .deselect] := by
  rw [received, view_append, view_append, view_bracketedFrame cfg c a hcs hbits,
    view_bracketedFrame cfg d b (by exact hcs) (by exact hbits), received, List.append_assoc]
  rfl

theorem received_oneBracket :
    received (t ++ Trace.openEvents cfg ++ Trace.frame cfg c a ++ Trace.frame cfg d b ++ Trace.closeEvents cfg) =
      received t ++ [.select, .frame c a, .frame d b, .deselect] := by
  rw [received, view_append, view_append, view_append, view_append, view_open cfg hcs, view_frame cfg c a rfl rfl,
    view_frame cfg d b rfl rfl, view_close cfg rfl rfl]
  simp [received]

end

end Panel

/-- Settles O21: from the traces that ST_CMD and ST_DATA append under HW. -/
theorem panelReceivesHardwareFrames : Obligations.PanelReceivesHardwareFrames := by
  unfold Obligations.PanelReceivesHardwareFrames
  intro s hk
  refine ⟨fun b hok => ⟨_, exec_stCmd_hw_ok hk b hok, Panel.received_hwFrames s.wire false [b]⟩,
    fun b e herr => ⟨_, exec_stCmd_hw_err hk b herr, ?_⟩,
    fun bytes hok => ⟨_, exec_stData_hw_ok hk bytes hok, Panel.received_hwFrames s.wire true bytes⟩,
    fun sent b rest e hok herr => ⟨_, exec_stData_hw_err hk sent b rest hok herr, ?_⟩⟩
  · rw [← frameWord_false]
    exact Panel.received_hwFault s.wire _
  · rw [← frameWord_true, ← Panel.received_hwFrames]
    exact Panel.received_hwFault _ _

end Sys2Proof.Machine
end

section
/-! PROOFS. How operations group into sessions, bare and inside `while_asserted`, over the host's turns
(40_serial_transport.md R127, 30_encoding.md R92). -/

namespace Sys2Proof.Machine

open Sys2Proof

/-! ## The host's turns over serial operations -/

/-- The host takes the next `n` steps, and `todo` is what it has to do. -/
structure HostReady (n : Nat) (todo : List HostCmd) (s : State) : Prop where
  faults : s.faults = []
  takes : HostTakes n s
  todo : s.host.todo = todo

/-- Whether the host takes the next steps, and with which commands, is as before. -/
structure TurnsUnchanged (s t : State) : Prop where
  faults : t.faults = s.faults
  phase : t.phase = s.phase
  gap : t.draws.gap = s.draws.gap
  host : t.host = s.host

theorem TurnsUnchanged.refl (s : State) : TurnsUnchanged s s := ⟨rfl, rfl, rfl, rfl⟩

theorem TurnsUnchanged.trans {s t u : State} (h : TurnsUnchanged s t) (h' : TurnsUnchanged t u) : TurnsUnchanged s u :=
  ⟨h'.faults.trans h.faults, h'.phase.trans h.phase, h'.gap.trans h.gap, h'.host.trans h.host⟩

theorem sessionOpen_turnsUnchanged (s : State) : TurnsUnchanged s (sessionOpen s) := by
  rw [sessionOpen_eq]; constructor <;> rfl

theorem sessionClose_turnsUnchanged (s : State) : TurnsUnchanged s (sessionClose s) := by
  rw [sessionClose_eq]; constructor <;> rfl

/-- A frame draws an outcome of the bus at most, no choice of the schedule (R117). -/
theorem emitFrame_turnsUnchanged (cd : Level) (b : Byte) (s : State) : TurnsUnchanged s (emitFrame cd b s).2 := by
  cases hk : s.cfg.kind with
  | bb => rw [emitFrame_bb hk, frameBB_eq]; constructor <;> rfl
  | hw => rw [emitFrame_hw hk, frameHW]; split <;> constructor <;> rfl

theorem sendData_turnsUnchanged (bytes : List Byte) (s : State) : TurnsUnchanged s (sendData bytes s).2 :=
  sendData_keeps (fun _ b h => h.trans (emitFrame_turnsUnchanged true b _)) bytes (.refl s)

/-- A session around some frames, with their result noted. -/
theorem session_turnsUnchanged {s t : State} (h : TurnsUnchanged (sessionOpen s) t) (r : Result) :
    TurnsUnchanged s ((sessionClose t).setResult r) :=
  (((sessionOpen_turnsUnchanged s).trans h).trans (sessionClose_turnsUnchanged t)).trans ⟨rfl, rfl, rfl, rfl⟩

/-- A host step runs the first command; where it leaves the host's turns alone, the rest is next. -/
theorem HostReady.step {n : Nat} {c : HostCmd} {rest : List HostCmd} {s t : State} (h : HostReady (n + 1) (c :: rest) s)
    (hc : hostCmd c ((s.afterTurns 1).withTodo rest) = .next t)
    (ht : TurnsUnchanged ((s.afterTurns 1).withTodo rest) t) : step s = .next t ∧ HostReady n rest t := by
  obtain ⟨hfaults, hphase, hgap, hhost⟩ := ht
  refine ⟨?_, hfaults.trans h.faults, h.takes.after hphase hgap, by rw [hhost]; rfl⟩
  rw [step_host h.faults (h.takes.mono (Nat.le_add_left 1 n)) h.todo, hc]

/-- Issuing a well-formed operation executes it. -/
theorem HostReady.issue {n : Nat} {i : Instr} {rest : List HostCmd} {s t : State}
    (h : HostReady (n + 1) (.issue (encode i) :: rest) s) (hwf : i.wf = true)
    (he : exec i ((s.afterTurns 1).withTodo rest) = .next t)
    (ht : TurnsUnchanged ((s.afterTurns 1).withTodo rest) t) : Machine.step s = .next t ∧ HostReady n rest t :=
  h.step ((issueOp_ok (decodeOfEncode i hwf) _).trans he) ht

/-- `while_asserted` takes one step of its own, which puts its operations on the to-do list (log 12). -/
theorem HostReady.whileAsserted {n : Nat} {body : List Op} {rest : List HostCmd} {s : State}
    (h : HostReady (n + 1) (.whileAsserted body :: rest) s) :
    ∃ t, t = (s.afterTurns 1).withTodo
        (.issue (encode .stBegin) :: (body.map HostCmd.issue ++ .issue (encode .stEnd) :: rest)) ∧
      Machine.step s = .next t ∧
      HostReady n (.issue (encode .stBegin) :: (body.map HostCmd.issue ++ .issue (encode .stEnd) :: rest)) t := by
  refine ⟨_, rfl, ?_, h.faults, h.takes.after rfl rfl, rfl⟩
  rw [step_host h.faults (h.takes.mono (Nat.le_add_left 1 n)) h.todo, hostCmd]
  simp [whileAssertedCmds, State.pushTodo, State.withTodo]

/-! ## `while_asserted` over any body -/

/-- ST_CMD and ST_DATA, whatever their frames come to, leave the host's turns and the depth alone. -/
theorem exec_send {i : Instr} (hi : (∃ b, i = .stCmd b) ∨ ∃ bytes, i = .stData bytes) (s : State) :
    ∃ t, exec i s = .next t ∧ TurnsUnchanged s t ∧ t.depth = s.depth := by
  rcases hi with ⟨b, rfl⟩ | ⟨bytes, rfl⟩
  · exact ⟨_, rfl, session_turnsUnchanged (emitFrame_turnsUnchanged ..) _, session_depth (emitFrame_frame ..) _⟩
  · exact ⟨_, rfl, session_turnsUnchanged (sendData_turnsUnchanged ..) _, session_depth (sendData_frame ..) _⟩

/-- The operations of a body are all issued, to the last one (log 27). -/
theorem HostReady.body {n : Nat} {rest : List HostCmd} (body : List Instr) {s : State}
    (hbody : ∀ i ∈ body, i.wf = true ∧ ((∃ b, i = .stCmd b) ∨ ∃ bytes, i = .stData bytes))
    (h : HostReady (body.length + n) ((body.map encode).map HostCmd.issue ++ rest) s) :
    ∃ t, run body.length s = .next t ∧ HostReady n rest t ∧ t.depth = s.depth := by
  induction body generalizing s with
  | nil => exact ⟨s, rfl, by simpa using h, rfl⟩
  | cons i body ih =>
    obtain ⟨⟨hwf, hi⟩, hrest⟩ := List.forall_mem_cons.1 hbody
    obtain ⟨t, he, hturns, hdepth⟩ := exec_send hi _
    rw [List.length_cons, Nat.add_right_comm] at h
    obtain ⟨hstep, hready⟩ := h.issue hwf he hturns
    obtain ⟨u, hrun, hu, hd⟩ := ih hrest hready
    exact ⟨u, (run_succ _ hstep).trans hrun, hu, hd.trans hdepth⟩

/-- Opening the session, the body, closing the session: R92 on either backend. -/
theorem run_whileAsserted {body : List Instr} {rest : List HostCmd} {s : State}
    (h : HostReady (body.length + 3) (.whileAsserted (body.map encode) :: rest) s)
    (hbody : ∀ i ∈ body, i.wf = true ∧ ((∃ b, i = .stCmd b) ∨ ∃ bytes, i = .stData bytes)) :
    ∃ t, run (body.length + 3) s = .next t ∧ t.faults = [] ∧ t.host.todo = rest ∧ t.depth = s.depth := by
  obtain ⟨u, hu, hstep, hready⟩ := h.whileAsserted
  obtain ⟨hopen, hopened⟩ := hready.issue (i := .stBegin) rfl rfl (sessionOpen_turnsUnchanged _)
  obtain ⟨t, hrun, ht, hdepth⟩ := hopened.body body hbody
  have hdepth : t.depth = s.depth + 1 := by rw [hdepth, sessionOpen_depth, hu]; rfl
  have hpos : 0 < t.depth := hdepth ▸ Nat.succ_pos _
  obtain ⟨hclose, hclosed⟩ := ht.issue (i := .stEnd) rfl (exec_stEnd_closes hpos) (sessionClose_turnsUnchanged _)
  refine ⟨_, ?_, hclosed.faults, hclosed.todo, ?_⟩
  · rw [run_succ _ hstep, run_succ _ hopen, run_add hrun, run_succ _ hclose, run_zero]
  · rw [sessionClose_depth, State.withTodo_depth, State.afterTurns_depth, hdepth, Nat.add_sub_cancel]

/-! ## A command and its data under BB -/

/-- The host is about to run `todo` under BB, with the session depth and the trace of the block. -/
structure BbHost (cfg : Config) (d : Nat) (wire : List Event) (n : Nat) (todo : List HostCmd) (s : State) : Prop where
  ready : HostReady n todo s
  bb : cfg.kind = .bb
  cfg : s.cfg = cfg
  depth : s.depth = d
  wire : s.wire = wire

section
variable {cfg : Config} {d : Nat} {wire : List Event} {n : Nat} {rest : List HostCmd} {s : State}

/-- Issuing an operation that completes under BB. -/
theorem BbHost.issue {i : Instr} {d' : Nat} {events : List Event}
    (h : BbHost cfg d wire (n + 1) (.issue (encode i) :: rest) s) (hwf : i.wf = true)
    (he : ∀ u : State, u.cfg = cfg → u.depth = d →
      ∃ t, exec i u = .next t ∧ TurnsUnchanged u t ∧ t.cfg = cfg ∧ t.depth = d' ∧ t.wire = u.wire ++ events) :
    ∃ t, step s = .next t ∧ BbHost cfg d' (wire ++ events) n rest t := by
  obtain ⟨hready, hbb, hcfg, hdepth, hwire⟩ := h
  obtain ⟨t, ht, hturns, htcfg, htdepth, htwire⟩ := he ((s.afterTurns 1).withTodo rest) hcfg hdepth
  obtain ⟨hstep, hnext⟩ := hready.issue hwf ht hturns
  exact ⟨t, hstep, hnext, hbb, htcfg, htdepth, htwire.trans (congrArg (· ++ events) hwire)⟩

theorem BbHost.stCmd {b : Byte} (h : BbHost cfg d wire (n + 1) (.issue (encode (.stCmd b)) :: rest) s) :
    ∃ t, step s = .next t ∧ BbHost cfg d (wire ++ Trace.session cfg d (Trace.frame cfg false b)) n rest t := by
  refine h.issue rfl fun u hcfg hdepth =>
    ⟨_, exec_stCmd_bb (hcfg ▸ h.bb) b, ⟨rfl, rfl, rfl, rfl⟩, hcfg, hdepth, ?_⟩
  rw [hcfg, hdepth]

theorem BbHost.stData {b : Byte} (h : BbHost cfg d wire (n + 1) (.issue (encode (.stData [b])) :: rest) s) :
    ∃ t, step s = .next t ∧ BbHost cfg d (wire ++ Trace.session cfg d (Trace.frame cfg true b)) n rest t := by
  refine h.issue rfl fun u hcfg hdepth =>
    ⟨_, exec_stData_bb (hcfg ▸ h.bb) [b], ⟨rfl, rfl, rfl, rfl⟩, hcfg, hdepth, ?_⟩
  rw [hcfg, hdepth, List.flatMap_singleton]

theorem BbHost.stBegin (h : BbHost cfg 0 wire (n + 1) (.issue (encode .stBegin) :: rest) s) :
    ∃ t, step s = .next t ∧ BbHost cfg 1 (wire ++ Trace.openEvents cfg) n rest t := by
  refine h.issue rfl fun u hcfg hdepth =>
    ⟨_, rfl, sessionOpen_turnsUnchanged u, (sessionOpen_cfg u).trans hcfg, by rw [sessionOpen_depth, hdepth], ?_⟩
  rw [sessionOpen_wire, if_pos ⟨hcfg ▸ h.bb, hdepth⟩, hcfg]

theorem BbHost.stEnd (h : BbHost cfg 1 wire (n + 1) (.issue (encode .stEnd) :: rest) s) :
    ∃ t, step s = .next t ∧ BbHost cfg 0 (wire ++ Trace.closeEvents cfg) n rest t := by
  refine h.issue rfl fun u hcfg hdepth =>
    ⟨_, exec_stEnd_closes (by omega), sessionClose_turnsUnchanged u, (sessionClose_ringUnchanged u).cfg.trans hcfg,
      by rw [sessionClose_depth, hdepth], ?_⟩
  rw [sessionClose_wire, if_pos ⟨hcfg ▸ h.bb, by omega⟩, hcfg]

variable {b1 b2 : Byte}

/-- Issued bare, each of the two operations is in a bracket of its own (R127). -/
theorem BbHost.run_bare
    (h : BbHost cfg 0 wire 2 (.issue (encode (.stCmd b1)) :: .issue (encode (.stData [b2])) :: rest) s) :
    ∃ t, run 2 s = .next t ∧ t.host.todo = rest ∧
      t.wire = wire ++ Trace.session cfg 0 (Trace.frame cfg false b1) ++
        Trace.session cfg 0 (Trace.frame cfg true b2) := by
  obtain ⟨t, hcmd, ht⟩ := h.stCmd
  obtain ⟨u, hdata, hu⟩ := ht.stData
  exact ⟨u, by rw [run_succ _ hcmd, run_succ _ hdata, run_zero], hu.ready.todo, hu.wire⟩

/-- Inside `while_asserted` one bracket spans both frames (R127). -/
theorem BbHost.run_whileAsserted
    (h : BbHost cfg 0 wire 5 (.whileAsserted [encode (.stCmd b1), encode (.stData [b2])] :: rest) s) :
    ∃ t, run 5 s = .next t ∧ t.host.todo = rest ∧
      t.wire = wire ++ Trace.openEvents cfg ++ Trace.frame cfg false b1 ++ Trace.frame cfg true b2 ++
        Trace.closeEvents cfg := by
  obtain ⟨hready, hbb, hcfg, hdepth, hwire⟩ := h
  obtain ⟨t, rfl, hstep, ht⟩ := hready.whileAsserted
  obtain ⟨u, hopen, hu⟩ := BbHost.stBegin ⟨ht, hbb, hcfg, hdepth, hwire⟩
  obtain ⟨v, hcmd, hv⟩ := hu.stCmd
  obtain ⟨w, hdata, hw⟩ := hv.stData
  obtain ⟨x, hclose, hx⟩ := hw.stEnd
  refine ⟨x, ?_, hx.ready.todo, hx.wire⟩
  rw [run_succ _ hstep, run_succ _ hopen, run_succ _ hcmd, run_succ _ hdata, run_succ _ hclose, run_zero]

end

/-! ## A failing body under HW -/

theorem exec_stBegin_hw {s : State} (hk : s.cfg.kind = .hw) :
    exec .stBegin s = .next { s with depth := s.depth + 1 } := by rw [exec, execStBegin, sessionOpen_hw hk]

theorem exec_stEnd_hw {s : State} (hk : s.cfg.kind = .hw) (hd : 0 < s.depth) :
    exec .stEnd s = .next { s with depth := s.depth - 1 } := by rw [exec_stEnd_closes hd, sessionClose_hw hk]

/-- The schedule's choices leave the bus part of the draws alone. -/
theorem Draws.takeChoices_bus (n : Nat) : ∀ d : Draws,
    (d.takeChoices n).bus = d.bus ∧ (d.takeChoices n).busIx = d.busIx := by
  induction n with
  | zero => exact fun d => ⟨rfl, rfl⟩
  | succ n ih =>
    intro d
    obtain ⟨hbus, hix⟩ := ih d.takeChoice
    exact ⟨hbus.trans d.takeChoice_bus, hix.trans d.takeChoice_busIx⟩

theorem busOutcome_afterTurns (s : State) (n i : Nat) : (s.afterTurns n).busOutcome i = s.busOutcome i := by
  cases hp : s.phase with
  | owned => rw [State.afterTurns_owned n hp]
  | shared =>
    obtain ⟨hbus, hix⟩ := s.draws.takeChoices_bus n
    rw [State.afterTurns_shared n hp]
    simp only [State.busOutcome, hbus, hix]

/-- `s` after `k` turns of the host that have drawn the outcomes of `j` HW frames and touched nothing else than the
session depth, the trace, the result and the to-do list. -/
def State.sent (s : State) (k j d : Nat) (wire : List Event) (r : Result) (todo : List HostCmd) : State :=
  { (s.afterTurns k).withTodo todo with
    depth := d
    wire := wire
    result := r
    draws := (s.afterTurns k).draws.takeBus j }

theorem State.sent_afterTurns (s : State) (k j d : Nat) (wire : List Event) (r : Result) (todo rest : List HostCmd) :
    ((s.sent k j d wire r todo).afterTurns 1).withTodo rest = s.sent (k + 1) j d wire r rest := by
  cases hp : s.phase with
  | owned => simp [State.sent, State.afterTurns, State.withTodo, hp]
  | shared =>
    simp [State.sent, State.afterTurns, State.withTodo, hp, Draws.takeBus_takeChoices, Draws.takeChoices_add]

section
variable {s : State} {k j d : Nat} {wire : List Event} {r : Result} {rest : List HostCmd} (hf : s.faults = [])
  (hh : HostTakes (k + 1) s)
include hf hh

theorem step_sent_issue {i : Instr} (hwf : i.wf = true) :
    step (s.sent k j d wire r (.issue (encode i) :: rest)) = exec i (s.sent (k + 1) j d wire r rest) := by
  have hnext : HostTakes 1 (s.sent k j d wire r (.issue (encode i) :: rest)) := by
    intro (hp : s.phase = .shared)
    have hgap := hh hp
    simp only [State.sent, Draws.takeBus_gap, State.afterTurns_shared k hp,
      Draws.takeChoices_gap (Nat.le_of_succ_le hgap)]
    omega
  rw [step_host (s := s.sent k j d wire r (.issue (encode i) :: rest)) hf hnext rfl, State.sent_afterTurns]
  exact issueOp_ok (decodeOfEncode i hwf) _

variable (hk : s.cfg.kind = .hw)
include hk

theorem step_sent_stBegin :
    step (s.sent k j d wire r (.issue (encode .stBegin) :: rest)) = .next (s.sent (k + 1) j (d + 1) wire r rest) :=
  (step_sent_issue hf hh rfl).trans (exec_stBegin_hw hk)

theorem step_sent_stCmd_err (b : Byte) {e : Err} (herr : s.busOutcome 0 = some e) :
    step (s.sent k 0 d wire r (.issue (encode (.stCmd b)) :: rest)) =
      .next (s.sent (k + 1) 1 d (wire ++ [.hwFault (frameWord false b)]) (.err e) rest) :=
  (step_sent_issue hf hh rfl).trans
    (exec_stCmd_hw_err (s := s.sent (k + 1) 0 d wire r rest) hk b ((busOutcome_afterTurns s (k + 1) 0).trans herr))

theorem step_sent_stEnd :
    step (s.sent k j (d + 1) wire r (.issue (encode .stEnd) :: rest)) = .next (s.sent (k + 1) j d wire r rest) :=
  (step_sent_issue hf hh rfl).trans (exec_stEnd_hw hk d.succ_pos)

end

/-- The error stays as the result, and the session is closed all the same (R92). -/
theorem run_whileAsserted_hw_err {s : State} {b : Byte} {e : Err} {rest : List HostCmd} (hk : s.cfg.kind = .hw)
    (herr : s.busOutcome 0 = some e) (h : HostReady 4 (.whileAsserted [encode (.stCmd b)] :: rest) s) :
    run 4 s = .next (s.sent 4 1 s.depth (s.wire ++ [.hwFault (frameWord false b)]) (.err e) rest) := by
  have htakes {n : Nat} (hn : n ≤ 4) : HostTakes n s := h.takes.mono hn
  obtain ⟨t, rfl, hstep, -⟩ := h.whileAsserted
  have hentered : step s = .next (s.sent 1 0 s.depth s.wire s.result
      (.issue (encode .stBegin) :: .issue (encode (.stCmd b)) :: .issue (encode .stEnd) :: rest)) := hstep
  rw [run_succ _ hentered, run_succ _ (step_sent_stBegin h.faults (htakes (by decide)) hk),
    run_succ _ (step_sent_stCmd_err h.faults (htakes (by decide)) hk b herr),
    run_succ _ (step_sent_stEnd h.faults (htakes (by decide)) hk), run_zero]

/-- Settles O22: the two groupings from the traces they append, a failing command from its four steps, and any body from
`run_whileAsserted`. -/
theorem sessionGrouping : Obligations.SessionGrouping := by
  unfold Obligations.SessionGrouping
  refine ⟨fun s b1 b2 rest hk hf hd hline hpanel => ?_, fun s b e rest hk hf hh herr ht => ?_,
    fun s body rest hf hh hbody ht => run_whileAsserted ⟨hf, hh, ht⟩ hbody⟩
  · have hcs : (Panel.view Panel.View.init s.wire).cs = true := by
      refine hpanel.cs.trans (Bool.eq_true_of_not_eq_false fun hlow => ?_)
      have hopen := (hline.bb_select hk).1 hlow
      omega
    constructor
    · intro hh ht
      obtain ⟨t, hrun, htodo, hwire⟩ := BbHost.run_bare ⟨⟨hf, hh, ht⟩, hk, rfl, hd, rfl⟩
      exact ⟨t, hrun, htodo, hwire ▸ Panel.received_twoBrackets s.cfg false true b1 b2 hcs hpanel.between⟩
    · intro hh ht
      obtain ⟨t, hrun, htodo, hwire⟩ := BbHost.run_whileAsserted ⟨⟨hf, hh, ht⟩, hk, rfl, hd, rfl⟩
      exact ⟨t, hrun, htodo, hwire ▸ Panel.received_oneBracket s.cfg false true b1 b2 hcs⟩
  · rw [← frameWord_false]
    exact run_whileAsserted_hw_err hk herr ⟨hf, hh, ht⟩

end Sys2Proof.Machine
end

section
/-! PROOFS. The accepted bytes of a run (42_ring_buffer.md R175): a push appends its accepted bytes to those sent and
pending, a DMA step moves bytes from the one to the other, and nothing else touches either. -/

namespace Sys2Proof.Machine

open Sys2Proof

/-! ## The ring's operations -/

section
variable {s : State}

theorem exec_rbPush_owned (hp : s.phase = .owned) (bytes : List Byte) :
    exec (.rbPush bytes) s = .next (pushCore bytes s) := by simp only [exec, execRbPush, hp]

theorem exec_rbPush_shared (hp : s.phase = .shared) (bytes : List Byte) :
    exec (.rbPush bytes) s = .next (s.raiseOp .handleConsumed (Instr.rbPush bytes).word) := by
  simp only [exec, execRbPush, hp]

theorem exec_txPush_shared (hp : s.phase = .shared) (bytes : List Byte) :
    exec (.txPush bytes) s = .next (pushCore bytes s) := by simp only [exec, execTxPush, hp]

theorem exec_txPush_owned (hp : s.phase = .owned) (bytes : List Byte) :
    exec (.txPush bytes) s = .next (s.raiseOp .noTransfer (Instr.txPush bytes).word) := by
  simp only [exec, execTxPush, hp]

theorem exec_txStart_owned (hp : s.phase = .owned) : exec .txStart s = .next { s with phase := .shared } := by
  simp only [exec, execTxStart, hp]

theorem exec_txStart_shared (hp : s.phase = .shared) :
    exec .txStart s = .next (s.raiseOp .handleConsumed Instr.txStart.word) := by simp only [exec, execTxStart, hp]

end

theorem raiseOp_faults_ne_nil (s : State) (code : FaultCode) (w : OpWord) : (s.raiseOp code w).faults ≠ [] := by simp

/-- A push that raises no fault stores its leading bytes (R153). -/
theorem exec_push_of_no_fault {i : Instr} {bytes : List Byte} {s t : State} (hi : i = .rbPush bytes ∨ i = .txPush bytes)
    (h : exec i s = .next t) (hf : t.faults = []) : t = pushCore bytes s := by
  rcases hi with rfl | rfl <;> cases hp : s.phase
  · rw [exec_rbPush_owned hp] at h; injection h with h; exact h.symm
  · rw [exec_rbPush_shared hp] at h; injection h with h; exact absurd hf (h ▸ raiseOp_faults_ne_nil _ _ _)
  · rw [exec_txPush_owned hp] at h; injection h with h; exact absurd hf (h ▸ raiseOp_faults_ne_nil _ _ _)
  · rw [exec_txPush_shared hp] at h; injection h with h; exact h.symm

/-- Only a push offers bytes to the ring. -/
theorem pushed_eq_nil_or (i : Instr) : pushed i = [] ∨ i = .rbPush (pushed i) ∨ i = .txPush (pushed i) := by
  cases i with
  | rbPush bytes => exact .inr (.inl rfl)
  | txPush bytes => exact .inr (.inr rfl)
  | _ => exact .inl rfl

/-! ## The bytes sent and the bytes pending -/

/-- The bytes sent followed by those accepted and not yet sent (R175). -/
def State.sentAndPending (s : State) : List Byte := s.lcdOut ++ s.pending

theorem RingUnchanged.sentAndPending {s t : State} (h : RingUnchanged s t) : t.sentAndPending = s.sentAndPending := by
  simp only [State.sentAndPending, State.pending, h.lcdOut, h.storage, h.cfg, h.rpos, h.fill]

/-- A push leaves the pending bytes as they are and puts the accepted ones behind them. -/
theorem RingInv.sentAndPending_pushCore {s : State} (h : RingInv s) (bytes : List Byte) :
    (Machine.pushCore bytes s).sentAndPending = s.sentAndPending ++ bytes.take (s.acceptCount bytes.length) := by
  have hlen := length_take_acceptCount s bytes
  have hroom := fill_add_acceptCount_le h.fill_le bytes.length
  have hold : Memory.ringBytes (Machine.pushCore bytes s).storage s.cfg.ringC s.rpos s.fill = s.pending :=
    Memory.ringBytes_congr _ _ fun j hj => h.read_pushCore_pending bytes hj
  have hnew : Memory.ringBytes (Machine.pushCore bytes s).storage s.cfg.ringC (s.rpos + s.fill)
      (s.acceptCount bytes.length) = bytes.take (s.acceptCount bytes.length) := by
    rw [← Memory.ringBytes_mod, ← h.cursors]
    have hstored := Memory.ringBytes_writeRing (cap := s.cfg.ringC) (bytes.take (s.acceptCount bytes.length)) s.wpos
      s.storage (by omega)
    rwa [hlen] at hstored
  calc (Machine.pushCore bytes s).sentAndPending
      = s.lcdOut ++ Memory.ringBytes (Machine.pushCore bytes s).storage s.cfg.ringC s.rpos
          (s.fill + s.acceptCount bytes.length) := rfl
    _ = s.sentAndPending ++ bytes.take (s.acceptCount bytes.length) := by
        rw [Memory.ringBytes_add, hold, hnew, ← List.append_assoc, State.sentAndPending]

/-- An operation that raises no fault appends the leading bytes it offered and the ring accepted. -/
theorem RingInv.sentAndPending_exec {i : Instr} {s t : State} (h : RingInv s) (he : Machine.exec i s = .next t)
    (hf : t.faults = []) : t.sentAndPending = s.sentAndPending ++ (pushed i).take t.accepted := by
  rcases pushed_eq_nil_or i with hnone | hpush
  · rw [hnone, List.take_nil, List.append_nil]
    rcases exec_ring_cases he with hu | ⟨bytes, hi, rfl⟩ | ⟨-, -, rfl⟩
    · exact hu.sentAndPending
    · obtain rfl : bytes = [] := by rcases hi with ⟨rfl, -⟩ | ⟨rfl, -⟩ <;> exact hnone
      simpa using h.sentAndPending_pushCore []
    · rfl
  · rw [exec_push_of_no_fault hpush he hf]
    exact h.sentAndPending_pushCore _

theorem dmaUnderrun_faults (s : State) :
    (dmaUnderrun s).faults = s.faults ++ [⟨.underrun, .descriptorFill (s.rpos / s.cfg.ringS) s.fill⟩] := rfl

/-- A DMA step that does not underrun sends the oldest pending bytes. -/
theorem RingInv.sentAndPending_dmaStep {s : State} (h : RingInv s) (hf : (Machine.dmaStep s).faults = []) :
    (Machine.dmaStep s).sentAndPending = s.sentAndPending := by
  rcases Nat.lt_or_ge s.fill s.cfg.ringS with hlow | hfull
  · simp [dmaStep_underruns hlow, dmaUnderrun_faults] at hf
  · have hsplit := Memory.ringBytes_add s.storage s.cfg.ringC s.cfg.ringS (s.fill - s.cfg.ringS) s.rpos
    rw [Nat.add_sub_cancel' hfull] at hsplit
    simp only [h.dmaStep_consumes hfull, State.sentAndPending, State.pending, Memory.ringBytes_mod, hsplit,
      List.append_assoc]

/-! ## The bytes a step offers -/

theorem HostOnly.faults {s t : State} (h : HostOnly s t) : t.faults = s.faults := by rw [h]

theorem HostOnly.accepted {s t : State} (h : HostOnly s t) : t.accepted = s.accepted := by rw [h]

/-- Which operation a command issues depends on the offset `h.off` alone. -/
theorem issued_congr (c : HostCmd) {s t : State} (h : t.host.off = s.host.off) : c.issued t = c.issued s := by
  cases c with
  | initEntry rest => cases rest <;> rfl
  | prefillLoop p => simp only [HostCmd.issued, h]
  | streamLoop p => simp only [HostCmd.issued, h]
  | _ => rfl

theorem offered_of_dmaTurn {s : State} (h : s.hostTurn = false) : s.offered = [] := by simp only [State.offered, h]

theorem offered_of_idle {s : State} (h : s.host.todo = []) : s.offered = [] := by
  cases hh : s.hostTurn with
  | false => exact offered_of_dmaTurn hh
  | true => simp only [State.offered, hh, h]

section
variable {s : State} {c : HostCmd} {rest : List HostCmd} (ht : s.host.todo = c :: rest)
include ht

theorem offered_of_not_issued (hi : c.issued s = none) : s.offered = [] := by
  cases hh : s.hostTurn with
  | false => exact offered_of_dmaTurn hh
  | true => simp only [State.offered, hh, ht, hi, Option.map_none]

theorem offered_of_issued (hh : s.hostTurn = true) {op : Op} {i : Instr} (hi : c.issued s = some op)
    (hd : decode op = .ok i) : s.offered = pushed i := by
  simp only [State.offered, hh, ht, hi, Option.map_some, hd]

end

/-- The agent that has taken a step, from `s` itself or from `s` with the draw of the choice used up (log 7). -/
theorem step_turn_cases {s t : State} (h : step s = .next t) :
    ∃ u, (u = s ∨ u = s.takeChoice) ∧
      (s.hostTurn = true ∧ hostStep u = .next t ∨ s.hostTurn = false ∧ t = dmaStep u) := by
  obtain ⟨-, ⟨hp, h⟩ | ⟨hp, ht, h⟩ | ⟨hp, ht, ha, h⟩ | ⟨hp, ht, ha, h⟩⟩ := step_cases h
  · exact ⟨s, .inl rfl, .inl ⟨by simp only [State.hostTurn, hp], h⟩⟩
  · exact ⟨s, .inl rfl, .inr ⟨by simp only [State.hostTurn, hp, ht], h⟩⟩
  · obtain ⟨c, rest, ht⟩ := List.exists_cons_of_ne_nil ht
    exact ⟨_, .inr rfl, .inl ⟨by simp [State.hostTurn, hp, ht, ha], h⟩⟩
  · obtain ⟨c, rest, ht⟩ := List.exists_cons_of_ne_nil ht
    exact ⟨_, .inr rfl, .inr ⟨by simp [State.hostTurn, hp, ht, ha], h⟩⟩

/-- A step without a fault appends the leading bytes it offered and the ring accepted. -/
theorem RingInv.sentAndPending_step {s t : State} (h : RingInv s) (hs : step s = .next t) (hf : t.faults = []) :
    t.sentAndPending = s.sentAndPending ++ s.offered.take t.accepted := by
  obtain ⟨u, hu, hagent⟩ := step_turn_cases hs
  have hring : RingUnchanged s u := by
    rcases hu with rfl | rfl
    · constructor <;> rfl
    · exact takeChoice_ringUnchanged s
  have hhost : u.host = s.host := by rcases hu with rfl | rfl <;> rfl
  have hinv : RingInv u := h.of_ringUnchanged hring
  rw [← hring.sentAndPending]
  rcases hagent with ⟨hh, hstep⟩ | ⟨hh, rfl⟩
  · rcases hostStep_cases hstep with ⟨hidle, rfl⟩ | ⟨c, rest, htodo, hcmd⟩
    · rw [offered_of_idle (hhost ▸ hidle), List.take_nil, List.append_nil]
    · have hissued : c.issued u.popTodo = c.issued s := issued_congr c (by rw [State.popTodo_host, hhost])
      have hpop : RingUnchanged u u.popTodo := by constructor <;> rfl
      rw [hhost] at htodo
      rcases hostCmd_cases hcmd with ⟨op, v, hi, ho, hv⟩ | ⟨hi, hv⟩
      · rcases issueOp_cases ho with ⟨i, hd, he⟩ | ⟨r, -, rfl⟩
        · have hexec := (hinv.of_ringUnchanged hpop).sentAndPending_exec he (hv.faults ▸ hf)
          rw [hv.ringUnchanged.sentAndPending, hexec, hpop.sentAndPending, hv.accepted,
            offered_of_issued htodo hh (hissued ▸ hi) hd]
        · exact absurd hf (hv.faults ▸ raiseOp_faults_ne_nil _ _ _)
      · rw [offered_of_not_issued htodo (hissued ▸ hi), List.take_nil, List.append_nil, hv.ringUnchanged.sentAndPending,
          hpop.sentAndPending]
  · rw [offered_of_dmaTurn hh, List.take_nil, List.append_nil, hinv.sentAndPending_dmaStep hf]

/-- A fault record stays for the rest of a run (60_exceptions.md R224). -/
theorem faults_eq_nil_of_run {n : Nat} {s t : State} (h : run n s = .next t) (hf : t.faults = []) : s.faults = [] := by
  cases n with
  | zero => injection h with h; exact h ▸ hf
  | succ n =>
    obtain ⟨u, hs, -⟩ := run_succ_cases h
    exact (step_cases hs).1

/-- Settles O38, by induction on the run: each step appends its accepted bytes, and a state within a run without a fault
holds no fault record. -/
theorem acceptedBytesLeaveInOrder : Obligations.AcceptedBytesLeaveInOrder := by
  unfold Obligations.AcceptedBytesLeaveInOrder
  intro n
  induction n with
  | zero =>
    intro s t _ h _
    injection h with h
    rw [h, acceptedOver, List.append_nil]
  | succ n ih =>
    intro s t hinv h hf
    obtain ⟨u, hs, hrun⟩ := run_succ_cases h
    have hstep : u.lcdOut ++ u.pending = s.lcdOut ++ s.pending ++ s.offered.take u.accepted :=
      hinv.sentAndPending_step hs (faults_eq_nil_of_run hrun hf)
    simp only [ih u t (stepKeepsRingInv s u hinv hs) hrun hf, hstep, acceptedOver, hs, List.append_assoc]

end Sys2Proof.Machine
end

section
/-! PROOFS. The operations of the Ring Buffer Manager: where a push puts its bytes (42_ring_buffer.md R153 to R155, R159,
R160), the hand-over (R156 to R158), and what a push accepts and leaves alone (R176, R177). -/

namespace Sys2Proof.Machine

open Sys2Proof

/-! ## Pushes -/

/-- A ring that takes the first `k` of the bytes, at most one for each of its cells, holds them from `pos` on. -/
theorem storedAt_writeRing {cap k : Nat} {bytes : List Byte} (hcap : k ≤ cap) (hlen : k ≤ bytes.length) (pos : Nat)
    (m : List Host.Cell) : StoredAt cap pos k bytes m (Memory.writeRing cap pos (bytes.take k) m) := by
  have htake : (bytes.take k).length = k := List.length_take_of_le hlen
  refine ⟨fun i hi => ?_, fun a ha => Memory.read_writeRing_other _ pos m fun i hi => ha i (htake ▸ hi)⟩
  rw [Memory.read_writeRing_at _ pos m (htake.le.trans hcap) i (by omega), List.getElem_take,
    List.getElem?_eq_getElem (by omega)]

/-- What a push does to the state (R153). -/
theorem pushCore_stores (bytes : List Byte) (s : State) :
    ∃ m, pushCore bytes s =
        { s with
          storage := m
          wpos := (s.wpos + min bytes.length (s.cfg.ringC - s.fill)) % s.cfg.ringC
          fill := s.fill + min bytes.length (s.cfg.ringC - s.fill)
          accepted := min bytes.length (s.cfg.ringC - s.fill) } ∧
      StoredAt s.cfg.ringC s.wpos (min bytes.length (s.cfg.ringC - s.fill)) bytes s.storage m :=
  ⟨_, rfl, storedAt_writeRing (by omega) (by omega) _ _⟩

/-- The written-out word of a push decodes to it. -/
theorem decode_push {i : Instr} {k : Nat} {bytes : List Byte}
    (hi : encode i = encodeL (BitVec.ofNat 8 k) bytes) (hwf : i.wf = decide (bytes.length < maxPayload))
    (hk : k < 256) (hlen : bytes.length < 0x1000000) :
    decode ⟨BitVec.ofNat 32 (k * 0x1000000 + bytes.length), bytes⟩ = .ok i := by
  have hword : (BitVec.ofNat 32 (k * 0x1000000 + bytes.length)).toNat = k * 0x1000000 + bytes.length := by
    rw [BitVec.toNat_ofNat]; omega
  exact decode_formatL hi hwf (by omega) (by omega)

/-- What decodes to an operation has that operation's word. -/
theorem word_of_decode {op : Op} {i : Instr} (h : decode op = .ok i) : i.word = op.word := by
  rw [Instr.word, (decode_eq_ok_iff.1 h).1]

theorem decode_rbPush {bytes : List Byte} (hlen : bytes.length < 2 ^ 24) :
    decode ⟨BitVec.ofNat 32 (0x05000000 + bytes.length), bytes⟩ = .ok (.rbPush bytes) :=
  decode_push (k := 5) rfl rfl (by decide) hlen

theorem decode_txPush {bytes : List Byte} (hlen : bytes.length < 2 ^ 24) :
    decode ⟨BitVec.ofNat 32 (0x07000000 + bytes.length), bytes⟩ = .ok (.txPush bytes) :=
  decode_push (k := 7) rfl rfl (by decide) hlen

/-- Settles O26: RB_PUSH is `pushCore` in phase OWNED and a fault in phase SHARED. -/
theorem rbPushStoresLeadingBytes : Obligations.RbPushStoresLeadingBytes := by
  unfold Obligations.RbPushStoresLeadingBytes
  refine ⟨fun bytes hlen => decode_rbPush hlen, fun w p hopc hlen => ?_, fun s bytes hp hlen => ?_, fun s bytes hp => ?_⟩
  · exact raisesIllegal_of_length_ne (by rwa [payloadLength_of_formatL (.inr (.inl hopc))])
  · rw [exec_rbPush_shared hp, word_of_decode (decode_rbPush hlen)]
    rfl
  · obtain ⟨m, hpush, hstored⟩ := pushCore_stores bytes s
    exact ⟨m, (exec_rbPush_owned hp bytes).trans (congrArg _ hpush), hstored⟩

/-- Settles O27: TX_PUSH is `pushCore` in phase SHARED and a fault in phase OWNED. -/
theorem txPushStoresLeadingBytes : Obligations.TxPushStoresLeadingBytes := by
  unfold Obligations.TxPushStoresLeadingBytes
  refine ⟨fun bytes hlen => decode_txPush hlen, fun w p hopc hlen => ?_, fun s bytes hp hlen => ?_, fun s bytes hp => ?_⟩
  · exact raisesIllegal_of_length_ne (by rwa [payloadLength_of_formatL (.inr (.inr hopc))])
  · rw [exec_txPush_owned hp, word_of_decode (decode_txPush hlen)]
    rfl
  · obtain ⟨m, hpush, hstored⟩ := pushCore_stores bytes s
    exact ⟨m, (exec_txPush_shared hp bytes).trans (congrArg _ hpush), hstored⟩

/-- No operation writes a pending cell (R177). -/
theorem RingInv.read_exec_pending {i : Instr} {s t : State} (h : RingInv s) (he : Machine.exec i s = .next t) {j : Nat}
    (hj : j < s.fill) :
    Memory.read t.storage ((s.rpos + j) % s.cfg.ringC) = Memory.read s.storage ((s.rpos + j) % s.cfg.ringC) := by
  rcases exec_ring_cases he with hu | ⟨bytes, -, rfl⟩ | ⟨-, -, rfl⟩
  · rw [hu.storage]
  · exact h.read_pushCore_pending bytes hj
  · rfl

/-- Settles O29: no operation writes a pending cell, and every one keeps the ring's invariant. -/
theorem pushNeverOverwrites : Obligations.PushNeverOverwrites := by
  unfold Obligations.PushNeverOverwrites
  intro s t bytes h hpush
  obtain ⟨i, he⟩ : ∃ i, exec i s = .next t := by rcases hpush with he | he <;> exact ⟨_, he⟩
  obtain ⟨hcfg, -⟩ := exec_sameCfgDesc he
  exact ⟨fun j hj => h.read_exec_pending he hj, hcfg ▸ (h.exec he).fill_le⟩

theorem pushCore_accepted (bytes : List Byte) (s : State) :
    (pushCore bytes s).accepted = min bytes.length (s.cfg.ringC - s.fill) := rfl

theorem pushCore_accepted_of_empty {s : State} (hfill : s.fill = 0) (bytes : List Byte) :
    (pushCore bytes s).accepted = if bytes.length ≤ s.cfg.ringC then bytes.length else s.cfg.ringC := by
  rw [pushCore_accepted, hfill, Nat.sub_zero, Nat.min_def]

/-- A push of C bytes or more leaves the ring full. -/
theorem pushCore_accepted_of_filled {s : State} {bytes : List Byte} (hlen : s.cfg.ringC ≤ bytes.length)
    (more : List Byte) : (pushCore more (pushCore bytes s)).accepted = 0 := by
  have hfull : s.cfg.ringC ≤ s.fill + min bytes.length (s.cfg.ringC - s.fill) := by omega
  have hroom : (pushCore bytes s).cfg.ringC - (pushCore bytes s).fill = 0 := Nat.sub_eq_zero_of_le hfull
  rw [pushCore_accepted, hroom, Nat.min_zero]

/-- Settles O30: either push is `pushCore` in its phase, and leaves the phase as it is. -/
theorem emptyRingAcceptsUpToCapacity : Obligations.EmptyRingAcceptsUpToCapacity := by
  unfold Obligations.EmptyRingAcceptsUpToCapacity
  intro s bytes more hfill
  exact ⟨
    fun hp => ⟨_, exec_rbPush_owned hp bytes, pushCore_accepted_of_empty hfill bytes, fun hlen =>
      ⟨_, exec_rbPush_owned (s := pushCore bytes s) hp more, pushCore_accepted_of_filled hlen more⟩⟩,
    fun hp => ⟨_, exec_txPush_shared hp bytes, pushCore_accepted_of_empty hfill bytes, fun hlen =>
      ⟨_, exec_txPush_shared (s := pushCore bytes s) hp more, pushCore_accepted_of_filled hlen more⟩⟩⟩

/-! ## The hand-over -/

/-- No operation takes the ring back (R156). -/
theorem exec_keeps_shared {i : Instr} {s t : State} (hp : s.phase = .shared) (h : exec i s = .next t) :
    t.phase = .shared := by
  rcases exec_ring_cases h with hu | ⟨bytes, -, rfl⟩ | ⟨-, -, rfl⟩
  · exact hu.phase.trans hp
  · exact hp
  · rfl

theorem dmaStep_phase (s : State) : (dmaStep s).phase = s.phase := by
  rcases dmaStep_cases s with h | ⟨_, _, -, -, h⟩
  · rw [h]; rfl
  · rw [h]

/-- Settles O28: TX_START by its equations, and no kind of step leaves phase SHARED. -/
theorem txStartHandsRingOver : Obligations.TxStartHandsRingOver := by
  unfold Obligations.TxStartHandsRingOver
  refine ⟨decodeOfEncode .txStart rfl, fun w p hopc harg => ?_, fun s hp => exec_txStart_owned hp, fun s hp => ?_,
    fun s t hs hp => ?_⟩
  · exact raisesIllegal_of_no_row (by rw [row_exists_iff]; omega) p
  · exact exec_txStart_shared hp
  · exact step_keeps (P := fun u => u.phase = .shared) (fun _ _ _ hp he => exec_keeps_shared hp he) (fun _ _ hp => hp)
      (fun _ _ hu hp => hu.ringUnchanged.phase.trans hp) (fun _ hp => hp) (fun u _ hp => (dmaStep_phase u).trans hp) hp hs

end Sys2Proof.Machine
end

section
/-! PROOFS. The DMA agent: its underrun (42_ring_buffer.md R171), its walk along the chain (R173), its absence in phase
OWNED (R174) and its weak fairness (R172); and construction with an ill-formed configuration (R150). -/

namespace Sys2Proof.Machine

open Sys2Proof

/-! ## The underrun -/

@[simp] theorem length_underrunBytes (s : State) : s.underrunBytes.length = s.cfg.ringS := by
  simp [State.underrunBytes]

/-- Where the draws list S bytes, those are the bytes of the underrun (log 6). -/
theorem underrunBytes_of_drawn {s : State} (h : s.draws.underrun.length = s.cfg.ringS) :
    s.underrunBytes = s.draws.underrun := by
  refine List.ext_getElem (by rw [length_underrunBytes, h]) fun j _ hj => ?_
  simp only [State.underrunBytes, List.getElem_map, List.getElem_range, List.getElem?_eq_getElem hj, Option.getD_some]

theorem dmaUnderrun_eq (s : State) :
    dmaUnderrun s =
      { s with
        lcdOut := s.lcdOut ++ s.underrunBytes
        faults := s.faults ++ [⟨.underrun, .descriptorFill (s.rpos / s.cfg.ringS) s.fill⟩] } := rfl

/-- Settles O32: with fewer than S bytes ready the DMA step is the underrun, and its record stops the block. -/
theorem dmaStepUnderruns : Obligations.DmaStepUnderruns := by
  unfold Obligations.DmaStepUnderruns
  intro s hlow
  refine ⟨⟨s.underrunBytes, length_underrunBytes s, dmaStep_underruns hlow⟩, fun bytes hlen => ?_, fun hf => ?_⟩
  · rw [dmaStep_underruns (s := { s with draws := { s.draws with underrun := bytes } }) hlow, dmaUnderrun_eq,
      underrunBytes_of_drawn (s := { s with draws := { s.draws with underrun := bytes } }) hlen]
  · refine step_faulted (rs := []) ?_
    rw [dmaStep_underruns hlow, dmaUnderrun_faults, hf, List.nil_append]

/-! ## The walk along the chain -/

/-- Consuming a descriptor moves the DMA position to its successor. -/
theorem RingInv.dmaStep_position {s : State} (h : RingInv s) (hfull : s.cfg.ringS ≤ s.fill) :
    (Machine.dmaStep s).rpos / s.cfg.ringS = (s.rpos / s.cfg.ringS + 1) % s.cfg.ringN := by
  obtain ⟨-, hS, hC⟩ := (ringOk_iff _).1 h.config
  rw [h.dmaStep_consumes hfull]
  change (s.rpos + s.cfg.ringS) % s.cfg.ringC / s.cfg.ringS = _
  rw [hC, Nat.mod_mul_left_div_self, Nat.add_div_right _ hS]

/-- Settles O36: in phase OWNED the read cursor stands at 0, and each full descriptor is followed by its successor. -/
theorem dmaWalksTheChain : Obligations.DmaWalksTheChain := by
  unfold Obligations.DmaWalksTheChain
  refine fun s h => ⟨fun hp => ⟨_, exec_txStart_owned hp, rfl, ?_⟩, fun hfull => ⟨h.dmaStep_position hfull, ?_⟩⟩
  · obtain ⟨hstart, -⟩ := h.owned hp
    change s.rpos / s.cfg.ringS = 0
    rw [hstart, Nat.zero_div]
  · rw [h.dmaStep_consumes hfull]

/-! ## The host's steps -/

/-- A host step keeps whatever the operations, an illegal operation and the host's own changes keep. -/
theorem hostStep_keeps {P : State → Prop} (hexec : ∀ i s t, P s → exec i s = .next t → P t)
    (hillegal : ∀ s w, P s → P (s.raiseOp .illegalOperation w)) (hhost : ∀ s t, HostOnly s t → P s → P t) {s t : State}
    (hP : P s) (h : hostStep s = .next t) : P t := by
  rcases hostStep_cases h with ⟨-, rfl⟩ | ⟨c, rest, -, h⟩
  · exact hP
  · have hpop : P s.popTodo := hhost s _ rfl hP
    rcases hostCmd_cases h with ⟨op, u, -, ho, hu⟩ | ⟨-, hu⟩
    · refine hhost u t hu ?_
      rcases issueOp_cases ho with ⟨i, -, he⟩ | ⟨r, -, rfl⟩
      · exact hexec i _ u hpop he
      · exact hillegal _ _ hpop
    · exact hhost _ t hu hpop

theorem exec_keeps_output {i : Instr} {s t : State} (h : exec i s = .next t) : t.rpos = s.rpos ∧ t.lcdOut = s.lcdOut := by
  rcases exec_ring_cases h with hu | ⟨bytes, -, rfl⟩ | ⟨-, -, rfl⟩
  · exact ⟨hu.rpos, hu.lcdOut⟩
  · exact ⟨rfl, rfl⟩
  · exact ⟨rfl, rfl⟩

/-- The host consumes and sends nothing (R174). -/
theorem hostStep_keeps_output {s t : State} (h : hostStep s = .next t) : t.rpos = s.rpos ∧ t.lcdOut = s.lcdOut := by
  refine hostStep_keeps (P := fun u => u.rpos = s.rpos ∧ u.lcdOut = s.lcdOut) (fun i u v hu he => ?_)
    (fun _ _ hu => hu) (fun u v huv hu => ?_) ⟨rfl, rfl⟩ h
  · obtain ⟨hrpos, hlcd⟩ := exec_keeps_output he
    exact ⟨hrpos.trans hu.1, hlcd.trans hu.2⟩
  · rw [huv]
    exact hu

/-- Settles O34: in phase OWNED the step is the host's, and the ring's invariant holds after every step. -/
theorem noDmaStepWhileOwned : Obligations.NoDmaStepWhileOwned := by
  unfold Obligations.NoDmaStepWhileOwned
  refine ⟨fun s t hp h => ?_, fun s t hinv h hp => (stepKeepsRingInv s t hinv h).owned hp⟩
  have hf := (step_cases h).1
  rw [step_of_no_fault hf, agentStep_owned hp] at h
  exact hostStep_keeps_output h

/-- No operation draws from the schedule. -/
theorem exec_gap {i : Instr} {s t : State} (h : exec i s = .next t) : t.draws.gap = s.draws.gap := by
  cases i with
  | stBegin => injection h with h; exact h ▸ (sessionOpen_turnsUnchanged s).gap
  | stEnd =>
    simp only [exec, execStEnd] at h
    split at h <;> injection h with h <;> subst h
    · rfl
    · exact (sessionClose_turnsUnchanged s).gap
  | stCmd b => injection h with h; exact h ▸ (session_turnsUnchanged (emitFrame_turnsUnchanged ..) _).gap
  | stData bytes => injection h with h; exact h ▸ (session_turnsUnchanged (sendData_turnsUnchanged ..) _).gap
  | rbPush bytes =>
    simp only [exec, execRbPush] at h
    split at h <;> injection h with h <;> subst h <;> rfl
  | txStart =>
    simp only [exec, execTxStart] at h
    split at h <;> injection h with h <;> subst h <;> rfl
  | txPush bytes =>
    simp only [exec, execTxPush] at h
    split at h <;> injection h with h <;> subst h <;> rfl
  | rstSet v => injection h with h; subst h; rfl
  | delayUs us => injection h with h; subst h; rfl

/-- In phase SHARED a host step keeps the phase and the number of host choices to come. -/
theorem hostStep_keeps_turns {s t : State} (hp : s.phase = .shared) (h : hostStep s = .next t) :
    t.phase = .shared ∧ t.draws.gap = s.draws.gap := by
  refine hostStep_keeps (P := fun u => u.phase = .shared ∧ u.draws.gap = s.draws.gap) (fun i u v hu he => ?_)
    (fun _ _ hu => hu) (fun u v huv hu => ?_) ⟨hp, rfl⟩ h
  · exact ⟨exec_keeps_shared hu.1 he, (exec_gap he).trans hu.2⟩
  · rw [huv]
    exact hu

/-- The host goes on, or it is stuck at an obligation that no fault covers (U18; log 13). -/
def GoesOnOrStuck (o : Host.Outcome State Fault Refusal) : Prop :=
  (∃ t, o = .next t) ∨ ∃ duty, o = .fault (.hostObligation duty)

theorem goesOnOrStuck_next (t : State) : GoesOnOrStuck (.next t) := .inl ⟨t, rfl⟩

theorem goesOnOrStuck_fault (duty : HostDuty) : GoesOnOrStuck (.fault (.hostObligation duty)) := .inr ⟨duty, rfl⟩

theorem issueOp_goesOnOrStuck (op : Op) (s : State) : GoesOnOrStuck (issueOp op s) := by
  cases hd : decode op with
  | ok i => rw [issueOp_ok hd]; exact .inl (exec_next i s)
  | error r => rw [issueOp_error hd]; exact goesOnOrStuck_next _

theorem GoesOnOrStuck.thenHost {o : Host.Outcome State Fault Refusal} (h : GoesOnOrStuck o) (f : State → State) :
    GoesOnOrStuck (thenHost o f) := by
  rcases h with ⟨t, rfl⟩ | ⟨duty, rfl⟩
  · rw [Machine.thenHost]; split <;> exact goesOnOrStuck_next _
  · exact goesOnOrStuck_fault duty

theorem thenHost_issue_goesOnOrStuck (i : Instr) (s : State) (f : State → State) : GoesOnOrStuck (thenHost (issue i s) f) :=
  (issueOp_goesOnOrStuck _ s).thenHost f

theorem hostCmd_goesOnOrStuck (c : HostCmd) (s : State) : GoesOnOrStuck (hostCmd c s) := by
  cases c with
  | issue op => exact issueOp_goesOnOrStuck op s
  | init => rw [hostCmd, hostInit]; split <;> [exact goesOnOrStuck_next _; exact goesOnOrStuck_fault _]
  | prefill p => rw [hostCmd, hostPrefill]; split <;> [exact goesOnOrStuck_fault _; exact goesOnOrStuck_next _]
  | start => rw [hostCmd, hostStart]; split <;> [exact thenHost_issue_goesOnOrStuck ..; exact goesOnOrStuck_fault _]
  | stream p off => rw [hostCmd, hostStream]; split <;> [exact goesOnOrStuck_fault _; exact goesOnOrStuck_next _]
  | initEntry rest =>
    cases rest with
    | nil => exact goesOnOrStuck_next _
    | cons e rest => rw [hostCmd, hostInitEntry]; exact thenHost_issue_goesOnOrStuck ..
  | bootContinue p => rw [hostCmd, hostBootContinue]; split <;> exact goesOnOrStuck_next _
  | whileAsserted _ | resetPulse | boot _ => exact goesOnOrStuck_next _
  | initCmd _ _ _ | initData _ _ _ | initEnd _ _ | prefillLoop _ | streamLoop _ => exact thenHost_issue_goesOnOrStuck ..

theorem hostStep_goesOnOrStuck (s : State) : GoesOnOrStuck (hostStep s) := by
  unfold hostStep
  split
  · exact goesOnOrStuck_next s
  · exact hostCmd_goesOnOrStuck ..

/-! ## Fairness -/

/-- The state a DMA step starts from: the draw of a choice is used up only where the host could have stepped (log 7). -/
def State.atDmaTurn (s : State) : State := if s.host.todo = [] then s else s.takeChoice

theorem atDmaTurn_ringUnchanged (s : State) : RingUnchanged s s.atDmaTurn := by
  unfold State.atDmaTurn
  split
  · constructor <;> rfl
  · exact takeChoice_ringUnchanged s

@[simp] theorem atDmaTurn_faults (s : State) : s.atDmaTurn.faults = s.faults := by
  unfold State.atDmaTurn
  split <;> rfl

/-- In phase SHARED the DMA agent steps where the schedule names no host choice before it, or the host is idle. -/
theorem step_dmaTurn {s : State} (hf : s.faults = []) (hp : s.phase = .shared)
    (hturn : s.host.todo = [] ∨ s.draws.gap = 0) : step s = .next (dmaStep s.atDmaTurn) := by
  rw [step_of_no_fault hf, State.atDmaTurn]
  split
  · next ht => exact agentStep_shared_idle hp ht
  · next ht => exact agentStep_shared_dma hp ht (State.drawnAgent_dma_iff.2 (hturn.resolve_left ht))

/-- From `s`, after `n` host steps, it is the DMA agent's turn, or the host's steps have ended the run. -/
def DmaTurnAfter (n : Nat) (s : State) : Prop :=
  (∃ t, run n s = .next t ∧ t.faults = [] ∧ t.phase = .shared ∧ step t = .next (dmaStep t.atDmaTurn)) ∨
    (∃ t, run n s = .next t ∧ t.faults ≠ []) ∨
    ∃ duty, run n s = .fault (.hostObligation duty)

theorem run_succ_fault {s : State} {r : Fault} (n : Nat) (h : step s = .fault r) : run (n + 1) s = .fault r := by
  simp only [run, Host.Core.run]
  rw [show core.step s = .fault r from h]
  rfl

/-- By induction on the number of host choices before the DMA agent's: each host step uses up one of them (R172). -/
theorem exists_dmaTurnAfter {g : Nat} : ∀ {s : State}, s.faults = [] → s.phase = .shared → s.draws.gap = g →
    ∃ n ≤ g, DmaTurnAfter n s := by
  induction g with
  | zero => exact fun hf hp hg => ⟨0, le_rfl, .inl ⟨_, rfl, hf, hp, step_dmaTurn hf hp (.inr hg)⟩⟩
  | succ g ih =>
    intro s hf hp hg
    by_cases ht : s.host.todo = []
    · exact ⟨0, Nat.zero_le _, .inl ⟨_, rfl, hf, hp, step_dmaTurn hf hp (.inl ht)⟩⟩
    · have hstep : step s = hostStep s.takeChoice := by
        rw [step_of_no_fault hf, agentStep_shared_host hp ht (State.drawnAgent_host_iff.2 (by omega))]
      rcases hostStep_goesOnOrStuck s.takeChoice with ⟨u, hu⟩ | ⟨duty, hduty⟩
      · obtain ⟨hup, hug⟩ := hostStep_keeps_turns (s := s.takeChoice) hp hu
        rw [State.takeChoice_draws, Draws.takeChoice_host hg, Draws.withGap_gap] at hug
        rw [hu] at hstep
        by_cases huf : u.faults = []
        · obtain ⟨n, hn, hafter⟩ := ih huf hup hug
          refine ⟨n + 1, Nat.succ_le_succ hn, ?_⟩
          simpa only [DmaTurnAfter, run_succ n hstep] using hafter
        · exact ⟨1, by omega, .inr (.inl ⟨u, run_succ 0 hstep, huf⟩)⟩
      · exact ⟨1, by omega, .inr (.inr ⟨duty, run_succ_fault 0 (hstep.trans hduty)⟩)⟩

/-- The next `q + 1` steps are the DMA agent's: the schedule names no host choice before any of them. -/
structure DmaTurns (q : Nat) (s : State) : Prop where
  ring : RingInv s
  faults : s.faults = []
  phase : s.phase = .shared
  schedule : ∃ m, q < m ∧ s.draws.sched = List.replicate m 0

theorem DmaTurns.gap {q : Nat} {s : State} (h : DmaTurns q s) : s.draws.gap = 0 := by
  obtain ⟨m, hm, hsched⟩ := h.schedule
  obtain ⟨k, rfl⟩ := Nat.exists_eq_add_of_lt hm
  simp only [Draws.gap, hsched, List.replicate_succ]

theorem DmaTurns.step {q : Nat} {s : State} (h : DmaTurns q s) : Machine.step s = .next (dmaStep s.atDmaTurn) :=
  step_dmaTurn h.faults h.phase (.inr h.gap)

/-- A DMA turn uses up one number of the schedule at most. -/
theorem DmaTurns.atDmaTurn {q : Nat} {s : State} (h : DmaTurns (q + 1) s) : DmaTurns q s.atDmaTurn := by
  refine ⟨h.ring.of_ringUnchanged (atDmaTurn_ringUnchanged s), (atDmaTurn_faults s).trans h.faults,
    (atDmaTurn_ringUnchanged s).phase.trans h.phase, ?_⟩
  obtain ⟨m, hm, hsched⟩ := h.schedule
  unfold State.atDmaTurn
  split
  · exact ⟨m, by omega, hsched⟩
  · refine ⟨m - 1, by omega, ?_⟩
    rw [State.takeChoice_draws, Draws.takeChoice_dma h.gap, hsched, List.drop_replicate]

/-- A turn with a full descriptor consumes it, and the remaining turns are still the DMA agent's. -/
theorem DmaTurns.consumes {q : Nat} {s : State} (h : DmaTurns (q + 1) s) (hfull : s.cfg.ringS ≤ s.fill) :
    ∃ t, Machine.step s = .next t ∧ DmaTurns q t ∧ t.cfg = s.cfg ∧ t.fill = s.fill - s.cfg.ringS ∧
      t.rpos / s.cfg.ringS = (s.rpos / s.cfg.ringS + 1) % s.cfg.ringN := by
  obtain ⟨hring, hfaults, hphase, hsched⟩ := h.atDmaTurn
  obtain ⟨hcfg, -, -, hrpos, hfill, -, -, -⟩ := atDmaTurn_ringUnchanged s
  rw [← hcfg, ← hfill] at hfull
  have hdrain := hring.dmaStep_consumes hfull
  refine ⟨_, h.step, ⟨hring.dmaStep hphase, ?_, (dmaStep_phase _).trans hphase, ?_⟩,
    (dmaStep_sameCfgDesc _).1.trans hcfg, ?_, ?_⟩
  · rw [hdrain]; exact hfaults
  · rw [hdrain]; exact hsched
  · simp only [hdrain, hfill, hcfg]
  · have hposition := hring.dmaStep_position hfull
    rwa [hcfg, hrpos] at hposition

/-- A turn with fewer than S bytes ready records the UNDERRUN of the descriptor it has reached. -/
theorem DmaTurns.underruns {q : Nat} {s : State} (h : DmaTurns q s) (hlow : s.fill < s.cfg.ringS) :
    ∃ t, Machine.step s = .next t ∧ t.faults = [⟨.underrun, .descriptorFill (s.rpos / s.cfg.ringS) s.fill⟩] := by
  obtain ⟨hcfg, -, -, hrpos, hfill, -, -, -⟩ := atDmaTurn_ringUnchanged s
  refine ⟨_, h.step, ?_⟩
  rw [dmaStep_underruns (by rwa [hfill, hcfg]), dmaUnderrun_faults, atDmaTurn_faults, h.faults, hcfg, hrpos, hfill,
    List.nil_append]

/-- The DMA agent, left alone, drains the `q` full descriptors one after another and underruns at the next one. -/
theorem DmaTurns.run_to_underrun {q : Nat} {s : State} (h : DmaTurns q s) (hq : s.fill / s.cfg.ringS = q) :
    ∃ t, run (q + 1) s = .next t ∧
      t.faults = [⟨.underrun, .descriptorFill ((s.rpos / s.cfg.ringS + q) % s.cfg.ringN) (s.fill % s.cfg.ringS)⟩] := by
  obtain ⟨-, hS, -⟩ := (ringOk_iff _).1 h.ring.config
  induction q generalizing s with
  | zero =>
    have hlow : s.fill < s.cfg.ringS := (Nat.div_eq_zero_iff_lt hS).1 hq
    obtain ⟨t, hstep, ht⟩ := h.underruns hlow
    refine ⟨t, run_succ 0 hstep, ?_⟩
    rw [ht, Nat.add_zero, Nat.mod_eq_of_lt h.ring.position_lt, Nat.mod_eq_of_lt hlow]
  | succ q ih =>
    have hfull : s.cfg.ringS ≤ s.fill := Nat.le_of_not_lt fun hlow => by simp [Nat.div_eq_of_lt hlow] at hq
    obtain ⟨u, hstep, hu, hcfg, hfill, hposition⟩ := h.consumes hfull
    rw [Nat.div_eq_sub_div hS hfull] at hq
    obtain ⟨t, hrun, ht⟩ := ih hu (by rw [hfill, hcfg]; exact Nat.succ.inj hq) (hcfg ▸ hS)
    refine ⟨t, (run_succ _ hstep).trans hrun, ?_⟩
    rw [ht, hcfg, hfill, hposition, Nat.mod_add_mod, Nat.add_assoc, Nat.add_comm 1 q, ← Nat.mod_eq_sub_mod hfull]

/-- Settles O59: the DMA agent's turn comes by `exists_dmaTurnAfter`, the next choice is the schedule's, and the schedule
of zeros lets it reach an underrun. That a schedule is a list of numbers is the model's form (log 7). -/
theorem dmaAgentIsWeaklyFair : Obligations.DmaAgentIsWeaklyFair := by
  unfold Obligations.DmaAgentIsWeaklyFair
  refine ⟨fun s hf hp => exists_dmaTurnAfter hf hp rfl, fun s g hf hp ht => ⟨?_, ?_⟩, fun s h hf hp => ?_⟩
  · rw [step_of_no_fault (s := { s with draws := s.draws.withGap 0 }) hf]
    exact agentStep_shared_dma hp ht rfl
  · rw [step_of_no_fault (s := { s with draws := s.draws.withGap (g + 1) }) hf]
    exact agentStep_shared_host hp ht rfl
  · have hring (sched : List Nat) : RingUnchanged s { s with draws := { s.draws with sched := sched } } := by
      constructor <;> rfl
    have hturns : DmaTurns (s.fill / s.cfg.ringS)
        { s with draws := { s.draws with sched := List.replicate (s.fill / s.cfg.ringS + 1) 0 } } :=
      ⟨h.of_ringUnchanged (hring _), hf, hp, _, Nat.lt_succ_self _, rfl⟩
    exact ⟨_, hturns.run_to_underrun rfl⟩

/-! ## Construction -/

/-- Settles O40: an ill-formed configuration is recorded at construction, and the record stops the first step. -/
theorem invalidConfigurationRunsNothing : Obligations.InvalidConfigurationRunsNothing := by
  unfold Obligations.InvalidConfigurationRunsNothing
  intro cfg sda rst
  rw [← ringOk_iff]
  refine ⟨fun hok => by rw [State.construct, if_pos hok], fun hbad => ?_⟩
  have hrecord : (State.construct cfg sda rst).faults = [⟨.configInvalid, .ring cfg.ringC cfg.ringN cfg.ringS⟩] := by
    rw [State.construct, if_neg hbad]
    rfl
  exact ⟨hrecord, step_faulted hrecord⟩

end Sys2Proof.Machine
end

section
/-! PROOFS. One host command at a time: the equation of each command of 45_host_sequencing.md that needs one, and the
single steps of START, STREAM, BOOT and INIT's settling (R190, R191, R196, R198, R199, R204, 93_implementation_defined.md
U18). -/

namespace Sys2Proof.Machine

open Sys2Proof

/-! ## Issuing from a procedure -/

theorem issue_of_wf {i : Instr} (hwf : i.wf = true) (s : State) : issue i s = exec i s :=
  issueOp_ok (decodeOfEncode i hwf) s

/-- An operation whose payload no length field can say is illegal (log 24). -/
theorem decode_encode_of_not_wf {i : Instr} (h : i.wf = false) : ∃ r, decode (encode i) = .error r := by
  cases hd : decode (encode i) with
  | error r => exact ⟨r, rfl⟩
  | ok j =>
    obtain ⟨-, hlen⟩ := row_of_decode hd
    rw [payloadLength, opcOf_encode] at hlen
    cases i with
    | stData bytes | rbPush bytes | txPush bytes =>
      have hfits : bytes.length < maxPayload := hlen.trans_lt (argOf _).isLt
      exact absurd hfits (of_decide_eq_false h)
    | _ => cases h

theorem issue_of_not_wf {i : Instr} (h : i.wf = false) (s : State) :
    issue i s = .next (s.raiseOp .illegalOperation i.word) := by
  obtain ⟨r, hr⟩ := decode_encode_of_not_wf h
  exact issueOp_error hr s

theorem thenHost_next {s : State} (hf : s.faults = []) (f : State → State) : thenHost (.next s) f = .next (f s) := by
  rw [thenHost, if_pos hf]

theorem thenHost_raiseOp (s : State) (code : FaultCode) (w : OpWord) (f : State → State) :
    thenHost (.next (s.raiseOp code w)) f = .next (s.raiseOp code w) := by
  rw [thenHost, if_neg (raiseOp_faults_ne_nil s code w)]

/-- A procedure that issues an operation which completes goes on with what the host does after it. -/
theorem thenHost_issue {i : Instr} {s t : State} (hwf : i.wf = true) (he : exec i s = .next t) (hf : t.faults = [])
    (f : State → State) : thenHost (issue i s) f = .next (f t) := by
  rw [issue_of_wf hwf, he, thenHost_next hf]

/-- A procedure that issues an operation which no word can say ends with its fault (log 24). -/
theorem thenHost_issue_of_not_wf {i : Instr} (h : i.wf = false) (s : State) (f : State → State) :
    thenHost (issue i s) f = .next (s.raiseOp .illegalOperation i.word) := by
  rw [issue_of_not_wf h, thenHost_raiseOp]

@[simp] theorem length_rot (p : List Byte) (o : Nat) : (rot p o).length = p.length := by
  rw [rot, List.length_append, List.length_drop, List.length_take]
  omega

@[simp] theorem pushCore_cfg (bytes : List Byte) (s : State) : (pushCore bytes s).cfg = s.cfg := rfl
@[simp] theorem pushCore_phase (bytes : List Byte) (s : State) : (pushCore bytes s).phase = s.phase := rfl
@[simp] theorem pushCore_lcdOut (bytes : List Byte) (s : State) : (pushCore bytes s).lcdOut = s.lcdOut := rfl
@[simp] theorem pushCore_faults (bytes : List Byte) (s : State) : (pushCore bytes s).faults = s.faults := rfl
@[simp] theorem pushCore_sys (bytes : List Byte) (s : State) : (pushCore bytes s).sys = s.sys := rfl
@[simp] theorem pushCore_host (bytes : List Byte) (s : State) : (pushCore bytes s).host = s.host := rfl
@[simp] theorem pushCore_fill (bytes : List Byte) (s : State) :
    (pushCore bytes s).fill = s.fill + min bytes.length (s.cfg.ringC - s.fill) := rfl

@[simp] theorem notePush_cfg (p : List Byte) (s : State) : (notePush p s).cfg = s.cfg := rfl
@[simp] theorem notePush_phase (p : List Byte) (s : State) : (notePush p s).phase = s.phase := rfl
@[simp] theorem notePush_lcdOut (p : List Byte) (s : State) : (notePush p s).lcdOut = s.lcdOut := rfl
@[simp] theorem notePush_faults (p : List Byte) (s : State) : (notePush p s).faults = s.faults := rfl
@[simp] theorem notePush_sys (p : List Byte) (s : State) : (notePush p s).sys = s.sys := rfl
@[simp] theorem notePush_fill (p : List Byte) (s : State) : (notePush p s).fill = s.fill := rfl
@[simp] theorem notePush_host (p : List Byte) (s : State) :
    (notePush p s).host = { s.host with k := s.accepted, off := (s.host.off + s.accepted) % p.length } := rfl

/-! ## The commands of the procedures -/

/-- In phase OWNED the step is the host's first command on what is left of the list. -/
theorem step_owned {s : State} {c : HostCmd} {rest : List HostCmd} (hf : s.faults = []) (hp : s.phase = .owned)
    (ht : s.host.todo = c :: rest) : step s = hostCmd c (s.withTodo rest) := by
  rw [step_host hf (hostTakes_owned hp) ht, State.afterTurns_owned 1 hp]

@[simp] theorem sessionOpen_faults (s : State) : (sessionOpen s).faults = s.faults :=
  (sessionOpen_turnsUnchanged s).faults

@[simp] theorem sessionClose_faults (s : State) : (sessionClose s).faults = s.faults :=
  (sessionClose_turnsUnchanged s).faults

section
variable {s t : State} {op : Byte} {ps : List Byte} {rest : List (Byte × List Byte)} {p : List Byte}

theorem hostCmd_init (hs : s.sys = .reset) :
    hostCmd .init s =
      .next ({ s with sys := .configuring }.pushTodo (resetPulseCmds ++ [HostCmd.initEntry s.cfg.initTable])) := by
  rw [hostCmd, hostInit, if_pos hs]

theorem hostCmd_init_outside (hs : s.sys ≠ .reset) : hostCmd .init s = .fault (.hostObligation .initOutsideReset) := by
  rw [hostCmd, hostInit, if_neg hs]

theorem hostCmd_initEntry_cons (hf : s.faults = []) :
    hostCmd (.initEntry ((op, ps) :: rest)) s = .next ((sessionOpen s).pushTodo [.initCmd op ps rest]) :=
  thenHost_issue (i := .stBegin) rfl rfl (by rw [sessionOpen_faults, hf]) fun u => u.pushTodo [.initCmd op ps rest]

theorem hostCmd_initCmd (he : exec (.stCmd op) s = .next t) (hf : t.faults = []) :
    hostCmd (.initCmd op ps rest) s =
      .next (t.noteResult.pushTodo [if t.result = .ok ∧ ps ≠ [] then .initData op ps rest else .initEnd op rest]) :=
  thenHost_issue rfl he hf _

theorem hostCmd_initData (hlen : ps.length < maxPayload) (he : exec (.stData ps) s = .next t) (hf : t.faults = []) :
    hostCmd (.initData op ps rest) s = .next (t.noteResult.pushTodo [.initEnd op rest]) :=
  thenHost_issue (i := .stData ps) (decide_eq_true hlen) he hf _

theorem hostCmd_initEnd (hd : 0 < s.depth) (hf : s.faults = []) :
    hostCmd (.initEnd op rest) s = .next (afterEntry op rest (sessionClose s)) :=
  thenHost_issue rfl (exec_stEnd_closes hd) (by rw [sessionClose_faults, hf]) _

theorem afterEntry_ok (hr : s.host.r = .ok) :
    afterEntry op rest s = s.pushTodo (settleCmds s.cfg op ++ [HostCmd.initEntry rest]) := by rw [afterEntry, hr]

theorem afterEntry_err {e : Err} (hr : s.host.r = .err e) :
    afterEntry op rest s = { s with sys := .reset, sysError := some e } := by rw [afterEntry, hr]

theorem hostCmd_bootContinue_ok (hr : s.host.r = .ok) :
    hostCmd (.bootContinue p) s = .next (s.pushTodo [.prefill p, .start, .streamLoop p]) := by
  rw [hostCmd, hostBootContinue, hr]

theorem hostCmd_bootContinue_err (hr : s.host.r ≠ .ok) : hostCmd (.bootContinue p) s = .next s := by
  rw [hostCmd, hostBootContinue]
  split
  · rfl
  · next h => exact absurd h hr

theorem hostCmd_prefill (hp : p ≠ []) :
    hostCmd (.prefill p) s = .next ({ s with host := { s.host with off := 0 } }.pushTodo [.prefillLoop p]) := by
  rw [hostCmd, hostPrefill, if_neg hp]

theorem hostCmd_prefill_nil : hostCmd (.prefill []) s = .fault (.hostObligation .emptyPattern) := rfl

theorem hostCmd_stream_nil (off : Nat) : hostCmd (.stream [] off) s = .fault (.hostObligation .emptyPattern) := rfl

/-- A round of PREFILL in phase OWNED (R197). -/
theorem hostCmd_prefillLoop (hp : s.phase = .owned) (hlen : p.length < maxPayload) (hf : s.faults = []) :
    hostCmd (.prefillLoop p) s =
      .next (if min p.length (s.cfg.ringC - s.fill) < p.length then notePush p (pushCore (rot p s.host.off) s)
        else (notePush p (pushCore (rot p s.host.off) s)).pushTodo [.prefillLoop p]) := by
  refine (thenHost_issue (by simpa [Instr.wf] using hlen) (exec_rbPush_owned hp _) hf _).trans ?_
  rw [pushCore_accepted, length_rot]

/-- A round of STREAM in phase SHARED (R199). -/
theorem hostCmd_streamLoop (hp : s.phase = .shared) (hlen : p.length < maxPayload) (hf : s.faults = []) :
    hostCmd (.streamLoop p) s = .next ((notePush p (pushCore (rot p s.host.off) s)).pushTodo [.streamLoop p]) :=
  thenHost_issue (by simpa [Instr.wf] using hlen) (exec_txPush_shared hp _) hf _

theorem hostCmd_start_ready (hp : s.phase = .owned) (hs : s.sys = .ready) (hf : s.faults = []) :
    hostCmd .start s = .next { s with phase := .shared, sys := .streaming } := by
  rw [hostCmd, hostStart, if_pos (.inl hs)]
  exact thenHost_issue rfl (exec_txStart_owned hp) hf _

theorem hostCmd_start_shared (hp : s.phase = .shared) :
    hostCmd .start s = .next (s.raiseOp .handleConsumed Instr.txStart.word) := by
  rw [hostCmd, hostStart, if_pos (.inr hp), issue_of_wf rfl, exec_txStart_shared hp,
    thenHost_raiseOp]

theorem hostCmd_start_before_ready (hp : s.phase = .owned) (hs : s.sys ≠ .ready) :
    hostCmd .start s = .fault (.hostObligation .startBeforeReady) := by
  rw [hostCmd, hostStart, if_neg]
  rintro (h | h)
  · exact hs h
  · exact nomatch hp.symm.trans h

end

end Sys2Proof.Machine
end

section
/-! PROOFS. The course of BOOT(P): each of its points has its next one, and the bytes sent and pending stay the start of P
repeated for ever (45_host_sequencing.md R204 to R206). -/

namespace Sys2Proof.Machine

open Sys2Proof

/-! ## The repeated pattern -/

theorem take_repeated (p : List Byte) {k n : Nat} (h : k ≤ n) : (repeated p n).take k = repeated p k := by
  rw [repeated, ← List.map_take, List.take_range, Nat.min_eq_left h, repeated]

/-- Byte `i` of the pattern turned by `n mod len(P)` is byte `n + i` of the repetition (R197). -/
theorem getElem_rot (p : List Byte) (n i : Nat) (hi : i < (rot p (n % p.length)).length) :
    (rot p (n % p.length))[i] = p.getD ((n + i) % p.length) 0#8 := by
  have hlen : 0 < p.length := Nat.zero_lt_of_lt (length_rot p _ ▸ hi)
  have hrot : rot p (n % p.length) = p.rotate (n % p.length) :=
    (List.rotate_eq_drop_append_take (Nat.mod_lt n hlen).le).symm
  simp only [hrot, List.getElem_rotate]
  rw [List.getD_eq_getElem _ _ (Nat.mod_lt _ hlen)]
  simp only [Nat.add_mod_mod, Nat.add_comm]

/-- What PREFILL and STREAM offer goes on where the repetition has come to (R197, R199). -/
theorem repeated_add (p : List Byte) (n : Nat) {k : Nat} (hk : k ≤ p.length) :
    repeated p (n + k) = repeated p n ++ (rot p (n % p.length)).take k := by
  have hnext : (List.range k).map (fun i => p.getD ((n + i) % p.length) 0#8) = (rot p (n % p.length)).take k := by
    refine List.ext_getElem (by simpa using hk) fun i _ _ => ?_
    rw [List.getElem_map, List.getElem_range, List.getElem_take, getElem_rot]
  rw [repeated, List.range_add, List.map_append, List.map_map, ← repeated, ← hnext]
  rfl

/-! ## The content of BOOT -/

/-- The bytes sent and pending are the start of the repetition of P (R206). -/
def SendsPattern (p : List Byte) (s : State) : Prop := s.sentAndPending = repeated p (s.lcdOut.length + s.fill)

theorem SendsPattern.of_ringUnchanged {p : List Byte} {s t : State} (h : SendsPattern p s) (hu : RingUnchanged s t) :
    SendsPattern p t := by rw [SendsPattern, hu.sentAndPending, hu.lcdOut, hu.fill, h]

/-- Where the host's offset goes with the repetition, what it pushes is the continuation. -/
theorem SendsPattern.pushCore {p : List Byte} {s : State} (h : SendsPattern p s) (hring : RingInv s)
    (hoff : s.host.off = (s.lcdOut.length + s.fill) % p.length) :
    SendsPattern p (Machine.pushCore (rot p s.host.off) s) := by
  have hk : s.acceptCount (rot p s.host.off).length ≤ p.length := length_rot p _ ▸ acceptCount_le_length ..
  rw [SendsPattern, hring.sentAndPending_pushCore, h, hoff, ← repeated_add p _ (hoff ▸ hk), Nat.add_assoc]
  rfl

/-- A DMA step that does not underrun moves bytes from pending to sent. -/
theorem RingInv.dmaStep_length {s : State} (h : RingInv s) (hfull : s.cfg.ringS ≤ s.fill) :
    (Machine.dmaStep s).lcdOut.length + (Machine.dmaStep s).fill = s.lcdOut.length + s.fill := by
  have hbytes := Memory.length_ringBytes s.cfg.ringS s.rpos fun j hj => h.valued j (hj.trans_le hfull)
  simp only [h.dmaStep_consumes hfull, List.length_append, hbytes]
  omega

/-! ## The points of BOOT, on a fresh ring or another -/

/-- A line or delay operation, as RESET_PULSE and the settle delays issue them. -/
abbrev HostCmd.IsLine (c : HostCmd) : Prop :=
  (∃ v, c = .issue (encode (.rstSet v))) ∨ ∃ us, c = .issue (encode (.delayUs us))

/-- A point of BOOT(P) as in `BootPoint`; what that says of the ring is asked for only where BOOT began on a `fresh` ring,
that is an empty one. No fault depends on it (R205). -/
inductive BootCourse (p : List Byte) (fresh : Prop) (s : State) : Prop where
  | boot (phase : s.phase = .owned) (empty : fresh → s.fill = 0) (todo : s.host.todo = [.boot p])
  | init (phase : s.phase = .owned) (empty : fresh → s.fill = 0) (todo : s.host.todo = [.init, .bootContinue p])
  | entry (cmds : List HostCmd) (rest : List (Byte × List Byte)) (phase : s.phase = .owned) (empty : fresh → s.fill = 0)
      (sys : s.sys = .configuring) (table : rest <:+ s.cfg.initTable) (lines : ∀ c ∈ cmds, c.IsLine)
      (todo : s.host.todo = cmds ++ [.initEntry rest, .bootContinue p])
  | command (op : Byte) (ps : List Byte) (rest : List (Byte × List Byte)) (phase : s.phase = .owned)
      (empty : fresh → s.fill = 0) (sys : s.sys = .configuring) (table : (op, ps) :: rest <:+ s.cfg.initTable)
      (depth : 0 < s.depth) (todo : s.host.todo = [.initCmd op ps rest, .bootContinue p])
  | parameters (op : Byte) (ps : List Byte) (rest : List (Byte × List Byte)) (phase : s.phase = .owned)
      (empty : fresh → s.fill = 0) (sys : s.sys = .configuring) (table : (op, ps) :: rest <:+ s.cfg.initTable)
      (depth : 0 < s.depth) (todo : s.host.todo = [.initData op ps rest, .bootContinue p])
  | sent (op : Byte) (rest : List (Byte × List Byte)) (phase : s.phase = .owned) (empty : fresh → s.fill = 0)
      (sys : s.sys = .configuring) (table : rest <:+ s.cfg.initTable) (depth : 0 < s.depth)
      (todo : s.host.todo = [.initEnd op rest, .bootContinue p])
  | initialised (phase : s.phase = .owned) (empty : fresh → s.fill = 0) (sys : s.host.r = .ok → s.sys = .ready)
      (todo : s.host.todo = [.bootContinue p])
  | returned (phase : s.phase = .owned) (empty : fresh → s.fill = 0) (todo : s.host.todo = [])
  | prefill (phase : s.phase = .owned) (empty : fresh → s.fill = 0) (sys : s.sys = .ready)
      (todo : s.host.todo = [.prefill p, .start, .streamLoop p])
  | prefilling (phase : s.phase = .owned) (sys : s.sys = .ready) (off : fresh → s.host.off = s.fill % p.length)
      (todo : s.host.todo = [.prefillLoop p, .start, .streamLoop p])
  | prefilled (phase : s.phase = .owned) (sys : s.sys = .ready) (off : fresh → s.host.off = s.fill % p.length)
      (todo : s.host.todo = [.start, .streamLoop p])
  | streaming (phase : s.phase = .shared) (sys : s.sys = .streaming)
      (off : fresh → s.host.off = (s.lcdOut.length + s.fill) % p.length) (todo : s.host.todo = [.streamLoop p])

/-- On a fresh ring these are the points of `BootPoint`. -/
theorem bootCourse_iff {p : List Byte} {s : State} : BootCourse p True s ↔ BootPoint p s := by
  constructor
  · intro h
    cases h with
    | boot hp he ht => exact .boot hp (he trivial) ht
    | init hp he ht => exact .init hp (he trivial) ht
    | entry cmds rest hp he hs hi hl ht => exact .entry cmds rest hp (he trivial) hs hi hl ht
    | command op ps rest hp he hs hi hd ht => exact .command op ps rest hp (he trivial) hs hi hd ht
    | parameters op ps rest hp he hs hi hd ht => exact .parameters op ps rest hp (he trivial) hs hi hd ht
    | sent op rest hp he hs hi hd ht => exact .sent op rest hp (he trivial) hs hi hd ht
    | initialised hp he hs ht => exact .initialised hp (he trivial) hs ht
    | returned hp he ht => exact .returned hp (he trivial) ht
    | prefill hp he hs ht => exact .prefill hp (he trivial) hs ht
    | prefilling hp hs ho ht => exact .prefilling hp hs (ho trivial) ht
    | prefilled hp hs ho ht => exact .prefilled hp hs (ho trivial) ht
    | streaming hp hs ho ht => exact .streaming hp hs (ho trivial) ht
  · intro h
    cases h with
    | boot hp he ht => exact .boot hp (fun _ => he) ht
    | init hp he ht => exact .init hp (fun _ => he) ht
    | entry cmds rest hp he hs hi hl ht => exact .entry cmds rest hp (fun _ => he) hs hi hl ht
    | command op ps rest hp he hs hi hd ht => exact .command op ps rest hp (fun _ => he) hs hi hd ht
    | parameters op ps rest hp he hs hi hd ht => exact .parameters op ps rest hp (fun _ => he) hs hi hd ht
    | sent op rest hp he hs hi hd ht => exact .sent op rest hp (fun _ => he) hs hi hd ht
    | initialised hp he hs ht => exact .initialised hp (fun _ => he) hs ht
    | returned hp he ht => exact .returned hp (fun _ => he) ht
    | prefill hp he hs ht => exact .prefill hp (fun _ => he) hs ht
    | prefilling hp hs ho ht => exact .prefilling hp hs (fun _ => ho) ht
    | prefilled hp hs ho ht => exact .prefilled hp hs (fun _ => ho) ht
    | streaming hp hs ho ht => exact .streaming hp hs (fun _ => ho) ht

/-! ## What a step of BOOT comes to -/

/-- What a step of BOOT(P) from `s` may answer: the next point, with the content of R206; an UNDERRUN; an ILLEGAL_OPERATION
where an operand does not fit; or the stop of an INIT begun outside RESET. -/
inductive BootStep (p : List Byte) (fresh : Prop) (s : State) : Host.Outcome State Fault Refusal → Prop where
  | goesOn {t : State} (faults : t.faults = []) (point : BootCourse p fresh t) (content : fresh → SendsPattern p t)
      (ahead : t.initAhead p → s.initAhead p ∧ t.sys = s.sys) : BootStep p fresh s (.next t)
  | underruns {t : State} {r : FaultRecord} (faults : t.faults = [r]) (code : r.code = .underrun)
      (ahead : ¬t.initAhead p) : BootStep p fresh s (.next t)
  | illegal {t : State} (faults : t.faults ≠ []) (unfit : ¬(p.length < maxPayload ∧ tableFits s.cfg.initTable)) :
      BootStep p fresh s (.next t)
  | stuck {r : Fault} (ahead : s.initAhead p) (sys : s.sys ≠ .reset) : BootStep p fresh s (.fault r)

theorem not_initAhead {p : List Byte} {s : State} {c : HostCmd} {rest : List HostCmd} (ht : s.host.todo = c :: rest)
    (hboot : c ≠ .boot p) (hinit : c ≠ .init) : ¬s.initAhead p := by
  rintro (h | h)
  · exact hboot (List.cons.inj (ht.symm.trans h)).1
  · exact hinit (List.cons.inj (ht.symm.trans h)).1

theorem not_initAhead_of_isLine {p : List Byte} {s : State} {cmds : List HostCmd} {rest : List (Byte × List Byte)}
    (hlines : ∀ c ∈ cmds, c.IsLine) (ht : s.host.todo = cmds ++ [.initEntry rest, .bootContinue p]) :
    ¬s.initAhead p := by
  cases cmds with
  | nil => exact not_initAhead ht nofun nofun
  | cons c cmds =>
    rcases hlines c List.mem_cons_self with ⟨v, rfl⟩ | ⟨us, rfl⟩ <;> exact not_initAhead ht nofun nofun

/-- What the host does between two steps of an operation does not touch the ring. -/
theorem RingUnchanged.of_hostOnly {s u v t : State} (h : RingUnchanged u v) (hsu : HostOnly s u) (hvt : HostOnly v t) :
    RingUnchanged s t :=
  (hsu.ringUnchanged.trans h).trans hvt.ringUnchanged

theorem RingUnchanged.refl (s : State) : RingUnchanged s s := (HostOnly.refl s).ringUnchanged

theorem SerialFrame.ringUnchanged {s t : State} (h : SerialFrame s t) : RingUnchanged s t := by
  rw [h.only]; constructor <;> rfl

theorem SerialFrame.faults {s t : State} (h : SerialFrame s t) : t.faults = s.faults := by rw [h.only]

theorem SerialFrame.sys {s t : State} (h : SerialFrame s t) : t.sys = s.sys := by rw [h.only]

theorem SerialFrame.host {s t : State} (h : SerialFrame s t) : t.host = s.host := by rw [h.only]

/-- ST_CMD and ST_DATA, whatever their frames come to, write the Serial Transport Unit's fields and keep the depth. -/
theorem exec_send_serialFrame {i : Instr} (hi : (∃ b, i = .stCmd b) ∨ ∃ bytes, i = .stData bytes) (s : State) :
    ∃ t, exec i s = .next t ∧ SerialFrame s t ∧ t.depth = s.depth := by
  rcases hi with ⟨b, rfl⟩ | ⟨bytes, rfl⟩
  · exact ⟨_, rfl, session_serialFrame (emitFrame_serialFrame ..) _, session_depth (emitFrame_frame ..) _⟩
  · exact ⟨_, rfl, session_serialFrame (sendData_serialFrame ..) _, session_depth (sendData_frame ..) _⟩

theorem resetPulseCmds_isLine : ∀ c ∈ resetPulseCmds, c.IsLine := by
  simp only [resetPulseCmds, delayCmd, List.forall_mem_cons, List.not_mem_nil, false_imp_iff, implies_true, and_true]
  exact ⟨.inl ⟨_, rfl⟩, .inr ⟨_, rfl⟩, .inl ⟨_, rfl⟩, .inr ⟨_, rfl⟩, .inl ⟨_, rfl⟩, .inr ⟨_, rfl⟩⟩

theorem settleCmds_isLine (cfg : Config) (op : Byte) : ∀ c ∈ settleCmds cfg op, c.IsLine := by
  have hdelay (b : Prop) [Decidable b] (us : BitVec 24) : ∀ c ∈ (if b then [delayCmd us] else []), c.IsLine := by
    intro c hc
    split at hc
    · exact List.mem_singleton.1 hc ▸ .inr ⟨us, rfl⟩
    · cases hc
  intro c hc
  rcases List.mem_append.1 hc with hc | hc
  · exact hdelay _ _ c hc
  · exact hdelay _ _ c hc

/-- A line or delay operation completes, and writes the reset line and the trace alone (R190, R191). -/
theorem hostCmd_of_isLine {c : HostCmd} (hc : c.IsLine) (s : State) :
    ∃ t, hostCmd c s = .next t ∧ t = { s with rst := t.rst, wire := t.wire } := by
  rcases hc with ⟨v, rfl⟩ | ⟨us, rfl⟩
  · exact ⟨_, issue_of_wf rfl s, rfl⟩
  · exact ⟨_, issue_of_wf rfl s, rfl⟩

section
variable {p : List Byte} {fresh : Prop} {s : State}

/-- A step that leaves the ring alone and comes to a point of BOOT after INIT's beginning. -/
theorem BootStep.quiet {t : State} (h : fresh → SendsPattern p s) (hu : RingUnchanged s t) (hf : t.faults = [])
    (hahead : ¬t.initAhead p) (hpoint : BootCourse p fresh t) : BootStep p fresh s (.next t) :=
  .goesOn hf hpoint (fun hf => (h hf).of_ringUnchanged hu) fun ha => absurd ha hahead

variable (h : fresh → SendsPattern p s) (hf : s.faults = [])
include h hf

/-- BOOT's first step, and INIT's beginning. -/
theorem bootStep_boot (hphase : s.phase = .owned) (hempty : fresh → s.fill = 0) (htodo : s.host.todo = [.boot p]) :
    BootStep p fresh s (step s) := by
  rw [step_owned hf hphase htodo]
  exact .goesOn hf (.init hphase hempty rfl) (fun hfr => (h hfr).of_ringUnchanged (by constructor <;> rfl))
    fun _ => ⟨.inl htodo, rfl⟩

theorem bootStep_init (hphase : s.phase = .owned) (hempty : fresh → s.fill = 0)
    (htodo : s.host.todo = [.init, .bootContinue p]) : BootStep p fresh s (step s) := by
  rw [step_owned hf hphase htodo]
  by_cases hs : s.sys = .reset
  · rw [hostCmd_init (by exact hs)]
    exact .quiet h (by constructor <;> rfl) hf (not_initAhead rfl nofun nofun)
      (.entry resetPulseCmds _ hphase hempty rfl (List.suffix_refl _) resetPulseCmds_isLine rfl)
  · rw [hostCmd_init_outside (by exact hs)]
    exact .stuck (.inr htodo) hs

/-- INIT at the head of its loop, or with line and delay operations still to issue before it. -/
theorem bootStep_entry {cmds : List HostCmd} {rest : List (Byte × List Byte)} (hphase : s.phase = .owned)
    (hempty : fresh → s.fill = 0) (hsys : s.sys = .configuring) (htable : rest <:+ s.cfg.initTable)
    (hlines : ∀ c ∈ cmds, c.IsLine) (htodo : s.host.todo = cmds ++ [.initEntry rest, .bootContinue p]) :
    BootStep p fresh s (step s) := by
  cases cmds with
  | cons c cmds =>
    obtain ⟨hc, hlines⟩ := List.forall_mem_cons.1 hlines
    obtain ⟨t, ht, heq⟩ := hostCmd_of_isLine hc (s.withTodo (cmds ++ [.initEntry rest, .bootContinue p]))
    rw [List.cons_append] at htodo
    rw [step_owned hf hphase htodo, ht, heq]
    exact .quiet h (by constructor <;> rfl) hf (not_initAhead_of_isLine hlines rfl)
      (.entry cmds rest hphase hempty hsys htable hlines rfl)
  | nil =>
    rw [step_owned hf hphase htodo]
    rcases rest with _ | ⟨⟨op, ps⟩, rest⟩
    · exact .quiet h (by constructor <;> rfl) hf (not_initAhead rfl nofun nofun)
        (.initialised hphase hempty (fun _ => rfl) rfl)
    · rw [hostCmd_initEntry_cons (by exact hf)]
      have hu := (sessionOpen_ringUnchanged (s.withTodo [.bootContinue p])).of_hostOnly (s := s)
        (t := (sessionOpen (s.withTodo [.bootContinue p])).pushTodo [.initCmd op ps rest]) rfl rfl
      have hhost := (sessionOpen_turnsUnchanged (s.withTodo [.bootContinue p])).host
      have htodo' : ((sessionOpen (s.withTodo [.bootContinue p])).pushTodo [.initCmd op ps rest]).host.todo =
          [.initCmd op ps rest, .bootContinue p] := by rw [State.pushTodo_host, hhost]; rfl
      refine .quiet h hu ?_ (not_initAhead htodo' nofun nofun)
        (.command op ps rest (hu.phase.trans hphase) (fun hfr => hu.fill.trans (hempty hfr)) ?_
          (hu.cfg ▸ htable) ?_ htodo')
      · simpa using hf
      · rw [State.pushTodo_sys, sessionOpen_eq]; exact hsys
      · simp

/-- INIT at an entry's ST_CMD. -/
theorem bootStep_command {op : Byte} {ps : List Byte} {rest : List (Byte × List Byte)} (hphase : s.phase = .owned)
    (hempty : fresh → s.fill = 0) (hsys : s.sys = .configuring) (htable : (op, ps) :: rest <:+ s.cfg.initTable)
    (hdepth : 0 < s.depth) (htodo : s.host.todo = [.initCmd op ps rest, .bootContinue p]) :
    BootStep p fresh s (step s) := by
  obtain ⟨t, he, hframe, hd⟩ := exec_send_serialFrame (.inl ⟨op, rfl⟩) (s.withTodo [.bootContinue p])
  have hu (l : List HostCmd) := hframe.ringUnchanged.of_hostOnly (s := s) (t := t.noteResult.pushTodo l) rfl rfl
  have htodo' (c : HostCmd) : (t.noteResult.pushTodo [c]).host.todo = [c, .bootContinue p] := by simp [hframe.host]
  have hf' : t.faults = [] := hframe.faults.trans hf
  rw [step_owned hf hphase htodo, hostCmd_initCmd he hf']
  split
  · exact .quiet h (hu _) hf' (not_initAhead (htodo' _) nofun nofun)
      (.parameters op ps rest ((hu []).phase.trans hphase) (fun hfr => (hu []).fill.trans (hempty hfr))
        (hframe.sys.trans hsys) ((hu []).cfg ▸ htable) (hd ▸ hdepth) (htodo' _))
  · exact .quiet h (hu _) hf' (not_initAhead (htodo' _) nofun nofun)
      (.sent op rest ((hu []).phase.trans hphase) (fun hfr => (hu []).fill.trans (hempty hfr)) (hframe.sys.trans hsys)
        ((hu []).cfg ▸ (List.suffix_cons ..).trans htable) (hd ▸ hdepth) (htodo' _))

/-- INIT at an entry's ST_DATA. -/
theorem bootStep_parameters {op : Byte} {ps : List Byte} {rest : List (Byte × List Byte)} (hphase : s.phase = .owned)
    (hempty : fresh → s.fill = 0) (hsys : s.sys = .configuring) (htable : (op, ps) :: rest <:+ s.cfg.initTable)
    (hdepth : 0 < s.depth) (htodo : s.host.todo = [.initData op ps rest, .bootContinue p]) :
    BootStep p fresh s (step s) := by
  rw [step_owned hf hphase htodo]
  by_cases hlen : ps.length < maxPayload
  · obtain ⟨t, he, hframe, hd⟩ := exec_send_serialFrame (.inr ⟨ps, rfl⟩) (s.withTodo [.bootContinue p])
    have hu := hframe.ringUnchanged.of_hostOnly (s := s) (t := t.noteResult.pushTodo [.initEnd op rest]) rfl rfl
    have htodo' : (t.noteResult.pushTodo [.initEnd op rest]).host.todo = [.initEnd op rest, .bootContinue p] := by
      simp [hframe.host]
    have hf' : t.faults = [] := hframe.faults.trans hf
    rw [hostCmd_initData hlen he hf']
    exact .quiet h hu hf' (not_initAhead htodo' nofun nofun)
      (.sent op rest (hu.phase.trans hphase) (fun hfr => hu.fill.trans (hempty hfr)) (hframe.sys.trans hsys)
        (hu.cfg ▸ (List.suffix_cons ..).trans htable) (hd ▸ hdepth) htodo')
  · rw [hostCmd, hostInitData, thenHost_issue_of_not_wf (by simpa [Instr.wf] using hlen)]
    exact .illegal (raiseOp_faults_ne_nil _ _ _) fun ⟨_, hfits⟩ => hlen (hfits _ (htable.subset List.mem_cons_self))

/-- INIT at an entry's ST_END. -/
theorem bootStep_sent {op : Byte} {rest : List (Byte × List Byte)} (hphase : s.phase = .owned)
    (hempty : fresh → s.fill = 0) (hsys : s.sys = .configuring) (htable : rest <:+ s.cfg.initTable)
    (hdepth : 0 < s.depth) (htodo : s.host.todo = [.initEnd op rest, .bootContinue p]) : BootStep p fresh s (step s) := by
  rw [step_owned hf hphase htodo, hostCmd_initEnd (by exact hdepth) (by exact hf), sessionClose_eq]
  cases hr : s.host.r with
  | err e =>
    rw [afterEntry_err (e := e) (by exact hr)]
    exact .quiet h (by constructor <;> rfl) hf (not_initAhead rfl nofun nofun)
      (.initialised hphase hempty (fun hok => nomatch hr.symm.trans hok) rfl)
  | ok =>
    rw [afterEntry_ok (by exact hr)]
    have hlines := settleCmds_isLine s.cfg op
    exact .quiet h (by constructor <;> rfl) hf (not_initAhead_of_isLine hlines (List.append_assoc ..))
      (.entry _ rest hphase hempty hsys htable hlines (List.append_assoc ..))

/-- BOOT after INIT has returned. -/
theorem bootStep_initialised (hphase : s.phase = .owned) (hempty : fresh → s.fill = 0)
    (hsys : s.host.r = .ok → s.sys = .ready) (htodo : s.host.todo = [.bootContinue p]) : BootStep p fresh s (step s) := by
  rw [step_owned hf hphase htodo]
  by_cases hr : s.host.r = .ok
  · rw [hostCmd_bootContinue_ok (by exact hr)]
    exact .quiet h (by constructor <;> rfl) hf (not_initAhead rfl nofun nofun) (.prefill hphase hempty (hsys hr) rfl)
  · rw [hostCmd_bootContinue_err (by exact hr)]
    exact .quiet h (by constructor <;> rfl) hf (by rintro (h | h) <;> cases h) (.returned hphase hempty rfl)

theorem bootStep_returned (hphase : s.phase = .owned) (hempty : fresh → s.fill = 0) (htodo : s.host.todo = []) :
    BootStep p fresh s (step s) := by
  have hidle : step s = .next s := by simp only [step_of_no_fault hf, agentStep_owned hphase, hostStep, htodo]
  rw [hidle]
  exact .goesOn hf (.returned hphase hempty htodo) h fun ha => ⟨ha, rfl⟩

/-- BOOT at PREFILL's beginning. -/
theorem bootStep_prefill (hp : p ≠ []) (hphase : s.phase = .owned) (hempty : fresh → s.fill = 0) (hsys : s.sys = .ready)
    (htodo : s.host.todo = [.prefill p, .start, .streamLoop p]) : BootStep p fresh s (step s) := by
  rw [step_owned hf hphase htodo, hostCmd_prefill hp]
  refine .quiet h (by constructor <;> rfl) hf (not_initAhead rfl nofun nofun)
    (.prefilling hphase hsys (fun hfr => ?_) rfl)
  simp [hempty hfr]

end

/-! ## The points of BOOT that push -/

section
variable {p : List Byte} {s t : State} (hoff : s.host.off = (s.lcdOut.length + s.fill) % p.length)
  (ht : t = notePush p (Machine.pushCore (rot p s.host.off) s))
include hoff ht

/-- A push that goes with the repetition, by PREFILL or STREAM, keeps the content (R197, R199). -/
theorem SendsPattern.notePush (h : SendsPattern p s) (hring : RingInv s) : SendsPattern p t :=
  ht ▸ (h.pushCore hring hoff).of_ringUnchanged (HostOnly.ringUnchanged rfl)

/-- Its offset goes on with the repetition. -/
theorem notePush_off : t.host.off = (t.lcdOut.length + t.fill) % p.length := by
  simp only [ht, notePush_host, notePush_lcdOut, notePush_fill, pushCore_host, pushCore_lcdOut, pushCore_fill,
    pushCore_accepted, hoff, Nat.mod_add_mod, Nat.add_assoc]

end

section
variable {p : List Byte} {fresh : Prop} {s : State} (h : fresh → SendsPattern p s) (hring : RingInv s)
  (hf : s.faults = [])
include h hring hf

/-- BOOT in PREFILL's loop. -/
theorem bootStep_prefilling (hphase : s.phase = .owned) (hsys : s.sys = .ready)
    (hoff : fresh → s.host.off = s.fill % p.length)
    (htodo : s.host.todo = [.prefillLoop p, .start, .streamLoop p]) : BootStep p fresh s (step s) := by
  rw [step_owned hf hphase htodo]
  by_cases hlen : p.length < maxPayload
  · obtain ⟨-, hlcd⟩ := hring.owned hphase
    have hw : RingUnchanged s (s.withTodo [.start, .streamLoop p]) := HostOnly.ringUnchanged rfl
    have hoff (hfr : fresh) : (s.withTodo [.start, .streamLoop p]).host.off =
        ((s.withTodo [.start, .streamLoop p]).lcdOut.length + (s.withTodo [.start, .streamLoop p]).fill) % p.length := by
      simpa [hlcd] using hoff hfr
    have hcontent (hfr : fresh) :=
      ((h hfr).of_ringUnchanged hw).notePush (hoff hfr) rfl (hring.of_ringUnchanged hw)
    have hnext (hfr : fresh) := notePush_off (hoff hfr) rfl
    rw [hostCmd_prefillLoop (by exact hphase) hlen (by exact hf)]
    split
    · exact .goesOn (by simpa using hf)
        (.prefilled (by simpa using hphase) (by simpa using hsys) (by simpa [hlcd] using hnext) (by simp)) hcontent
        fun ha => absurd ha (not_initAhead rfl nofun nofun)
    · exact .goesOn (by simpa using hf)
        (.prefilling (by simpa using hphase) (by simpa using hsys) (by simpa [hlcd] using hnext) (by simp))
        (fun hfr => (hcontent hfr).of_ringUnchanged (HostOnly.ringUnchanged rfl))
        fun ha => absurd ha (not_initAhead rfl nofun nofun)
  · rw [hostCmd, hostPrefillLoop, thenHost_issue_of_not_wf (by simpa [Instr.wf] using hlen)]
    exact .illegal (raiseOp_faults_ne_nil _ _ _) fun ⟨hfits, _⟩ => hlen hfits

/-- BOOT at START. -/
theorem bootStep_prefilled (hphase : s.phase = .owned) (hsys : s.sys = .ready)
    (hoff : fresh → s.host.off = s.fill % p.length) (htodo : s.host.todo = [.start, .streamLoop p]) :
    BootStep p fresh s (step s) := by
  obtain ⟨-, hlcd⟩ := hring.owned hphase
  rw [step_owned hf hphase htodo, hostCmd_start_ready (by exact hphase) (by exact hsys) (by exact hf)]
  refine .goesOn hf (.streaming rfl rfl ?_ rfl) h fun ha => absurd ha (not_initAhead rfl nofun nofun)
  simpa [hlcd] using hoff

/-- BOOT in STREAM's loop, at the host's turn. -/
theorem bootStep_streaming_host (hphase : s.phase = .shared) (hsys : s.sys = .streaming)
    (hoff : fresh → s.host.off = (s.lcdOut.length + s.fill) % p.length) (htodo : s.host.todo = [.streamLoop p])
    (hturn : s.drawnAgent = .host) : BootStep p fresh s (step s) := by
  rw [step_host hf (hostTakes_shared (State.drawnAgent_host_iff.1 hturn)) htodo]
  by_cases hlen : p.length < maxPayload
  · have hw : RingUnchanged s ((s.afterTurns 1).withTodo []) := by constructor <;> rfl
    have hcontent (hfr : fresh) :=
      ((h hfr).of_ringUnchanged hw).notePush (s := (s.afterTurns 1).withTodo []) (hoff hfr) rfl
        (hring.of_ringUnchanged hw)
    have hnext (hfr : fresh) := notePush_off (p := p) (s := (s.afterTurns 1).withTodo []) (hoff hfr) rfl
    rw [hostCmd_streamLoop (by exact hphase) hlen (by exact hf)]
    exact .goesOn (by simpa using hf)
      (.streaming (by simpa using hphase) (by simpa using hsys) (by simpa using hnext) (by simp))
      (fun hfr => (hcontent hfr).of_ringUnchanged (HostOnly.ringUnchanged rfl))
      fun ha => absurd ha (not_initAhead rfl nofun nofun)
  · rw [hostCmd, hostStreamLoop, thenHost_issue_of_not_wf (by simpa [Instr.wf] using hlen)]
    exact .illegal (raiseOp_faults_ne_nil _ _ _) fun ⟨hfits, _⟩ => hlen hfits

/-- BOOT in STREAM's loop, at the DMA agent's turn: a full descriptor goes out, or there is an UNDERRUN. -/
theorem bootStep_streaming_dma (hphase : s.phase = .shared) (hsys : s.sys = .streaming)
    (hoff : fresh → s.host.off = (s.lcdOut.length + s.fill) % p.length) (htodo : s.host.todo = [.streamLoop p])
    (hturn : s.drawnAgent = .dma) : BootStep p fresh s (step s) := by
  have hw := takeChoice_ringUnchanged s
  have hring' := hring.of_ringUnchanged hw
  rw [step_of_no_fault hf, agentStep_shared_dma hphase (by simp [htodo]) hturn]
  rcases Nat.lt_or_ge s.fill s.cfg.ringS with hlow | hfull
  · rw [dmaStep_underruns (by exact hlow)]
    refine .underruns (r := ⟨.underrun, .descriptorFill (s.rpos / s.cfg.ringS) s.fill⟩) ?_ rfl
      (not_initAhead (c := .streamLoop p) (rest := []) htodo nofun nofun)
    rw [dmaUnderrun_faults, State.takeChoice_faults, hf, hw.rpos, hw.cfg, hw.fill, List.nil_append]
  · have hsum := hring'.dmaStep_length hfull
    have hdrain := hring'.dmaStep_consumes hfull
    have hf' : (dmaStep s.takeChoice).faults = [] := by rw [hdrain]; exact hf
    have hsys' : (dmaStep s.takeChoice).sys = .streaming := by rw [hdrain]; exact hsys
    have hhost : (dmaStep s.takeChoice).host = s.host := by rw [hdrain, State.takeChoice_host]
    have htodo' := (congrArg HostCtl.todo hhost).trans htodo
    refine .goesOn hf' (.streaming ((dmaStep_phase _).trans hphase) hsys' (fun hfr => ?_) htodo') (fun hfr => ?_)
      fun ha => absurd ha (not_initAhead htodo' nofun nofun)
    · rw [hhost, hsum, hw.lcdOut, hw.fill, hoff hfr]
    · rw [SendsPattern, hring'.sentAndPending_dmaStep hf', hsum, hw.sentAndPending, hw.lcdOut, hw.fill, h hfr]

end

/-! ## BOOT on its course -/

/-- BOOT(P) is running as it should; on a `fresh` ring with the content of R206. -/
structure OnCourse (p : List Byte) (fresh : Prop) (s : State) : Prop where
  ring : RingInv s
  pattern : p ≠ []
  course : BootCourse p fresh s
  content : fresh → SendsPattern p s

theorem onCourse_iff {p : List Byte} {s : State} : OnCourse p True s ↔ BootRunning p s :=
  ⟨fun h => ⟨h.ring, h.pattern, bootCourse_iff.1 h.course, h.content trivial⟩,
    fun h => ⟨h.ring, h.pattern, bootCourse_iff.2 h.point, fun _ => h.content⟩⟩

section
variable {p : List Byte} {fresh : Prop} {s t : State} (h : OnCourse p fresh s) (hf : s.faults = [])
include h hf

theorem OnCourse.bootStep : BootStep p fresh s (step s) := by
  obtain ⟨hring, hp, hpoint, hcontent⟩ := h
  cases hpoint with
  | boot hphase hempty htodo => exact bootStep_boot hcontent hf hphase hempty htodo
  | init hphase hempty htodo => exact bootStep_init hcontent hf hphase hempty htodo
  | entry cmds rest hphase hempty hsys htable hlines htodo =>
    exact bootStep_entry hcontent hf hphase hempty hsys htable hlines htodo
  | command op ps rest hphase hempty hsys htable hdepth htodo =>
    exact bootStep_command hcontent hf hphase hempty hsys htable hdepth htodo
  | parameters op ps rest hphase hempty hsys htable hdepth htodo =>
    exact bootStep_parameters hcontent hf hphase hempty hsys htable hdepth htodo
  | sent op rest hphase hempty hsys htable hdepth htodo =>
    exact bootStep_sent hcontent hf hphase hempty hsys htable hdepth htodo
  | initialised hphase hempty hsys htodo => exact bootStep_initialised hcontent hf hphase hempty hsys htodo
  | returned hphase hempty htodo => exact bootStep_returned hcontent hf hphase hempty htodo
  | prefill hphase hempty hsys htodo => exact bootStep_prefill hcontent hf hp hphase hempty hsys htodo
  | prefilling hphase hsys hoff htodo => exact bootStep_prefilling hcontent hring hf hphase hsys hoff htodo
  | prefilled hphase hsys hoff htodo => exact bootStep_prefilled hcontent hring hf hphase hsys hoff htodo
  | streaming hphase hsys hoff htodo =>
    cases hturn : s.drawnAgent with
    | host => exact bootStep_streaming_host hcontent hring hf hphase hsys hoff htodo hturn
    | dma => exact bootStep_streaming_dma hcontent hring hf hphase hsys hoff htodo hturn

/-- A step without a fault keeps BOOT on its course. -/
theorem OnCourse.step (hs : Machine.step s = .next t) (hft : t.faults = []) : OnCourse p fresh t := by
  have hstep := h.bootStep hf
  rw [hs] at hstep
  cases hstep with
  | goesOn _ hpoint hcontent _ => exact ⟨stepKeepsRingInv s t h.ring hs, h.pattern, hpoint, hcontent⟩
  | underruns hr _ _ => simp [hr] at hft
  | illegal hr _ => exact absurd hft hr

variable (hlen : p.length < maxPayload) (hfits : tableFits s.cfg.initTable) (hsys : s.initAhead p → s.sys = .reset)
include hlen hfits hsys

/-- Where the operands fit and INIT is not begun outside RESET, there is a next step, and no fault but an UNDERRUN. -/
theorem OnCourse.step_of_fits :
    ∃ t, Machine.step s = .next t ∧ (∀ r ∈ t.faults, r.code = .underrun) ∧ (t.initAhead p → t.sys = .reset) := by
  have hstep := h.bootStep hf
  generalize Machine.step s = o at hstep
  cases hstep with
  | @goesOn t hft _ _ hahead =>
    refine ⟨t, rfl, by simp [hft], fun ha => ?_⟩
    obtain ⟨hs, heq⟩ := hahead ha
    exact heq.trans (hsys hs)
  | @underruns t r hr hcode hahead => exact ⟨t, rfl, by simpa [hr] using hcode, fun ha => absurd ha hahead⟩
  | illegal _ hunfit => exact absurd ⟨hlen, hfits⟩ hunfit
  | stuck ha hs => exact absurd (hsys ha) hs

/-- Then every run goes on, or ends with an UNDERRUN. -/
theorem OnCourse.run_of_fits (n : Nat) :
    (∃ t, run n s = .next t ∧ ∀ r ∈ t.faults, r.code = .underrun) ∨
      ∃ r, run n s = .fault (.stopped r) ∧ r.code = .underrun := by
  induction n generalizing s with
  | zero => exact .inl ⟨s, rfl, by simp [hf]⟩
  | succ n ih =>
    obtain ⟨t, hs, hfaults, hahead⟩ := h.step_of_fits hf hlen hfits hsys
    obtain ⟨hcfg, -⟩ := configurationIsConstant s t hs
    rw [run_succ n hs]
    cases hft : t.faults with
    | nil => exact ih (h.step hf hs hft) hft (hcfg ▸ hfits) hahead
    | cons r rs =>
      cases n with
      | zero => exact .inl ⟨t, rfl, hfaults⟩
      | succ n => exact .inr ⟨r, run_succ_fault n (step_faulted hft), hfaults r (hft ▸ List.mem_cons_self)⟩

end

theorem BootInv.step {p : List Byte} {s t : State} (h : BootInv p s) (hs : Machine.step s = .next t) : BootInv p t := by
  obtain ⟨hf, -⟩ := step_cases hs
  exact fun hft => onCourse_iff.1 ((onCourse_iff.2 (h hf)).step hf hs hft)

/-- Settles O60: the step of each point, by `OnCourse.bootStep`. -/
theorem stepKeepsBootInv : Obligations.StepKeepsBootInv := by
  unfold Obligations.StepKeepsBootInv
  exact ⟨fun p s t => BootInv.step, fun p s h => (onCourse_iff.2 h).step_of_fits⟩

/-! ## Runs of BOOT -/

theorem BootInv.run {p : List Byte} {n : Nat} {s t : State} (h : BootInv p s) (hrun : Machine.run n s = .next t) :
    BootInv p t := by
  induction n generalizing s with
  | zero => injection hrun with hrun; exact hrun ▸ h
  | succ n ih =>
    obtain ⟨u, hs, hrun⟩ := run_succ_cases hrun
    exact ih (h.step hs) hrun

/-- On an empty ring that software owns, nothing has been sent and nothing is pending. -/
theorem RingInv.sendsPattern_of_empty {p : List Byte} {s : State} (h : RingInv s) (hphase : s.phase = .owned)
    (hempty : s.fill = 0) : SendsPattern p s := by
  obtain ⟨-, hlcd⟩ := h.owned hphase
  rw [SendsPattern, State.sentAndPending, State.pending, hlcd, hempty]
  rfl

/-- What has been sent is the start of the repetition. -/
theorem SendsPattern.lcdOut {p : List Byte} {s : State} (h : SendsPattern p s) :
    s.lcdOut = repeated p s.lcdOut.length := by
  have htake := congrArg (List.take s.lcdOut.length) h
  rwa [State.sentAndPending, List.take_left, take_repeated p (Nat.le_add_right ..)] at htake

/-- Settles O56: the invariant of BOOT holds where it begins and is kept along the run. -/
theorem bootSendsRepeatedPattern : Obligations.BootSendsRepeatedPattern := by
  unfold Obligations.BootSendsRepeatedPattern
  intro n s t p hring hphase hempty hp htodo hrun hf
  have hinv : BootInv p s := fun _ =>
    ⟨hring, hp, .boot hphase hempty htodo, hring.sendsPattern_of_empty hphase hempty⟩
  exact SendsPattern.lcdOut (hinv.run hrun hf).content

/-- Settles O57: the ring need not be fresh for BOOT to keep its course. -/
theorem bootFaultsOnlyByUnderrun : Obligations.BootFaultsOnlyByUnderrun := by
  unfold Obligations.BootFaultsOnlyByUnderrun
  intro n s p hring hf hphase hsys hp hlen hfits htodo
  have hcourse : OnCourse p False s := ⟨hring, hp, .boot hphase nofun htodo, nofun⟩
  exact hcourse.run_of_fits hf hlen hfits (fun _ => hsys) n

end Sys2Proof.Machine
end

section
/-! PROOFS. The host primitives and the single steps of START, STREAM, BOOT and of INIT's settling
(45_host_sequencing.md R190, R191, R196, R198, R199, R204, 93_implementation_defined.md U18). -/

namespace Sys2Proof.Machine

open Sys2Proof

/-- Settles O43: RST_SET drives the line, and a word with a bit above `v` is in no row. -/
theorem rstSetDrivesResetLine : Obligations.RstSetDrivesResetLine := by
  unfold Obligations.RstSetDrivesResetLine
  refine ⟨fun v => ?_, fun w p hopc harg => raisesIllegal_of_no_row (by rw [row_exists_iff]; omega) p, fun s v => rfl⟩
  cases v
  · exact decodeOfEncode (.rstSet false) rfl
  · exact decodeOfEncode (.rstSet true) rfl

/-- Settles O44: every operand decodes, and DELAY_US appends its wait. -/
theorem delayUsWaits : Obligations.DelayUsWaits := by
  unfold Obligations.DelayUsWaits
  refine ⟨fun us => ?_, fun s us => rfl⟩
  have hus := us.isLt
  refine decode_of_fields (k := 9) (a := us) ?_ ?_ rfl rfl
  · rw [BitVec.toNat_ofNat]; omega
  · rw [BitVec.toNat_ofNat]; omega

/-- Settles O53: START by its equations in either phase; that both its changes are one step is the model's choice
(log 12). -/
theorem startEntersStreaming : Obligations.StartEntersStreaming := by
  unfold Obligations.StartEntersStreaming
  intro s rest hf ht
  constructor
  · intro hp hs
    rw [step_owned hf hp ht, hostCmd_start_ready (by exact hp) (by exact hs) (by exact hf)]
    rfl
  · intro hp hh
    rw [step_host hf hh ht, hostCmd_start_shared (by exact hp), State.raiseOp, State.raise, State.record,
      State.withTodo_faults, State.afterTurns_faults, hf]
    rfl

/-- Settles O55: BOOT's own steps by their equations; the to-do list, and PREFILL's beginning outside READY, are the
model's choices (logs 12, 26). -/
theorem bootRunsProceduresInOrder : Obligations.BootRunsProceduresInOrder := by
  unfold Obligations.BootRunsProceduresInOrder
  refine fun s p rest hf hh => ⟨fun ht => step_host hf hh ht, fun ht => ⟨fun hr => ?_, fun hr => ?_⟩, fun ht hp => ?_⟩
  · rw [step_host hf hh ht, hostCmd_bootContinue_ok (by exact hr)]
    rfl
  · rw [step_host hf hh ht, hostCmd_bootContinue_err (by exact hr)]
  · rw [step_host hf hh ht, hostCmd_prefill hp]
    rfl

/-- Settles O58: each of the four procedures stops where its obligation is broken (the model's choice, log 13). -/
theorem brokenHostDutiesStop : Obligations.BrokenHostDutiesStop := by
  unfold Obligations.BrokenHostDutiesStop
  refine fun s rest hf hh => ⟨fun ht hs => ?_, fun ht => ?_, fun off ht => ?_, fun hp ht hs => ?_⟩
  · rw [step_host hf hh ht, hostCmd_init_outside (by exact hs)]
  · rw [step_host hf hh ht, hostCmd_prefill_nil]
  · rw [step_host hf hh ht, hostCmd_stream_nil]
  · rw [step_host hf hh ht, hostCmd_start_before_ready (by exact hp) (by exact hs)]

/-- Settles O54: a round of STREAM is a push of the turned pattern (R153); what it offers with an offset above `len(P)`,
and that it runs outside STREAMING, are the model's choices (logs 25, 26). -/
theorem streamOffersContinuation : Obligations.StreamOffersContinuation := by
  unfold Obligations.StreamOffersContinuation
  intro s p rest hf hp hturn hlen ht
  refine ⟨_, (step_host hf (hostTakes_shared (State.drawnAgent_host_iff.1 hturn)) ht).trans
    (hostCmd_streamLoop (by exact hp) hlen (by exact hf)), by simpa using hf, ?_⟩
  obtain ⟨m, hpush, hstored⟩ := pushCore_stores (rot p s.host.off) ((s.afterTurns 1).withTodo rest)
  rw [State.withTodo_host, State.afterTurns_host, hpush]
  rw [length_rot] at *
  exact ⟨rfl, rfl, hstored, rfl, rfl, rfl, rfl⟩

/-! The words of the fixed delays (R192, R194). -/

theorem delayCmd_rstDwell : delayCmd Config.rstDwellUs = .issue ⟨0x090186A0#32, []⟩ := by
  rw [delayCmd]; exact congrArg HostCmd.issue (by decide)

theorem delayCmd_sleepOut : delayCmd Config.sleepOutUs = .issue ⟨0x090186A0#32, []⟩ := delayCmd_rstDwell

theorem delayCmd_displayOn : delayCmd Config.displayOnUs = .issue ⟨0x0900C350#32, []⟩ := by
  rw [delayCmd]; exact congrArg HostCmd.issue (by decide)

/-- Settles O49: after an entry without error INIT goes on with `settleCmds`, whose delays are the two words; the to-do
list that says so is the model's (log 12). -/
theorem initSettlesAfterEntry : Obligations.InitSettlesAfterEntry := by
  unfold Obligations.InitSettlesAfterEntry
  intro s op rest tail hf hh hd hr ht
  have hend := hostCmd_initEnd (s := (s.afterTurns 1).withTodo tail) (op := op) (rest := rest) hd hf
  rw [sessionClose_eq, afterEntry_ok (by exact hr)] at hend
  refine ⟨_, (step_host hf hh ht).trans hend, ?_⟩
  change settleCmds s.cfg op ++ [HostCmd.initEntry rest] ++ tail = _
  rw [settleCmds, delayCmd_sleepOut, delayCmd_displayOn, List.append_assoc, List.singleton_append]

end Sys2Proof.Machine
end

section
/-! PROOFS. The system state machine and the running INIT: what a host command can do to the host's control, and that the
operations and the DMA step leave it alone (45_host_sequencing.md R200 to R203). -/

namespace Sys2Proof.Machine

open Sys2Proof

/-- The system state and the host's own state are as before. -/
structure ControlUnchanged (s t : State) : Prop where
  sys : t.sys = s.sys
  host : t.host = s.host

theorem ControlUnchanged.todo {s t : State} (h : ControlUnchanged s t) : t.host.todo = s.host.todo := by rw [h.host]

theorem SerialFrame.controlUnchanged {s t : State} (h : SerialFrame s t) : ControlUnchanged s t := ⟨h.sys, h.host⟩

/-- No operation touches the host's control. -/
theorem exec_controlUnchanged {i : Instr} {s t : State} (h : exec i s = .next t) : ControlUnchanged s t := by
  cases i with
  | stBegin => injection h with h; exact h ▸ (sessionOpen_serialFrame s).controlUnchanged
  | stEnd =>
    simp only [exec, execStEnd] at h
    split at h <;> injection h with h <;> subst h
    · exact ⟨rfl, rfl⟩
    · exact (sessionClose_serialFrame s).controlUnchanged
  | stCmd b => injection h with h; exact h ▸ (session_serialFrame (emitFrame_serialFrame ..) _).controlUnchanged
  | stData bytes => injection h with h; exact h ▸ (session_serialFrame (sendData_serialFrame ..) _).controlUnchanged
  | rbPush _ | txStart | txPush _ =>
    simp only [exec, execRbPush, execTxStart, execTxPush] at h
    split at h <;> injection h with h <;> subst h <;> exact ⟨rfl, rfl⟩
  | rstSet _ | delayUs _ => injection h with h; subst h; exact ⟨rfl, rfl⟩

theorem issueOp_controlUnchanged {op : Op} {s t : State} (h : issueOp op s = .next t) : ControlUnchanged s t := by
  rcases issueOp_cases h with ⟨i, -, he⟩ | ⟨r, -, rfl⟩
  · exact exec_controlUnchanged he
  · exact ⟨rfl, rfl⟩

theorem dmaStep_controlUnchanged (s : State) : ControlUnchanged s (dmaStep s) := by
  rcases dmaStep_cases s with h | ⟨_, _, -, -, h⟩ <;> rw [h] <;> exact ⟨rfl, rfl⟩

/-! ## What a host command can do to the host's control -/

/-- What the host command `c` can do to the system state and to what is left on the to-do list: it leaves the one and puts
at most as many points of INIT on the other as it was itself, or it is one of the transitions of R200 to R203. -/
inductive ControlMove (c : HostCmd) (s t : State) : Prop where
  | stays (new : List HostCmd) (todo : t.host.todo = new ++ s.host.todo)
      (points : new.countP HostCmd.inInit ≤ [c].countP HostCmd.inInit) (sys : t.sys = s.sys)
  | begins (before : s.sys = .reset) (points : t.host.todo.countP HostCmd.inInit = s.host.todo.countP HostCmd.inInit + 1)
      (sys : t.sys = .configuring)
  | completes (point : c.inInit = true) (todo : t.host.todo = s.host.todo) (sys : t.sys = .ready)
  | aborts (point : c.inInit = true) (todo : t.host.todo = s.host.todo) (sys : t.sys = .reset) (e : Err)
      (result : s.host.r = .err e) (error : t.sysError = some e)
  | handsOver (before : s.sys = .ready) (owned : s.phase = .owned) (todo : t.host.todo = s.host.todo)
      (sys : t.sys = .streaming) (shared : t.phase = .shared)

theorem countP_settleCmds (cfg : Config) (op : Byte) : (settleCmds cfg op).countP HostCmd.inInit = 0 := by
  rw [List.countP_eq_zero]
  intro c hc
  rcases settleCmds_isLine cfg op c hc with ⟨v, rfl⟩ | ⟨us, rfl⟩ <;> exact Bool.false_ne_true

theorem countP_whileAssertedCmds (body : List Op) : (whileAssertedCmds body).countP HostCmd.inInit = 0 := by
  simp [whileAssertedCmds, HostCmd.inInit]

section
variable {c : HostCmd} {s t : State}

theorem ControlMove.of_unchanged (h : ControlUnchanged s t) : ControlMove c s t :=
  .stays [] (by rw [h.host, List.nil_append]) (Nat.zero_le _) h.sys

theorem ControlMove.of_pushTodo {u : State} (hsys : u.sys = s.sys) (htodo : u.host.todo = s.host.todo)
    {new : List HostCmd} (hnew : new.countP HostCmd.inInit ≤ [c].countP HostCmd.inInit) :
    ControlMove c s (u.pushTodo new) :=
  .stays new (congrArg (new ++ ·) htodo) hnew hsys

/-- A command that issues an operation moves the control only in what the host does after it. -/
theorem ControlMove.thenHost {i : Instr} {f : State → State} (h : thenHost (issue i s) f = .next t)
    (hf : ∀ u, exec i s = .next u → u.faults = [] → ControlUnchanged s u → ControlMove c s (f u)) :
    ControlMove c s t := by
  obtain ⟨u, ho, hu⟩ := thenHost_cases h
  have hcontrol := issueOp_controlUnchanged ho
  rcases hu with ⟨hfaults, rfl⟩ | ⟨-, rfl⟩
  · cases hwf : i.wf with
    | true => exact hf u ((issue_of_wf hwf s).symm.trans ho) hfaults hcontrol
    | false =>
      rw [issue_of_not_wf hwf] at ho
      injection ho with ho
      exact absurd hfaults (ho ▸ raiseOp_faults_ne_nil _ _ _)
  · exact .of_unchanged hcontrol

theorem controlMove_initEnd {op : Byte} {rest : List (Byte × List Byte)}
    (h : hostCmd (.initEnd op rest) s = .next t) : ControlMove (.initEnd op rest) s t := by
  refine .thenHost h fun u _ _ hu => ?_
  cases hr : u.host.r with
  | ok =>
    rw [afterEntry_ok hr]
    refine .of_pushTodo hu.sys hu.todo ?_
    rw [List.countP_append, countP_settleCmds]
    exact Nat.le_refl 1
  | err e =>
    rw [afterEntry_err hr]
    exact .aborts rfl hu.todo rfl e (hu.host ▸ hr) rfl

theorem controlMove_start (h : hostCmd .start s = .next t) : ControlMove .start s t := by
  cases hp : s.phase with
  | shared =>
    rw [hostCmd_start_shared hp] at h
    injection h with h
    exact .of_unchanged (h ▸ ⟨rfl, rfl⟩)
  | owned =>
    by_cases hs : s.sys = .ready
    · rw [hostCmd, hostStart, if_pos (.inl hs)] at h
      refine .thenHost h fun u he _ _ => ?_
      rw [exec_txStart_owned hp] at he
      injection he with he
      subst he
      exact .handsOver hs hp rfl rfl rfl
    · rw [hostCmd_start_before_ready hp hs] at h
      cases h

theorem hostCmd_controlMove (h : hostCmd c s = .next t) : ControlMove c s t := by
  cases c with
  | issue op => exact .of_unchanged (issueOp_controlUnchanged h)
  | whileAsserted body =>
    injection h with h
    exact h ▸ .of_pushTodo rfl rfl (countP_whileAssertedCmds body).le
  | resetPulse => injection h with h; exact h ▸ .of_pushTodo rfl rfl (Nat.zero_le _)
  | init =>
    by_cases hs : s.sys = .reset
    · rw [hostCmd_init hs] at h
      injection h with h
      subst h
      refine .begins hs ?_ rfl
      rw [State.pushTodo_host, List.countP_append]
      exact Nat.add_comm 1 _
    · rw [hostCmd_init_outside hs] at h
      cases h
  | prefill p =>
    by_cases hp : p = []
    · subst hp; cases h
    · rw [hostCmd_prefill hp] at h
      injection h with h
      exact h ▸ .stays [.prefillLoop p] rfl (Nat.zero_le _) rfl
  | start => exact controlMove_start h
  | stream p off =>
    by_cases hp : p = []
    · subst hp; cases h
    · rw [hostCmd, hostStream, if_neg hp] at h
      injection h with h
      exact h ▸ .stays [.streamLoop p] rfl (Nat.zero_le _) rfl
  | boot p => injection h with h; exact h ▸ .of_pushTodo rfl rfl (Nat.zero_le _)
  | initEntry rest =>
    rcases rest with _ | ⟨⟨op, ps⟩, rest⟩
    · injection h with h
      subst h
      exact .completes rfl rfl rfl
    · rw [hostCmd, hostInitEntry] at h
      exact .thenHost h fun u _ _ hu => .of_pushTodo hu.sys hu.todo (Nat.le_refl 1)
  | initCmd op ps rest =>
    refine .thenHost h fun u _ _ hu => .of_pushTodo (u := u.noteResult) hu.sys hu.todo ?_
    split <;> exact Nat.le_refl 1
  | initData op ps rest =>
    exact .thenHost h fun u _ _ hu => .of_pushTodo (u := u.noteResult) hu.sys hu.todo (Nat.le_refl 1)
  | initEnd op rest => exact controlMove_initEnd h
  | prefillLoop p =>
    refine .thenHost h fun u _ _ hu => ?_
    split
    · exact .stays [] hu.todo (Nat.zero_le _) hu.sys
    · exact .of_pushTodo (u := notePush p u) hu.sys hu.todo (Nat.zero_le _)
  | streamLoop p =>
    exact .thenHost h fun u _ _ hu => .of_pushTodo (u := notePush p u) hu.sys hu.todo (Nat.zero_le _)
  | bootContinue p =>
    by_cases hr : s.host.r = .ok
    · rw [hostCmd_bootContinue_ok hr] at h
      injection h with h
      exact h ▸ .of_pushTodo rfl rfl (Nat.zero_le _)
    · rw [hostCmd_bootContinue_err hr] at h
      injection h with h
      exact .of_unchanged (h ▸ ⟨rfl, rfl⟩)

end

/-! ## Steps -/

/-- A step leaves the host's control alone, or it is a host command on what is left of the list. -/
theorem step_control {s t : State} (h : step s = .next t) :
    ControlUnchanged s t ∨
      ∃ c rest u, s.host.todo = c :: rest ∧ u.host.todo = rest ∧ u.host.r = s.host.r ∧ u.sys = s.sys ∧
        u.phase = s.phase ∧ ControlMove c u t := by
  obtain ⟨u, hu, hagent⟩ := step_turn_cases h
  have hsys : u.sys = s.sys := by rcases hu with rfl | rfl <;> rfl
  have hphase : u.phase = s.phase := by rcases hu with rfl | rfl <;> rfl
  have hhost : u.host = s.host := by rcases hu with rfl | rfl <;> rfl
  rcases hagent with ⟨-, hstep⟩ | ⟨-, rfl⟩
  · rcases hostStep_cases hstep with ⟨-, rfl⟩ | ⟨c, rest, ht, hc⟩
    · exact .inl ⟨hsys, hhost⟩
    · refine .inr ⟨c, rest, u.popTodo, hhost ▸ ht, ?_, by rw [State.popTodo_host, hhost], hsys, hphase,
        hostCmd_controlMove hc⟩
      rw [State.popTodo_host, ht]
      rfl
  · obtain ⟨hs, hh⟩ := dmaStep_controlUnchanged u
    exact .inl ⟨hs.trans hsys, hh.trans hhost⟩

theorem hostInv_of_no_point {s : State} (h : s.host.todo.countP HostCmd.inInit = 0) : HostInv s :=
  ⟨by omega, fun hpos => by omega⟩

/-- Settles O46: no command puts a second point of INIT on the to-do list, and the system is CONFIGURING from INIT's
beginning to its end (the to-do list is the model's form, log 12). -/
theorem stepKeepsHostInv : Obligations.StepKeepsHostInv := by
  unfold Obligations.StepKeepsHostInv
  intro s t ⟨hone, hconf⟩ h
  rcases step_control h with ⟨hsys, hhost⟩ | ⟨c, rest, u, ht, hrest, -, hsys, -, hmove⟩
  · exact ⟨hhost ▸ hone, fun hpos => hsys.trans (hconf (hhost ▸ hpos))⟩
  · have hcons : s.host.todo.countP HostCmd.inInit = [c].countP HostCmd.inInit + u.host.todo.countP HostCmd.inInit := by
      rw [ht, hrest, ← List.singleton_append, List.countP_append]
    have hnone (hs : s.sys ≠ .configuring) : u.host.todo.countP HostCmd.inInit = 0 := by
      have := mt hconf hs
      omega
    have hlast (hc : c.inInit = true) : u.host.todo.countP HostCmd.inInit = 0 := by
      rw [List.countP_singleton, if_pos hc] at hcons
      omega
    cases hmove with
    | stays new htodo hnew hsame =>
      have hle : t.host.todo.countP HostCmd.inInit ≤ s.host.todo.countP HostCmd.inInit := by
        rw [htodo, hcons, List.countP_append]
        exact Nat.add_le_add_right hnew _
      exact ⟨hle.trans hone, fun hpos => (hsame.trans hsys).trans (hconf (hpos.trans_le hle))⟩
    | begins hbefore hpoints hafter =>
      exact ⟨by rw [hpoints, hnone (by rw [← hsys, hbefore]; nofun)], fun _ => hafter⟩
    | completes hc htodo _ => exact hostInv_of_no_point (htodo ▸ hlast hc)
    | aborts hc htodo _ _ _ _ => exact hostInv_of_no_point (htodo ▸ hlast hc)
    | handsOver hbefore _ htodo _ _ => exact hostInv_of_no_point (htodo ▸ hnone (by rw [← hsys, hbefore]; nofun))

/-- Settles O47: the transitions are those of `ControlMove`, from CONFIGURING where the command is a point of INIT. -/
theorem systemStateTransitions : Obligations.SystemStateTransitions := by
  unfold Obligations.SystemStateTransitions
  intro s t ⟨hone, hconf⟩ h
  rcases step_control h with ⟨hsys, -⟩ | ⟨c, rest, u, ht, -, hr, hsys, hphase, hmove⟩
  · exact .inl hsys
  · have hinit (hc : c.inInit = true) : s.sys = .configuring :=
      hconf (List.countP_pos_iff.2 ⟨c, ht ▸ List.mem_cons_self, hc⟩)
    cases hmove with
    | stays new _ _ hsame => exact .inl (hsame.trans hsys)
    | begins hbefore _ hafter => exact .inr (.inl ⟨hsys.symm.trans hbefore, hafter⟩)
    | completes hc _ hafter => exact .inr (.inr (.inl ⟨hinit hc, hafter⟩))
    | aborts hc _ hafter e hresult herror =>
      exact .inr (.inr (.inr (.inl ⟨hinit hc, hafter, e, hr.symm.trans hresult, herror⟩)))
    | handsOver hbefore howned _ hafter hshared =>
      exact .inr (.inr (.inr (.inr ⟨hsys.symm.trans hbefore, hafter, hphase.symm.trans howned, hshared⟩)))

end Sys2Proof.Machine
end

section
/-! PROOFS. Runs of the host alone, the schedule aside: what the commands do does not depend on the draws of the schedule,
so a procedure is followed command by command in either phase (20_memory.md R60). RESET_PULSE (45_host_sequencing.md R192)
and the abort of INIT (R195, R201). -/

namespace Sys2Proof.Machine

open Sys2Proof

/-! ## The commands and the schedule -/

/-- `s` with another schedule still to be drawn. -/
def State.withSchedule (s : State) (sched : List Nat) (ix : Nat) : State :=
  { s with draws := { s.draws with sched := sched, schedIx := ix } }

section
variable (sched : List Nat) (ix : Nat)

theorem emitFrame_withSchedule (cd : Level) (b : Byte) (s : State) :
    emitFrame cd b (s.withSchedule sched ix) =
      ((emitFrame cd b s).1, (emitFrame cd b s).2.withSchedule sched ix) := by
  cases hk : s.cfg.kind with
  | bb => rw [emitFrame_bb hk, emitFrame_bb (by exact hk), frameBB_eq, frameBB_eq]; rfl
  | hw =>
    rw [emitFrame_hw hk, emitFrame_hw (by exact hk)]
    cases ho : s.busOutcome 0 with
    | none => rw [frameHW_ok ho, frameHW_ok (by exact ho)]; rfl
    | some e => rw [frameHW_err ho, frameHW_err (by exact ho)]; rfl

theorem sendData_withSchedule (bytes : List Byte) (s : State) :
    sendData bytes (s.withSchedule sched ix) =
      ((sendData bytes s).1, (sendData bytes s).2.withSchedule sched ix) := by
  induction bytes generalizing s with
  | nil => rfl
  | cons b bytes ih =>
    rw [sendData, sendData, emitFrame_withSchedule]
    rcases emitFrame true b s with ⟨_ | e, t⟩
    · exact ih t
    · rfl

theorem sessionOpen_withSchedule (s : State) :
    sessionOpen (s.withSchedule sched ix) = (sessionOpen s).withSchedule sched ix := by
  rw [sessionOpen_eq, sessionOpen_eq]; rfl

theorem sessionClose_withSchedule (s : State) :
    sessionClose (s.withSchedule sched ix) = (sessionClose s).withSchedule sched ix := by
  rw [sessionClose_eq, sessionClose_eq]; rfl

/-- What a step answers, on another schedule. -/
def onSchedule : Host.Outcome State Fault Refusal → Host.Outcome State Fault Refusal
  | .next s => .next (s.withSchedule sched ix)
  | .fault r => .fault r
  | .refused r => .refused r

theorem exec_withSchedule (i : Instr) (s : State) :
    exec i (s.withSchedule sched ix) = onSchedule sched ix (exec i s) := by
  cases i with
  | stBegin => exact congrArg Host.Outcome.next (sessionOpen_withSchedule sched ix s)
  | stEnd =>
    by_cases hd : s.depth = 0
    · rw [exec_stEnd_underflow hd, exec_stEnd_underflow (by exact hd)]; rfl
    · have hd := Nat.pos_of_ne_zero hd
      rw [exec_stEnd_closes hd, exec_stEnd_closes (by exact hd), sessionClose_withSchedule]; rfl
  | stCmd b =>
    rw [exec_stCmd_of_emitFrame b _ (by rw [sessionOpen_withSchedule, emitFrame_withSchedule]),
      sessionClose_withSchedule]
    rfl
  | stData bytes =>
    rw [exec_stData_of_sendData bytes _ (by rw [sessionOpen_withSchedule, sendData_withSchedule]),
      sessionClose_withSchedule]
    rfl
  | rbPush bytes =>
    cases hp : s.phase with
    | owned => rw [exec_rbPush_owned hp, exec_rbPush_owned (by exact hp)]; rfl
    | shared => rw [exec_rbPush_shared hp, exec_rbPush_shared (by exact hp)]; rfl
  | txStart =>
    cases hp : s.phase with
    | owned => rw [exec_txStart_owned hp, exec_txStart_owned (by exact hp)]; rfl
    | shared => rw [exec_txStart_shared hp, exec_txStart_shared (by exact hp)]; rfl
  | txPush bytes =>
    cases hp : s.phase with
    | owned => rw [exec_txPush_owned hp, exec_txPush_owned (by exact hp)]; rfl
    | shared => rw [exec_txPush_shared hp, exec_txPush_shared (by exact hp)]; rfl
  | rstSet _ | delayUs _ => rfl

theorem issueOp_withSchedule (op : Op) (s : State) :
    issueOp op (s.withSchedule sched ix) = onSchedule sched ix (issueOp op s) := by
  cases hd : decode op with
  | ok i => rw [issueOp_ok hd, issueOp_ok hd, exec_withSchedule]
  | error r => rw [issueOp_error hd, issueOp_error hd]; rfl

theorem thenHost_onSchedule {f : State → State} (hf : ∀ u, f (u.withSchedule sched ix) = (f u).withSchedule sched ix)
    (o : Host.Outcome State Fault Refusal) : thenHost (onSchedule sched ix o) f = onSchedule sched ix (thenHost o f) := by
  cases o with
  | next u =>
    by_cases hu : u.faults = []
    · rw [thenHost_next hu, onSchedule, thenHost_next (by exact hu), hf]; rfl
    · simp only [thenHost, onSchedule, if_neg hu]; exact if_neg hu
  | fault r => rfl
  | refused r => rfl

theorem thenHost_issue_withSchedule (i : Instr) (s : State) {f : State → State}
    (hf : ∀ u, f (u.withSchedule sched ix) = (f u).withSchedule sched ix) :
    thenHost (issue i (s.withSchedule sched ix)) f = onSchedule sched ix (thenHost (issue i s) f) := by
  rw [issue, issueOp_withSchedule, thenHost_onSchedule sched ix hf, issue]

/-- A host command does on another schedule what it does on this one. -/
theorem hostCmd_withSchedule (c : HostCmd) (s : State) :
    hostCmd c (s.withSchedule sched ix) = onSchedule sched ix (hostCmd c s) := by
  cases c with
  | issue op => exact issueOp_withSchedule sched ix op s
  | whileAsserted _ | resetPulse | boot _ => rfl
  | init =>
    by_cases hs : s.sys = .reset
    · rw [hostCmd_init hs, hostCmd_init (by exact hs)]; rfl
    · rw [hostCmd_init_outside hs, hostCmd_init_outside (by exact hs)]; rfl
  | prefill p =>
    by_cases hp : p = []
    · subst hp; rfl
    · rw [hostCmd_prefill hp, hostCmd_prefill hp]; rfl
  | start =>
    by_cases hs : s.sys = .ready ∨ s.phase = .shared
    · rw [hostCmd, hostStart, if_pos (by exact hs), hostCmd, hostStart, if_pos hs]
      exact thenHost_issue_withSchedule sched ix _ s fun _ => rfl
    · rw [hostCmd, hostStart, if_neg (by exact hs), hostCmd, hostStart, if_neg hs]; rfl
  | stream p off =>
    by_cases hp : p = []
    · subst hp; rfl
    · rw [hostCmd, hostStream, if_neg hp, hostCmd, hostStream, if_neg hp]; rfl
  | initEntry rest =>
    rcases rest with _ | ⟨⟨op, ps⟩, rest⟩
    · rfl
    · exact thenHost_issue_withSchedule sched ix .stBegin s (f := (·.pushTodo [.initCmd op ps rest])) fun _ => rfl
  | initCmd op ps rest => exact thenHost_issue_withSchedule sched ix _ s fun _ => rfl
  | initData op ps rest => exact thenHost_issue_withSchedule sched ix _ s fun _ => rfl
  | initEnd op rest =>
    refine thenHost_issue_withSchedule sched ix _ s fun u => ?_
    cases hr : u.host.r with
    | ok => rw [afterEntry_ok hr, afterEntry_ok (by exact hr)]; rfl
    | err e => rw [afterEntry_err hr, afterEntry_err (by exact hr)]; rfl
  | prefillLoop p =>
    refine thenHost_issue_withSchedule sched ix _ s fun u => ?_
    by_cases hk : u.accepted < p.length
    · rw [if_pos hk, if_pos (by exact hk)]; rfl
    · rw [if_neg hk, if_neg (by exact hk)]; rfl
  | streamLoop p => exact thenHost_issue_withSchedule sched ix _ s fun _ => rfl
  | bootContinue p =>
    by_cases hr : s.host.r = .ok
    · rw [hostCmd_bootContinue_ok hr, hostCmd_bootContinue_ok (by exact hr)]; rfl
    · rw [hostCmd_bootContinue_err hr, hostCmd_bootContinue_err (by exact hr)]; rfl

end

/-- No host command draws from the schedule: on the schedule it had, the state it leads to is itself. -/
theorem hostCmd_keeps_schedule {c : HostCmd} {s t : State} (h : hostCmd c s = .next t) :
    t.draws.sched = s.draws.sched ∧ t.draws.schedIx = s.draws.schedIx := by
  have hsame := hostCmd_withSchedule s.draws.sched s.draws.schedIx c s
  rw [show s.withSchedule s.draws.sched s.draws.schedIx = s from rfl, h] at hsame
  injection hsame with hsame
  exact ⟨congrArg (·.draws.sched) hsame, congrArg (·.draws.schedIx) hsame⟩

theorem Draws.gap_congr {d d' : Draws} (hs : d'.sched = d.sched) (hi : d'.schedIx = d.schedIx) : d'.gap = d.gap := by
  rw [Draws.gap, Draws.gap, hs, hi]

/-- The schedule's part of the draws after some choices depends on the schedule alone, and they change nothing else. -/
theorem Draws.takeChoices_schedule (n : Nat) : ∀ {d d' : Draws}, d'.sched = d.sched → d'.schedIx = d.schedIx →
    d'.takeChoices n =
      { d' with sched := (d.takeChoices n).sched, schedIx := (d.takeChoices n).schedIx } := by
  induction n with
  | zero => intro d d' hs hi; rw [Draws.takeChoices, Draws.takeChoices, ← hs, ← hi]
  | succ n ih =>
    intro d d' hs hi
    have hg := Draws.gap_congr hs hi
    rw [Draws.takeChoices, Draws.takeChoices]
    cases h : d.gap with
    | zero =>
      rw [Draws.takeChoice_dma h, Draws.takeChoice_dma (hg.trans h)]
      exact ih (congrArg (List.drop 1) hs) (congrArg (· + 1) hi)
    | succ g =>
      rw [Draws.takeChoice_host h, Draws.takeChoice_host (hg.trans h)]
      exact ih (congrArg (g :: List.drop 1 ·) hs) hi

/-- A command that does not hand the ring over does the same after choices of the schedule. -/
theorem hostCmd_afterTurns {c : HostCmd} {s t : State} (n : Nat) (h : hostCmd c s = .next t) (hp : t.phase = s.phase) :
    hostCmd c (s.afterTurns n) = .next (t.afterTurns n) := by
  cases hs : s.phase with
  | owned => rw [State.afterTurns_owned n hs, State.afterTurns_owned n (hp.trans hs), h]
  | shared =>
    obtain ⟨hsched, hix⟩ := hostCmd_keeps_schedule h
    rw [State.afterTurns_shared n hs, State.afterTurns_shared n (hp.trans hs),
      Draws.takeChoices_schedule n hsched hix, Draws.takeChoices_schedule n rfl rfl]
    exact (hostCmd_withSchedule _ _ c s).trans (by rw [h]; rfl)

/-! ## Runs of the host alone -/

/-- From `s` the host's next `n` commands lead to `t`, draws of the schedule aside; none starts from a fault, none hands the
ring over. -/
inductive HostRun : Nat → State → State → Prop where
  | refl (s : State) : HostRun 0 s s
  | step {n : Nat} {s t u : State} {c : HostCmd} {rest : List HostCmd} (faults : s.faults = [])
      (todo : s.host.todo = c :: rest) (cmd : hostCmd c (s.withTodo rest) = .next t) (phase : t.phase = s.phase)
      (more : HostRun n t u) : HostRun (n + 1) s u

theorem HostRun.trans {m n : Nat} {s t u : State} (h : HostRun m s t) (h' : HostRun n t u) : HostRun (m + n) s u := by
  induction h with
  | refl s => rwa [Nat.zero_add]
  | step hf ht hc hp _ ih => rw [Nat.add_right_comm]; exact .step hf ht hc hp (ih h')

/-- One command. -/
theorem HostRun.one {s t : State} {c : HostCmd} {rest : List HostCmd} (hf : s.faults = [])
    (ht : s.host.todo = c :: rest) (hc : hostCmd c (s.withTodo rest) = .next t) (hp : t.phase = s.phase) :
    HostRun 1 s t :=
  .step hf ht hc hp (.refl t)

theorem State.afterTurns_add (m n : Nat) (s : State) : (s.afterTurns m).afterTurns n = s.afterTurns (m + n) := by
  cases hp : s.phase with
  | owned => rw [State.afterTurns_owned m hp, State.afterTurns_owned n hp, State.afterTurns_owned _ hp]
  | shared =>
    rw [State.afterTurns_shared m hp, State.afterTurns_shared (m + n) hp, Draws.takeChoices_add]
    exact State.afterTurns_shared n hp

theorem State.afterTurns_withTodo (n : Nat) (s : State) (l : List HostCmd) :
    (s.withTodo l).afterTurns n = (s.afterTurns n).withTodo l := rfl

/-- Where the schedule leaves the host its next `n` choices, those are the run. -/
theorem HostRun.run_afterTurns {n : Nat} {s t : State} (h : HostRun n s t) (k : Nat) (hh : HostTakes n (s.afterTurns k)) :
    run n (s.afterTurns k) = .next (t.afterTurns (k + n)) := by
  induction h generalizing k with
  | refl s => rfl
  | @step n s t u c rest hf ht hc hp _ ih =>
    have hcmd := hostCmd_afterTurns (k + 1) hc hp
    rw [State.afterTurns_withTodo, ← State.afterTurns_add k 1 s] at hcmd
    have hstep := (step_host (s := s.afterTurns k) hf (hh.mono (Nat.le_add_left 1 n)) ht).trans hcmd
    obtain ⟨hsched, hix⟩ := hostCmd_keeps_schedule hcmd
    rw [run_succ n hstep, ih (k + 1) (hh.after hp (Draws.gap_congr hsched hix)), Nat.add_right_comm, Nat.add_assoc]

theorem HostRun.run {n : Nat} {s t : State} (h : HostRun n s t) (hh : HostTakes n s) :
    Machine.run n s = .next (t.afterTurns n) := by
  have hrun := h.run_afterTurns 0 (by rwa [State.afterTurns_zero])
  rwa [State.afterTurns_zero, Nat.zero_add] at hrun

/-! ## RESET_PULSE -/

theorem delayNs_rstDwell : delayNs Config.rstDwellUs = 100000000 := by decide

/-- `s` after the reset line has been held at `v` for `ns`, with `rest` to do. -/
def State.held (s : State) (v : Level) (ns : Nat) (rest : List HostCmd) : State :=
  ((s.withTodo rest).driveRst v).wait ns

section
variable {s : State} {rest : List HostCmd} (hf : s.faults = [])
include hf

/-- A delay as a command (R191). -/
theorem HostRun.delay {us : BitVec 24} (ht : s.host.todo = delayCmd us :: rest) :
    HostRun 1 s ((s.withTodo rest).wait (delayNs us)) :=
  .one hf ht (issue_of_wf (i := .delayUs us) rfl _) rfl

/-- A level of the reset line and its dwell (R190, R191). -/
theorem HostRun.level {v : Level} {us : BitVec 24}
    (ht : s.host.todo = .issue (encode (.rstSet v)) :: delayCmd us :: rest) :
    HostRun 2 s (s.held v (delayNs us) rest) :=
  .step hf ht (issue_of_wf (i := .rstSet v) rfl _) rfl
    (HostRun.delay (s := (s.withTodo (delayCmd us :: rest)).driveRst v) hf rfl)

/-- The six operations of RESET_PULSE (R192). -/
theorem HostRun.resetPulseCmds (ht : s.host.todo = Machine.resetPulseCmds ++ rest) :
    HostRun 6 s { s.withTodo rest with rst := true, wire := s.wire ++ Trace.resetPulse } := by
  have h := ((HostRun.level hf ht).trans (.level (by exact hf) rfl)).trans (.level (by exact hf) rfl)
  rw [delayNs_rstDwell] at h
  simpa [State.held, State.driveRst, State.wait, State.emit, State.withTodo, Trace.resetPulse] using h

end

/-- Settles O45: the six words of RESET_PULSE, and its run after the step that puts them on the to-do list, which is the
model's choice (log 12). -/
theorem resetPulseTrace : Obligations.ResetPulseTrace := by
  unfold Obligations.ResetPulseTrace
  refine ⟨?_, fun s rest hf hh ht => ⟨?_, ?_⟩⟩
  · rw [resetPulseCmds, delayCmd_rstDwell]
    rfl
  · exact step_host hf (hh.mono (by decide)) ht
  · have hpulse := HostRun.resetPulseCmds (s := (s.withTodo rest).pushTodo resetPulseCmds) hf rfl
    exact (HostRun.step hf ht rfl rfl hpulse).run hh

/-! ## The abort of INIT -/

/-- Choices of the schedule and draws of the bus do not touch each other. -/
theorem State.afterTurns_of_takeBus {s t : State} (n : Nat) {j : Nat} (hp : t.phase = s.phase)
    (hd : t.draws = s.draws.takeBus j) : t.afterTurns n = { t with draws := (s.afterTurns n).draws.takeBus j } := by
  cases hs : s.phase with
  | owned => rw [State.afterTurns_owned n (hp.trans hs), State.afterTurns_owned n hs, ← hd]
  | shared =>
    rw [State.afterTurns_shared n (hp.trans hs), State.afterTurns_shared n hs, hd, Draws.takeBus_takeChoices]

section
variable {s : State} {op : Byte} {ps : List Byte} {rest : List (Byte × List Byte)} {tail : List HostCmd} {e : Err}
  (hf : s.faults = []) (hd : 0 < s.depth) (hk : s.cfg.kind = .hw)
include hf hd hk

/-- INIT at an entry's ST_END after an error, under HW (R195, R201). -/
theorem HostRun.initEnd_err (hr : s.host.r = .err e) (ht : s.host.todo = .initEnd op rest :: tail) :
    HostRun 1 s { s.withTodo tail with depth := s.depth - 1, sys := .reset, sysError := some e } := by
  refine .one hf ht ?_ rfl
  rw [hostCmd_initEnd (by exact hd) (by exact hf), sessionClose_hw (by exact hk), afterEntry_err (by exact hr)]
  rfl

/-- INIT at a command or parameter byte that fails after `j` frames: two steps later it has returned the error (R195). -/
theorem run_init_aborts {c : HostCmd} {t : State} {wire : List Event} {j : Nat} (hh : HostTakes 2 s)
    (ht : s.host.todo = c :: tail) (hc : hostCmd c (s.withTodo tail) = .next (t.noteResult.pushTodo [.initEnd op rest]))
    (heq : t = { s.withTodo tail with wire := wire, result := .err e, draws := s.draws.takeBus j }) :
    run 2 s = .next
      { s.afterTurns 2 with
        depth := s.depth - 1
        wire := wire
        result := .err e
        draws := (s.afterTurns 2).draws.takeBus j
        sys := .reset
        sysError := some e
        host := { s.host with todo := tail, r := .err e } } := by
  subst heq
  have hrun := HostRun.step hf ht hc rfl (.initEnd_err (by exact hf) (by exact hd) (by exact hk) rfl rfl)
  exact (hrun.run hh).trans (congrArg Host.Outcome.next (State.afterTurns_of_takeBus (s := s) 2 rfl rfl))

end

/-- Settles O48: the failing operation's step notes the error, and the ST_END's step returns it; the points of INIT and the
count of two steps are the model's (log 12). -/
theorem initAbortsAtFirstError : Obligations.InitAbortsAtFirstError := by
  unfold Obligations.InitAbortsAtFirstError
  refine fun s op ps rest tail hk hf hh hd hlen => ⟨fun e ht herr => ?_, fun e sent b more ht hps hok herr => ?_⟩
  · rw [← frameWord_false]
    exact run_init_aborts hf hd hk hh ht (hostCmd_initCmd (exec_stCmd_hw_err (s := s.withTodo tail) hk op herr) hf) rfl
  · subst hps
    simp only [← frameWord_true]
    exact run_init_aborts hf hd hk hh ht
      (hostCmd_initData hlen (exec_stData_hw_err (s := s.withTodo tail) hk sent b more hok herr) hf) rfl

end Sys2Proof.Machine
end

section
/-! PROOFS. PREFILL fills the ring (45_host_sequencing.md R197), and INIT runs to its end and configures the panel on
either backend where no write fails (R194, R195, R201, R207). -/

namespace Sys2Proof.Machine

open Sys2Proof

/-! ## PREFILL -/

/-- By induction on the free space: a round accepts the whole pattern, or it fills the ring and ends the loop. -/
theorem run_prefillLoop {p : List Byte} {rest : List HostCmd} (hne : p ≠ []) (hlen : p.length < maxPayload) {free : Nat} :
    ∀ {s : State}, s.cfg.ringC - s.fill = free → s.fill ≤ s.cfg.ringC → s.faults = [] → s.phase = .owned →
      s.host.todo = .prefillLoop p :: rest →
      ∃ n t, n ≤ free / p.length + 1 ∧ run n s = .next t ∧ t.faults = [] ∧ t.host.todo = rest ∧
        t.fill = s.cfg.ringC ∧ t.phase = .owned := by
  induction free using Nat.strong_induction_on with
  | h free ih =>
    intro s hfree hle hf hp ht
    have hpos : 0 < p.length := List.length_pos_of_ne_nil hne
    have hstep := (step_owned hf hp ht).trans (hostCmd_prefillLoop (by exact hp) hlen (by exact hf))
    rw [State.withTodo_cfg, State.withTodo_fill, hfree] at hstep
    by_cases hlast : free < p.length
    · rw [if_pos (by omega)] at hstep
      refine ⟨1, _, Nat.le_add_left 1 _, run_succ 0 hstep, by simpa using hf, by simp, ?_, by simpa using hp⟩
      simp
      omega
    · rw [if_neg (by omega)] at hstep
      have hfill : s.fill + min p.length (s.cfg.ringC - s.fill) = s.fill + p.length := by omega
      obtain ⟨n, t, hn, hrun, htf, htt, htfill, htp⟩ := ih (free - p.length) (by omega)
        (s := (notePush p (pushCore (rot p s.host.off) (s.withTodo rest))).pushTodo [.prefillLoop p])
        (by simp [hfill]; omega) (by simp [hfill]; omega) (by simpa using hf) (by simpa using hp) (by simp)
      refine ⟨n + 1, t, ?_, (run_succ n hstep).trans hrun, htf, htt, htfill, htp⟩
      rw [Nat.div_eq_sub_div hpos (by omega)]
      exact Nat.succ_le_succ hn

/-- Settles O52: the free space is at most C. That each round is one step, and that PREFILL runs outside READY, are the
model's choices (logs 12, 26). -/
theorem prefillFillsTheRing : Obligations.PrefillFillsTheRing := by
  unfold Obligations.PrefillFillsTheRing
  intro s p rest hring hf hp hne hlen ht
  obtain ⟨n, t, hn, hend⟩ := run_prefillLoop hne hlen rfl hring.fill_le hf hp ht
  exact ⟨n, t, hn.trans (Nat.succ_le_succ (Nat.div_le_div_right (Nat.sub_le ..))), hend⟩

end Sys2Proof.Machine
end

section
/-! PROOFS. INIT runs to its end and configures the panel, on either backend, where no write fails
(45_host_sequencing.md R194, R195, R196, R201, R207). -/

namespace Sys2Proof.Machine

open Sys2Proof

/-! ## Operations inside a session -/

/-- `s` after frames that were sent without error: `v` is the level they leave on the data line, `events` their trace, `n`
how many bus outcomes they drew. -/
def State.delivered (s : State) (v : Level) (events : List Event) (n : Nat) : State :=
  { s with sda := v, wire := s.wire ++ events, result := .ok, draws := s.draws.takeBus n }

@[simp] theorem State.delivered_cfg (s : State) (v : Level) (events : List Event) (n : Nat) :
    (s.delivered v events n).cfg = s.cfg := rfl

theorem Draws.takeBus_zero (d : Draws) : d.takeBus 0 = d := rfl

theorem Draws.takeBus_takeBus (d : Draws) (m n : Nat) : (d.takeBus m).takeBus n = d.takeBus (m + n) := by
  simp [Draws.takeBus, Nat.add_assoc]

section
variable {s : State} (hd : 0 < s.depth)
include hd

/-- Without parameters there is nothing to send (R122). -/
theorem exec_stData_nil_inside (hr : s.result = .ok) : exec (.stData []) s = .next s := by
  rw [exec_stData_of_sendData [] s rfl, sessionClose_eq, sessionOpen_eq]
  simp [State.setResult, Nat.ne_of_gt hd, ← hr]

variable (hk : s.cfg.kind = .bb) (hscl : s.scl = true)
include hk hscl

theorem exec_stCmd_bb_inside (b : Byte) :
    exec (.stCmd b) s = .next (s.delivered (b.getLsbD 0) (Trace.frame s.cfg false b) 0) := by
  rw [exec_stCmd_bb hk, if_neg (Nat.ne_of_gt hd), Trace.session, if_neg (Nat.ne_of_gt hd), ← hscl]
  rfl

theorem exec_stData_bb_inside (bytes : List Byte) :
    exec (.stData bytes) s =
      .next (s.delivered (lastBit bytes s.sda) (bytes.flatMap (Trace.frame s.cfg true)) 0) := by
  rw [exec_stData_bb hk, if_neg (Nat.ne_of_gt hd), Trace.session, if_neg (Nat.ne_of_gt hd), hscl, ite_self, ← hscl]
  rfl

end

/-- The trace of a session around `events` on either backend (R114 to R116). -/
def bracket (cfg : Config) (d : Nat) (events : List Event) : List Event :=
  if cfg.kind = .bb then Trace.session cfg d events else events

/-- A session around two operations that were sent without error: but for what they delivered, nothing has changed. -/
theorem sessionClose_delivered {s : State} (hcs : s.cfg.kind = .bb → s.depth = 0 → s.cs = true) (v v' : Level)
    (events events' : List Event) (n n' : Nat) :
    sessionClose (((sessionOpen s).delivered v events n).noteResult.delivered v' events' n').noteResult =
      (s.delivered v' (bracket s.cfg s.depth (events ++ events')) (n + n')).noteResult := by
  rw [sessionClose_eq, sessionOpen_eq]
  by_cases hk : s.cfg.kind = .bb
  · by_cases hd : s.depth = 0
    · simp [State.delivered, State.noteResult, bracket, Trace.session, Draws.takeBus_takeBus, hk, hd, hcs hk hd]
    · simp [State.delivered, State.noteResult, bracket, Trace.session, Draws.takeBus_takeBus, hk, hd]
  · simp [State.delivered, State.noteResult, bracket, Draws.takeBus_takeBus, hk]

/-! ## An entry of INIT -/

theorem delayNs_sleepOut : delayNs Config.sleepOutUs = 100000000 := delayNs_rstDwell

theorem delayNs_displayOn : delayNs Config.displayOnUs = 50000000 := by decide

/-- Whatever their frames come to, ST_CMD and ST_DATA leave the host's turns and the depth alone. -/
theorem exec_send_turns {i : Instr} (hi : (∃ b, i = .stCmd b) ∨ ∃ bytes, i = .stData bytes) {s t : State}
    (h : exec i s = .next t) : TurnsUnchanged s t ∧ t.depth = s.depth := by
  obtain ⟨u, hu, hturns⟩ := exec_send hi s
  rw [h] at hu
  injection hu with hu
  exact hu ▸ hturns

section
variable {s : State} {op : Byte} {ps : List Byte} {rest : List (Byte × List Byte)} {tail : List HostCmd}
  (hf : s.faults = [])
include hf

/-- A settle delay, where there is one (R196). -/
theorem HostRun.delayIf {b : Prop} [Decidable b] {us : BitVec 24} {rest : List HostCmd}
    (ht : s.host.todo = (if b then [delayCmd us] else []) ++ rest) :
    HostRun (if b then 1 else 0) s
      { s.withTodo rest with wire := s.wire ++ if b then [.wait (delayNs us)] else [] } := by
  split at ht
  · next hb => rw [if_pos hb, if_pos hb]; exact .delay hf ht
  · next hb =>
    rw [if_neg hb, if_neg hb, List.append_nil]
    rw [List.nil_append] at ht
    have hsame : s.withTodo rest = s := by rw [← ht]; rfl
    rw [hsame]
    exact .refl s

/-- The step of an entry's ST_END after no error (R194, R196). -/
theorem HostRun.initEnd_ok (hd : 0 < s.depth) (hr : s.host.r = .ok) :
    HostRun 1 (s.pushTodo [.initEnd op rest]) ((sessionClose s).pushTodo (settleCmds s.cfg op ++ [.initEntry rest])) := by
  have hclose := sessionClose_turnsUnchanged s
  refine .one (rest := s.host.todo) hf rfl ?_ hclose.phase
  refine (hostCmd_initEnd hd hf).trans ?_
  rw [afterEntry_ok (by rw [hclose.host, hr]), (sessionClose_ringUnchanged s).cfg]

/-- An entry of INIT that is sent without error, up to its settle delays (R194). -/
theorem HostRun.entry {b d : State} (ht : s.host.todo = .initEntry ((op, ps) :: rest) :: tail)
    (hlen : ps.length < maxPayload) (hcmd : exec (.stCmd op) (sessionOpen (s.withTodo tail)) = .next b)
    (hb : b.result = .ok) (hdata : exec (.stData ps) b.noteResult = .next d) (hd : d.result = .ok) :
    HostRun (if ps = [] then 3 else 4) s
      ((sessionClose d.noteResult).pushTodo (settleCmds d.cfg op ++ [.initEntry rest])) := by
  have hopen := sessionOpen_turnsUnchanged (s.withTodo tail)
  obtain ⟨hbturns, hbdepth⟩ := exec_send_turns (.inl ⟨op, rfl⟩) hcmd
  obtain ⟨hdturns, hddepth⟩ := exec_send_turns (.inr ⟨ps, rfl⟩) hdata
  have hfopen : (sessionOpen (s.withTodo tail)).faults = [] := hopen.faults.trans hf
  have hfb : b.faults = [] := hbturns.faults.trans hfopen
  have hfd : d.faults = [] := hdturns.faults.trans hfb
  have hdb : 0 < b.depth := by rw [hbdepth, sessionOpen_depth]; exact Nat.succ_pos _
  have hdd : 0 < d.depth := by rw [hddepth]; exact hdb
  have hend := HostRun.initEnd_ok (op := op) (rest := rest) (s := d.noteResult) hfd hdd hd
  have hsent := hostCmd_initCmd (ps := ps) (rest := rest) hcmd hfb
  by_cases hps : ps = []
  · subst hps
    rw [exec_stData_nil_inside (s := b.noteResult) hdb hb] at hdata
    injection hdata with hdata
    rw [if_neg (by simp)] at hsent
    rw [if_pos rfl]
    refine .step hf ht (hostCmd_initEntry_cons hf) hopen.phase (.step (rest := (sessionOpen (s.withTodo tail)).host.todo)
      hfopen rfl hsent hbturns.phase ?_)
    rw [← hdata] at hend ⊢
    exact hend
  · rw [if_pos ⟨hb, hps⟩] at hsent
    rw [if_neg hps]
    exact .step hf ht (hostCmd_initEntry_cons hf) hopen.phase (.step (rest := (sessionOpen (s.withTodo tail)).host.todo)
      hfopen rfl hsent hbturns.phase (.step (rest := b.host.todo) hfb rfl (hostCmd_initData hlen hdata hfd)
        hdturns.phase hend))

/-- The settle delays of an entry (R196). -/
theorem HostRun.settle {n : Nat} {u : State} (h : HostRun n u s) {rest : List HostCmd}
    (ht : s.host.todo = settleCmds s.cfg op ++ rest) :
    HostRun (n + (if op = s.cfg.sleepOutOpcode then 1 else 0) + if op = s.cfg.displayOnOpcode then 1 else 0) u
      { s.withTodo rest with wire := s.wire ++ settleTrace s.cfg op } := by
  rw [settleCmds, List.append_assoc] at ht
  have hrun := (h.trans (.delayIf hf ht)).trans (.delayIf (by exact hf) rfl)
  rw [delayNs_sleepOut, delayNs_displayOn] at hrun
  simpa [State.withTodo, settleTrace, List.append_assoc] using hrun

/-- An entry of INIT whose operations deliver their frames (R194, R196). -/
theorem HostRun.entry_delivered {v v' : Level} {events events' : List Event} {n n' : Nat}
    (hcs : s.cfg.kind = .bb → s.depth = 0 → s.cs = true)
    (ht : s.host.todo = .initEntry ((op, ps) :: rest) :: tail) (hlen : ps.length < maxPayload)
    (hcmd : exec (.stCmd op) (sessionOpen (s.withTodo tail)) =
      .next ((sessionOpen (s.withTodo tail)).delivered v events n))
    (hdata : exec (.stData ps) ((sessionOpen (s.withTodo tail)).delivered v events n).noteResult =
      .next (((sessionOpen (s.withTodo tail)).delivered v events n).noteResult.delivered v' events' n')) :
    HostRun (entrySteps s.cfg (op, ps)) s
      ((s.withTodo (.initEntry rest :: tail)).delivered v'
        (bracket s.cfg s.depth (events ++ events') ++ settleTrace s.cfg op) (n + n')).noteResult := by
  have hentry := HostRun.entry hf ht hlen hcmd rfl hdata rfl
  rw [sessionClose_delivered (by exact hcs)] at hentry
  have hcfg : (((sessionOpen (s.withTodo tail)).delivered v events n).noteResult.delivered v' events' n').cfg = s.cfg :=
    sessionOpen_cfg _
  rw [hcfg] at hentry
  have hrun := HostRun.settle (by exact hf) hentry (List.append_assoc ..)
  simpa [State.delivered, State.noteResult, State.withTodo, State.pushTodo, List.append_assoc, entrySteps] using hrun

end

end Sys2Proof.Machine
end

section
/-! PROOFS. INIT as a whole, and what the panel receives of it, under BB and under HW with no bus fault
(45_host_sequencing.md R194, R195, R201, R207). -/

namespace Sys2Proof.Machine

open Sys2Proof

/-! ## The table of INIT -/

/-- `s` after a table whose frames were all sent without error, with `r` as the result: INIT has returned OK. -/
def State.initialised (s : State) (v : Level) (events : List Event) (n : Nat) (r : Result)
    (tail : List HostCmd) : State :=
  { s with
    sda := v
    wire := s.wire ++ events
    result := r
    draws := s.draws.takeBus n
    sys := .ready
    host := { s.host with todo := tail, r := .ok } }

/-- `s` after INIT's beginning and RESET_PULSE, with `rest` still to do. -/
def State.pulsed (s : State) (rest : List HostCmd) : State :=
  { s.withTodo rest with sys := .configuring, rst := true, wire := s.wire ++ Trace.resetPulse }

/-- INIT as a whole, over the host's turns. -/
theorem State.initialised_afterTurns (s : State) (v : Level) (events : List Event) (j : Nat) (r : Result)
    (rest tail : List HostCmd) (n : Nat) :
    ((s.pulsed rest).initialised v events j r tail).afterTurns n =
      { s.afterTurns n with
        sda := v
        wire := s.wire ++ (Trace.resetPulse ++ events)
        result := r
        rst := true
        sys := .ready
        draws := (s.afterTurns n).draws.takeBus j
        host := { s.host with todo := tail, r := .ok } } := by
  rw [← List.append_assoc]
  exact State.afterTurns_of_takeBus n rfl rfl

section
variable {s : State} {tail : List HostCmd} (hf : s.faults = [])
include hf

/-- INIT after its last entry (R201). -/
theorem HostRun.initDone (ht : s.host.todo = .initEntry [] :: tail) :
    HostRun 1 s (s.initialised s.sda [] 0 s.result tail) := by
  refine .one hf ht ?_ rfl
  simp [hostCmd, hostInitEntry, State.initialised, Draws.takeBus_zero]

/-- INIT up to its loop: its beginning and RESET_PULSE (R194, R200). -/
theorem HostRun.initBegin (hs : s.sys = .reset) (ht : s.host.todo = .init :: tail) :
    HostRun 7 s (s.pulsed (.initEntry s.cfg.initTable :: tail)) := by
  have hpulse := HostRun.resetPulseCmds (rest := .initEntry s.cfg.initTable :: tail)
    (s := ({ s.withTodo tail with sys := .configuring }).pushTodo
      (Machine.resetPulseCmds ++ [HostCmd.initEntry s.cfg.initTable])) hf
    (List.append_assoc ..)
  exact .step hf ht (hostCmd_init (by exact hs)) rfl hpulse

end

/-- The steps of a table and INIT's end. -/
abbrev tableSteps (cfg : Config) (table : List (Byte × List Byte)) : Nat := (table.map (entrySteps cfg)).sum + 1

theorem tableSteps_cons (cfg : Config) (e : Byte × List Byte) (table : List (Byte × List Byte)) :
    tableSteps cfg (e :: table) = entrySteps cfg e + tableSteps cfg table := by
  rw [tableSteps, List.map_cons, List.sum_cons, Nat.add_assoc]

/-! ## INIT under BB -/

theorem LineInv.cs_of_depth_zero {s : State} (h : LineInv s) (hk : s.cfg.kind = .bb) (hd : s.depth = 0) : s.cs = true :=
  Bool.eq_true_of_not_eq_false fun hlow => by have := (h.bb_select hk).1 hlow; omega

theorem lastBit_append (a b : List Byte) (v : Level) : lastBit (a ++ b) v = lastBit b (lastBit a v) := List.foldl_append

/-- An entry of INIT under BB (R194). -/
theorem HostRun.entry_bb {s : State} {tail : List HostCmd} {e : Byte × List Byte} {rest : List (Byte × List Byte)}
    (hk : s.cfg.kind = .bb) (hline : LineInv s) (hf : s.faults = []) (hlen : e.2.length < maxPayload)
    (ht : s.host.todo = .initEntry (e :: rest) :: tail) :
    HostRun (entrySteps s.cfg e) s
      ((s.withTodo (.initEntry rest :: tail)).delivered (lastBit (e.1 :: e.2) s.sda) (entryTrace s.cfg s.depth e)
        0).noteResult := by
  obtain ⟨op, ps⟩ := e
  have hkind : (sessionOpen (s.withTodo tail)).cfg.kind = .bb := by simpa using hk
  have hcfg : (sessionOpen (s.withTodo tail)).cfg = s.cfg := sessionOpen_cfg _
  have hdepth : 0 < (sessionOpen (s.withTodo tail)).depth := by simp
  have hscl : (sessionOpen (s.withTodo tail)).scl = true := by rw [sessionOpen_eq]; exact hline.clock_idle
  have hrun := HostRun.entry_delivered hf (fun hk hd => hline.cs_of_depth_zero hk hd) ht hlen
    (exec_stCmd_bb_inside hdepth hkind hscl op)
    (exec_stData_bb_inside (by exact hdepth) (by exact hkind) (by exact hscl) ps)
  simp only [bracket, if_pos hk, State.noteResult_cfg, State.delivered_cfg, hcfg] at hrun
  exact hrun

/-- The entries of INIT under BB, and its end, by induction on the table (R194, R201). -/
theorem HostRun.table_bb {tail : List HostCmd} (table : List (Byte × List Byte)) {s : State} (hk : s.cfg.kind = .bb)
    (hline : LineInv s) (hf : s.faults = []) (hfits : tableFits table) (ht : s.host.todo = .initEntry table :: tail) :
    HostRun (tableSteps s.cfg table) s
      (s.initialised (lastBit (tableBytes table) s.sda) (table.flatMap (entryTrace s.cfg s.depth)) 0 .ok tail) := by
  induction table generalizing s with
  | nil =>
    have hdone := HostRun.initDone hf ht
    rwa [hline.bb_result hk] at hdone
  | cons e table ih =>
    obtain ⟨he, hfits⟩ := List.forall_mem_cons.1 hfits
    have hentry := HostRun.entry_bb hk hline hf he ht
    have hline' : LineInv ((s.withTodo (.initEntry table :: tail)).delivered (lastBit (e.1 :: e.2) s.sda)
        (entryTrace s.cfg s.depth e) 0).noteResult :=
      hline.of_linesUnchanged ⟨rfl, rfl, rfl, rfl, (hline.bb_result hk).symm⟩
    have hrun := hentry.trans (ih hk hline' hf hfits rfl)
    simpa [tableSteps_cons, State.initialised, State.delivered, State.noteResult, State.withTodo, tableBytes,
      ← lastBit_append, Draws.takeBus_zero] using hrun

/-! ## INIT under HW -/

section
variable {s : State} (hk : s.cfg.kind = .hw)
include hk

theorem exec_stCmd_hw_delivers (b : Byte) (hok : s.busOutcome 0 = none) :
    exec (.stCmd b) s = .next (s.delivered s.sda [.hwWord (frameWord false b)] 1) := exec_stCmd_hw_ok hk b hok

theorem exec_stData_hw_delivers (bytes : List Byte) (hok : ∀ i < bytes.length, s.busOutcome i = none) :
    exec (.stData bytes) s =
      .next (s.delivered s.sda (bytes.map fun b => .hwWord (frameWord true b)) bytes.length) :=
  exec_stData_hw_ok hk bytes hok

end

theorem busOutcome_delivered (s : State) (v : Level) (events : List Event) (n i : Nat) :
    (s.delivered v events n).noteResult.busOutcome i = s.busOutcome (n + i) := by
  simp [State.busOutcome, State.delivered, State.noteResult, Draws.takeBus, Nat.add_assoc]

/-- An entry of INIT under HW where none of its frames fails (R194). -/
theorem HostRun.entry_hw {s : State} {tail : List HostCmd} {e : Byte × List Byte} {rest : List (Byte × List Byte)}
    (hk : s.cfg.kind = .hw) (hf : s.faults = []) (hlen : e.2.length < maxPayload)
    (hok : ∀ i < e.2.length + 1, s.busOutcome i = none) (ht : s.host.todo = .initEntry (e :: rest) :: tail) :
    HostRun (entrySteps s.cfg e) s
      ((s.withTodo (.initEntry rest :: tail)).delivered s.sda (entryTraceHw s.cfg e) (e.2.length + 1)).noteResult := by
  obtain ⟨op, ps⟩ := e
  have hkind : (sessionOpen (s.withTodo tail)).cfg.kind = .hw := by simpa using hk
  have hbus (i : Nat) : (sessionOpen (s.withTodo tail)).busOutcome i = s.busOutcome i := sessionOpen_busOutcome ..
  have hnext (v : Level) (events : List Event) (i : Nat) :
      ((sessionOpen (s.withTodo tail)).delivered v events 1).noteResult.busOutcome i = s.busOutcome (1 + i) :=
    (busOutcome_delivered _ v events 1 i).trans (hbus _)
  have hsda : (sessionOpen (s.withTodo tail)).sda = s.sda := by rw [sessionOpen_eq]; rfl
  have hrun := HostRun.entry_delivered hf (fun hk' => nomatch hk.symm.trans hk') ht hlen
    (exec_stCmd_hw_delivers hkind op ((hbus 0).trans (hok 0 (Nat.succ_pos _))))
    (exec_stData_hw_delivers (by exact hkind) ps fun i hi =>
      (hnext _ _ i).trans (hok _ (by rw [Nat.add_comm]; exact Nat.succ_lt_succ hi)))
  simp only [bracket, hk, reduceCtorEq, if_false, hsda, frameWord_false, frameWord_true] at hrun
  rwa [Nat.add_comm] at hrun

/-- The entries of INIT under HW where no frame fails, and its end, by induction on the table (R194, R201). -/
theorem HostRun.table_hw {tail : List HostCmd} (table : List (Byte × List Byte)) {s : State} (hk : s.cfg.kind = .hw)
    (hf : s.faults = []) (hfits : tableFits table) (hok : ∀ i < tableFrames table, s.busOutcome i = none)
    (ht : s.host.todo = .initEntry table :: tail) :
    HostRun (tableSteps s.cfg table) s
      (s.initialised s.sda (table.flatMap (entryTraceHw s.cfg)) (tableFrames table)
        (if table = [] then s.result else .ok) tail) := by
  induction table generalizing s with
  | nil => exact HostRun.initDone hf ht
  | cons e table ih =>
    obtain ⟨he, hfits⟩ := List.forall_mem_cons.1 hfits
    have hframes : tableFrames (e :: table) = e.2.length + 1 + tableFrames table := rfl
    have hentry := HostRun.entry_hw hk hf he (fun i hi => hok i (by omega)) ht
    have hok' (i : Nat) (hi : i < tableFrames table) :=
      (busOutcome_delivered _ s.sda (entryTraceHw s.cfg e) (e.2.length + 1) i).trans (hok _ (by omega))
    have hrun := hentry.trans (ih hk hf hfits hok' rfl)
    simpa [tableSteps_cons, State.initialised, State.delivered, State.noteResult, State.withTodo, hframes,
      Draws.takeBus_takeBus] using hrun

/-! ## What the panel receives of INIT -/

namespace Panel

theorem view_settle (cfg : Config) (op : Byte) (p : View) : view p (settleTrace cfg op) = p := by
  unfold settleTrace
  split <;> split <;> rfl

/-- The frames of an entry inside a session (R140, R207). -/
theorem view_entryFrames (cfg : Config) (e : Byte × List Byte) {p : View} (hcs : p.cs = false) (hbits : p.bits = []) :
    ∃ sda, view p (Trace.frame cfg false e.1 ++ e.2.flatMap (Trace.frame cfg true)) =
      { p with scl := true, sda := sda, out := p.out ++ .frame false e.1 :: e.2.map (.frame true) } := by
  rw [view_append, view_frame cfg false e.1 hcs hbits]
  obtain ⟨sda, h⟩ := view_frames cfg true e.2
    (p := { p with scl := true, sda := some (e.1.getLsbD 0), out := p.out ++ [.frame false e.1] }) hcs rfl hbits
  exact ⟨sda, by rw [h]; simp⟩

/-- An entry under BB, from between two frames (R207). -/
theorem view_entryTrace (cfg : Config) (d : Nat) (e : Byte × List Byte) {p : View} (hcs : p.cs = decide (d = 0))
    (hscl : p.scl = true) (hbits : p.bits = []) :
    ∃ sda, view p (entryTrace cfg d e) = { p with sda := sda, out := p.out ++ tableItems d [e] } := by
  rw [entryTrace, view_append, view_settle, Trace.session]
  by_cases hd : d = 0
  · have hhigh : p.cs = true := by simpa [hd] using hcs
    obtain ⟨sda, h⟩ := view_entryFrames cfg e (p := { p with cs := false, bits := [], out := p.out ++ [.select] })
      rfl rfl
    rw [if_pos hd, view_append, view_append, view_open cfg hhigh, h, view_close cfg rfl rfl]
    exact ⟨sda, by simp [tableItems, hd, hhigh, hscl, hbits]⟩
  · obtain ⟨sda, h⟩ := view_entryFrames cfg e (p := p) (by simpa [hd] using hcs) hbits
    rw [if_neg hd, h]
    exact ⟨sda, by simp [tableItems, hd, hscl]⟩

/-- A table under BB, from between two frames, by induction on its entries (R207). -/
theorem view_table (cfg : Config) (d : Nat) (table : List (Byte × List Byte)) {p : View} (hcs : p.cs = decide (d = 0))
    (hscl : p.scl = true) (hbits : p.bits = []) :
    ∃ sda, view p (table.flatMap (entryTrace cfg d)) = { p with sda := sda, out := p.out ++ tableItems d table } := by
  induction table generalizing p with
  | nil => exact ⟨p.sda, by simp [view, tableItems]⟩
  | cons e table ih =>
    obtain ⟨sda, hentry⟩ := view_entryTrace cfg d e hcs hscl hbits
    obtain ⟨sda', htable⟩ := ih (p := { p with sda := sda, out := p.out ++ tableItems d [e] }) hcs hscl hbits
    rw [List.flatMap_cons, view_append, hentry, htable]
    exact ⟨sda', by simp [tableItems]⟩

/-- An entry under HW (R207). -/
theorem view_entryTraceHw (cfg : Config) (e : Byte × List Byte) (p : View) :
    view p (entryTraceHw cfg e) = { p with out := p.out ++ tableItemsHw [e] } := by
  have hwords : entryTraceHw cfg e =
      (frameWord false e.1 :: e.2.map (frameWord true)).map .hwWord ++ settleTrace cfg e.1 := by
    simp [entryTraceHw, frameWord_false, frameWord_true]
  rw [hwords, view_append, view_settle, view_hwWords]
  simp only [List.map_cons, List.map_map, Function.comp_def, frameWord_control, frameWord_payload, tableItemsHw,
    List.flatMap_singleton]

/-- A table under HW, by induction on its entries (R207). -/
theorem view_tableHw (cfg : Config) (table : List (Byte × List Byte)) (p : View) :
    view p (table.flatMap (entryTraceHw cfg)) = { p with out := p.out ++ tableItemsHw table } := by
  induction table generalizing p with
  | nil => simp [view, tableItemsHw]
  | cons e table ih =>
    rw [List.flatMap_cons, view_append, view_entryTraceHw, ih]
    simp [tableItemsHw]

/-- RESET_PULSE adds nothing to what the panel receives. -/
theorem received_initTrace (t : List Event) (cfg : Config) (entry : Byte × List Byte → List Event) :
    received (t ++ initTrace cfg entry) = (view (view View.init t) (cfg.initTable.flatMap entry)).out := by
  rw [received_append, initTrace, view_append]
  rfl

end Panel

/-- The panel sees chip-select low inside a session, and high outside any (R43). -/
theorem cs_eq_decide_depth {s : State} (hk : s.cfg.kind = .bb) (hline : LineInv s) : s.cs = decide (s.depth = 0) := by
  by_cases hd : s.depth = 0
  · rw [hline.cs_of_depth_zero hk hd, hd]; rfl
  · rw [(hline.bb_select hk).2 (Nat.pos_of_ne_zero hd), decide_eq_false hd]

theorem initSteps_eq (cfg : Config) : initSteps cfg = 7 + tableSteps cfg cfg.initTable := Nat.add_assoc ..

/-- Settles O50: INIT's beginning, then the table by induction on its entries; the number of steps is the model's
(log 12). -/
theorem bitBangedInitConfiguresPanel : Obligations.BitBangedInitConfiguresPanel := by
  unfold Obligations.BitBangedInitConfiguresPanel
  intro s tail hk hf hh hs hline hpanel hfits ht
  refine ⟨?_, ?_⟩
  · have htable := HostRun.table_bb s.cfg.initTable (s := s.pulsed (.initEntry s.cfg.initTable :: tail)) hk
      (hline.of_linesUnchanged ⟨rfl, rfl, rfl, rfl, rfl⟩) hf hfits rfl
    rw [← hline.bb_result hk] at htable
    rw [initSteps_eq] at hh ⊢
    exact (((HostRun.initBegin hf hs ht).trans htable).run hh).trans
      (congrArg Host.Outcome.next (State.initialised_afterTurns ..))
  · obtain ⟨sda, h⟩ := Panel.view_table s.cfg s.depth s.cfg.initTable
      (hpanel.cs.trans (cs_eq_decide_depth hk hline)) (hpanel.scl.trans hline.clock_idle) hpanel.between
    rw [Panel.received_initTrace, h]
    rfl

/-- Settles O51: INIT's beginning, then the table by induction on its entries; the number of steps is the model's
(log 12). -/
theorem hardwareInitConfiguresPanel : Obligations.HardwareInitConfiguresPanel := by
  unfold Obligations.HardwareInitConfiguresPanel
  intro s tail hk hf hh hs hfits hok ht
  refine ⟨?_, ?_⟩
  · have htable := HostRun.table_hw s.cfg.initTable (s := s.pulsed (.initEntry s.cfg.initTable :: tail))
      hk hf hfits hok rfl
    rw [initSteps_eq] at hh ⊢
    exact (((HostRun.initBegin hf hs ht).trans htable).run hh).trans
      (congrArg Host.Outcome.next (State.initialised_afterTurns ..))
  · rw [Panel.received_initTrace, Panel.view_tableHw]
    rfl

end Sys2Proof.Machine
end

section
/-! PROOFS. What a step records: at most one fault, by an operation that changes nothing else or by an underrunning DMA step
(60_exceptions.md R222, R223), and nothing after it (R224). -/

namespace Sys2Proof.Machine

open Sys2Proof

/-! ## Records -/

/-- The fault list is as before, or one record has been appended to it. -/
def RecordsAtMostOne (s t : State) : Prop := t.faults = s.faults ∨ ∃ r, t.faults = s.faults ++ [r]

/-- Issuing an operation records no fault, or it records one with the operation's word and changes nothing else. -/
theorem issueOp_faults {op : Op} {s t : State} (h : issueOp op s = .next t) :
    t.faults = s.faults ∨ ∃ code, t = s.raiseOp code op.word := by
  rcases issueOp_cases h with ⟨i, hd, he⟩ | ⟨r, -, ht⟩
  · rw [← word_of_decode hd]; exact exec_faults he
  · exact .inr ⟨_, ht⟩

/-- A DMA step records no fault, or it underruns. -/
theorem dmaStep_faults (s : State) : (dmaStep s).faults = s.faults ∨ dmaStep s = dmaUnderrun s := by
  rcases dmaStep_cases s with h | ⟨bytes, next, -, -, h⟩
  · exact .inr h
  · exact .inl (by rw [h])

theorem issueOp_recordsAtMostOne {op : Op} {s t : State} (h : issueOp op s = .next t) : RecordsAtMostOne s t :=
  (issueOp_faults h).imp_right fun ⟨code, ht⟩ => ⟨⟨code, .opWord op.word⟩, by rw [ht, State.raiseOp_faults]⟩

theorem dmaStep_recordsAtMostOne (s : State) : RecordsAtMostOne s (dmaStep s) :=
  (dmaStep_faults s).imp_right fun h => ⟨_, by rw [h, dmaUnderrun_faults]⟩

/-- A host command issues at most one operation, and its own changes record nothing. -/
theorem hostCmd_recordsAtMostOne {c : HostCmd} {s t : State} (h : hostCmd c s = .next t) : RecordsAtMostOne s t := by
  rcases hostCmd_cases h with ⟨op, u, -, ho, hu⟩ | ⟨-, hu⟩
  · unfold RecordsAtMostOne
    rw [hu.faults]
    exact issueOp_recordsAtMostOne ho
  · exact .inl hu.faults

theorem hostStep_recordsAtMostOne {s t : State} (h : hostStep s = .next t) : RecordsAtMostOne s t := by
  rcases hostStep_cases h with ⟨-, rfl⟩ | ⟨c, rest, -, hc⟩
  · exact .inl rfl
  · exact hostCmd_recordsAtMostOne (s := s.popTodo) hc

theorem step_recordsAtMostOne {s t : State} (h : step s = .next t) : RecordsAtMostOne s t := by
  obtain ⟨u, hu, hagent⟩ := step_turn_cases h
  have hfaults : u.faults = s.faults := by rcases hu with rfl | rfl <;> rfl
  unfold RecordsAtMostOne
  rw [← hfaults]
  rcases hagent with ⟨-, hh⟩ | ⟨-, rfl⟩
  · exact hostStep_recordsAtMostOne hh
  · exact dmaStep_recordsAtMostOne u

/-! ## The obligations -/

/-- Settles O8: a faulted state stops at its first record, so a step that is taken starts with none to remove. -/
theorem faultedStateStops : Obligations.FaultedStateStops := by
  unfold Obligations.FaultedStateStops
  refine ⟨fun s hs => ?_, fun s t h => ⟨t.faults, by rw [(step_cases h).1, List.nil_append]⟩⟩
  obtain ⟨r, rs, hr⟩ := List.exists_cons_of_ne_nil hs
  exact ⟨r, by rw [hr]; exact List.mem_cons_self, step_faulted hr⟩

/-- Settles O9: a step that is taken starts without a record and appends at most one. -/
theorem stepRecordsAtMostOneFault : Obligations.StepRecordsAtMostOneFault := by
  unfold Obligations.StepRecordsAtMostOneFault
  refine ⟨fun s t h => ?_, fun op r hd s => issueOp_error hd s⟩
  have hs : s.faults = [] := (step_cases h).1
  rcases step_recordsAtMostOne h with ht | ⟨r, ht⟩ <;> simp [ht, hs]

/-- Settles O10: `issueOp_faults` for an operation, `dmaStep_faults` for the DMA step. -/
theorem faultsArePrecise : Obligations.FaultsArePrecise := by
  unfold Obligations.FaultsArePrecise
  refine ⟨fun op s t h hne => (issueOp_faults h).resolve_left hne, fun s hne => ?_⟩
  have hunder : dmaStep s = dmaUnderrun s := (dmaStep_faults s).resolve_left hne
  exact ⟨s.underrunBytes, length_underrunBytes s, hunder⟩

end Sys2Proof.Machine
end

section
/-! PROOFS. The minimum durations of bit-banged traces (70_reset_and_hazards.md R270) and the reset values (R250). -/

namespace Sys2Proof.Machine

open Sys2Proof

/-! ## Minimum durations -/

namespace Trace

theorem minTime_slot (cfg : Config) (v : Level) : minTime (slot cfg v) = 2 * cfg.tBit := by
  simp only [slot, minTime, eventTime]
  omega

theorem minTime_flatMap {α : Type} (f : α → List Event) (l : List α) :
    minTime (l.flatMap f) = (l.map fun a => minTime (f a)).sum := by
  induction l with
  | nil => rfl
  | cons a l ih => rw [List.flatMap_cons, minTime_append, ih, List.map_cons, List.sum_cons]

/-- The three dwells of RESET_PULSE (R192). -/
theorem minTime_resetPulse : minTime resetPulse = 300000000 := by simp [resetPulse, minTime, eventTime]

/-- An entry at depth 0: a session of one command frame and its parameters' frames, then the settle delays. -/
theorem minTime_entryTrace (cfg : Config) (e : Byte × List Byte) : minTime (entryTrace cfg 0 e) = entryTime cfg e := by
  rw [entryTrace, minTime_append, minTime_session, minTime_append, minTime_frame, minTime_frames, minTime_settle,
    entryTime, Nat.succ_mul e.2.length, if_pos rfl]
  omega

theorem minTime_initTrace (cfg : Config) :
    minTime (initTrace cfg (entryTrace cfg 0)) = 300000000 + (cfg.initTable.map (entryTime cfg)).sum := by
  rw [initTrace, minTime_append, minTime_resetPulse, minTime_flatMap]
  simp only [minTime_entryTrace]

end Trace

/-- Settles O19: the waits of each trace, with ST_CMD and ST_DATA in closed form under BB. -/
theorem bitBangedMinimumDurations : Obligations.BitBangedMinimumDurations := by
  unfold Obligations.BitBangedMinimumDurations
  refine ⟨Trace.minTime_slot, Trace.minTime_frame, fun s hk => ⟨fun b => ?_, fun bytes => ?_⟩,
    Trace.minTime_resetPulse, Trace.minTime_initTrace⟩
  · exact ⟨_, exec_stCmd_bb hk b, by rw [Trace.minTime_append, Trace.minTime_session, Trace.minTime_frame]⟩
  · exact ⟨_, exec_stData_bb hk bytes, by rw [Trace.minTime_append, Trace.minTime_session, Trace.minTime_frames]⟩

/-! ## Reset values -/

/-- Settles O41: the fields of the fresh state, whose descriptors are the chain (R36). -/
theorem resetValues : Obligations.ResetValues := by
  unfold Obligations.ResetValues
  exact ⟨rfl, rfl, rfl, rfl, rfl, fun _ => rfl, rfl, rfl, rfl, rfl, rfl, fun _ hi => chain_get hi, chain_length .., rfl,
    rfl, rfl, rfl⟩

end Sys2Proof.Machine
end

section
/-! PROOFS. What a step does to chip-select and the wire trace: nothing, one passive event, a session bracket or a whole
frame at a time (40_serial_transport.md R112 to R118). The panel's view and the timing monitor are at rest before and
after each of these, so every step keeps them (R123 to R125, R140, R141). -/

namespace Sys2Proof.Machine

open Sys2Proof

/-! ## The moves of the lines -/

namespace Trace

/-- The event drives no line of the BB backend. -/
def Passive : Event → Prop
  | .setCs _ => False
  | .setScl _ => False
  | .setSda _ => False
  | .setRst _ => True
  | .wait _ => True
  | .hwWord _ => True
  | .hwFault _ => True

/-- What is appended to the trace at a time, with the level of chip-select before and after it. -/
inductive Block (cfg : Config) : Level → List Event → Level → Prop where
  | nothing (c : Level) : Block cfg c [] c
  | passive (c : Level) {e : Event} (he : Passive e) : Block cfg c [e] c
  | select : Block cfg true (openEvents cfg) false
  | deselect : Block cfg false (closeEvents cfg) true
  | frame (cd : Level) (b : Byte) : Block cfg false (frame cfg cd b) false

end Trace

/-- From `s` to `t` the trace has grown by one block. -/
structure LineMove (s t : State) : Prop where
  cfg : t.cfg = s.cfg
  grows : ∃ events, t.wire = s.wire ++ events ∧ Trace.Block s.cfg s.cs events t.cs

/-- From `s` to `t` the trace has grown block by block. -/
abbrev LineMoves : State → State → Prop := Relation.ReflTransGen LineMove

theorem LineMove.of_unchanged {s t : State} (h : LinesUnchanged s t) (hwire : t.wire = s.wire) : LineMove s t :=
  ⟨h.cfg, [], by rw [hwire, List.append_nil], h.cs ▸ .nothing _⟩

theorem LineMove.of_passive {s t : State} (h : LinesUnchanged s t) {e : Event}
    (hwire : t.wire = s.wire ++ [e]) (he : Trace.Passive e) : LineMove s t :=
  ⟨h.cfg, [e], hwire, h.cs ▸ .passive _ he⟩

theorem HostOnly.lineMove {s t : State} (h : HostOnly s t) : LineMove s t :=
  .of_unchanged h.linesUnchanged (by rw [h])

theorem raiseOp_lineMove (s : State) (code : FaultCode) (w : OpWord) : LineMove s (s.raiseOp code w) :=
  .of_unchanged (raiseOp_linesUnchanged ..) rfl

theorem takeChoice_lineMove (s : State) : LineMove s s.takeChoice :=
  .of_unchanged (takeChoice_linesUnchanged s) rfl

theorem dmaStep_wire (s : State) : (dmaStep s).wire = s.wire := by
  rcases dmaStep_cases s with h | ⟨_, _, -, -, h⟩
  · rw [h]; rfl
  · rw [h]

theorem dmaStep_lineMove (s : State) : LineMove s (dmaStep s) :=
  .of_unchanged (dmaStep_linesUnchanged s) (dmaStep_wire s)

theorem setResult_lineMove (s : State) (r : Result) : LineMove s (s.setResult r) :=
  ⟨rfl, [], (List.append_nil _).symm, .nothing _⟩

/-- Opening a session selects the panel or leaves the lines alone (R114). -/
theorem LineInv.sessionOpen_lineMove {s : State} (h : LineInv s) : LineMove s (Machine.sessionOpen s) := by
  rw [sessionOpen_eq]
  by_cases houter : s.cfg.kind = .bb ∧ s.depth = 0
  · refine ⟨rfl, Trace.openEvents s.cfg, by simp only [if_pos houter], ?_⟩
    simp only [if_pos houter, h.cs_of_depth_zero houter.1 houter.2]
    exact .select
  · refine ⟨rfl, [], by simp only [if_neg houter], ?_⟩
    simp only [if_neg houter]
    exact .nothing _

/-- Closing a session deselects the panel or leaves the lines alone (R115). -/
theorem LineInv.sessionClose_lineMove {s : State} (h : LineInv s) (hd : 0 < s.depth) :
    LineMove s (Machine.sessionClose s) := by
  rw [sessionClose_eq]
  by_cases houter : s.cfg.kind = .bb ∧ s.depth - 1 = 0
  · refine ⟨rfl, Trace.closeEvents s.cfg, by simp only [if_pos houter], ?_⟩
    simp only [if_pos houter, (h.bb_select houter.1).2 hd]
    exact .deselect
  · refine ⟨rfl, [], by simp only [if_neg houter], ?_⟩
    simp only [if_neg houter]
    exact .nothing _

/-- A frame inside a session: a whole BB frame while the panel is selected, or one HW event (R113, R117). -/
theorem LineInv.emitFrame_lineMove {s : State} (h : LineInv s) (hd : 0 < s.depth) (cd : Level) (b : Byte) :
    LineMove s (Machine.emitFrame cd b s).2 := by
  cases hk : s.cfg.kind with
  | bb =>
    rw [emitFrame_bb hk, frameBB_eq]
    refine ⟨rfl, Trace.frame s.cfg cd b, rfl, ?_⟩
    simp only [(h.bb_select hk).2 hd]
    exact .frame cd b
  | hw =>
    rw [emitFrame_hw hk, frameHW]
    split <;> exact .of_passive (by constructor <;> rfl) rfl trivial

theorem LineInv.sendData_lineMoves {s : State} (h : LineInv s) (hd : 0 < s.depth) (bytes : List Byte) :
    LineMoves s (Machine.sendData bytes s).2 := by
  obtain ⟨-, -, hmoves⟩ :=
    sendData_keeps (P := fun u => LineInv u ∧ 0 < u.depth ∧ LineMoves s u)
      (fun u b ⟨hu, hdu, hsu⟩ =>
        ⟨hu.emitFrame true b, (emitFrame_frame true b u).depth.symm ▸ hdu, hsu.tail (hu.emitFrame_lineMove hdu true b)⟩)
      bytes ⟨h, hd, .refl⟩
  exact hmoves

/-- A session around some frames, with their result noted. -/
theorem LineInv.session_lineMoves {s t : State} (h : LineInv s) (ht : LineInv t)
    (hs : SameButFrames (Machine.sessionOpen s) t) (hframes : LineMoves (Machine.sessionOpen s) t) (r : Result) :
    LineMoves s ((Machine.sessionClose t).setResult r) := by
  have hd : 0 < t.depth := by
    rw [hs.depth, sessionOpen_depth]
    exact Nat.succ_pos _
  exact ((hframes.head h.sessionOpen_lineMove).tail (ht.sessionClose_lineMove hd)).tail (setResult_lineMove ..)

/-- What an operation can do to the lines. -/
theorem LineInv.exec_lineMoves {i : Instr} {s t : State} (h : LineInv s) (he : Machine.exec i s = .next t) :
    LineMoves s t := by
  have hinside : 0 < (Machine.sessionOpen s).depth := by
    rw [sessionOpen_depth]
    exact Nat.succ_pos _
  have hopen := h.sessionOpen
  cases i with
  | stBegin => injection he with he; rw [← he]; exact .single h.sessionOpen_lineMove
  | stEnd =>
    simp only [Machine.exec, execStEnd] at he
    split at he <;> injection he with he <;> rw [← he]
    · exact .single (raiseOp_lineMove ..)
    · next hd => exact .single (h.sessionClose_lineMove (Nat.pos_of_ne_zero hd))
  | stCmd b =>
    injection he with he
    rw [← he]
    exact h.session_lineMoves (hopen.emitFrame false b) (emitFrame_frame ..)
      (.single (hopen.emitFrame_lineMove hinside false b)) _
  | stData bytes =>
    injection he with he
    rw [← he]
    exact h.session_lineMoves (hopen.sendData bytes) (sendData_frame ..) (hopen.sendData_lineMoves hinside bytes) _
  | rbPush _ | txStart | txPush _ =>
    simp only [Machine.exec, execRbPush, execTxStart, execTxPush] at he
    split at he <;> injection he with he <;> rw [← he] <;>
      exact .single (.of_unchanged (by constructor <;> rfl) rfl)
  | rstSet _ | delayUs _ =>
    injection he with he
    rw [← he]
    exact .single (.of_passive (by constructor <;> rfl) rfl trivial)

/-- What a step can do to the lines. -/
theorem LineInv.step_lineMoves {s t : State} (h : LineInv s) (hs : step s = .next t) : LineMoves s t := by
  have hkeep {u v : State} (huv : LineInv v) (hmove : LineMove u v) (hu : LineMoves s u ∧ LineInv u) :
      LineMoves s v ∧ LineInv v := ⟨hu.1.tail hmove, huv⟩
  suffices hmoves : LineMoves s t ∧ LineInv t from hmoves.1
  refine step_keeps (P := fun u => LineMoves s u ∧ LineInv u) ?_ ?_ ?_ ?_ ?_ ⟨.refl, h⟩ hs
  · exact fun i u v ⟨hu, hline⟩ he => ⟨hu.trans (hline.exec_lineMoves he), hline.exec he⟩
  · exact fun u w hu => hkeep (hu.2.of_linesUnchanged (raiseOp_linesUnchanged ..)) (raiseOp_lineMove ..) hu
  · exact fun u v hv hu => hkeep (hu.2.of_linesUnchanged hv.linesUnchanged) hv.lineMove hu
  · exact fun u hu => hkeep (hu.2.of_linesUnchanged (takeChoice_linesUnchanged u)) (takeChoice_lineMove u) hu
  · exact fun u _ hu => hkeep (hu.2.of_linesUnchanged (dmaStep_linesUnchanged u)) (dmaStep_lineMove u) hu

/-! ## The panel -/

namespace Panel

/-- The panel between two frames, at the idle clock and at chip-select level `c`, having received nothing bad. -/
structure View.AtRest (c : Level) (p : View) : Prop where
  cs : p.cs = c
  scl : p.scl = true
  between : p.bits = []
  clean : ∀ it ∈ p.out, it.bad = false

theorem View.AtRest.block {cfg : Config} {c c' : Level} {events : List Event} {p : View} (h : p.AtRest c)
    (hb : Trace.Block cfg c events c') : (view p events).AtRest c' := by
  have hclean {it : Item} (hit : it.bad = false) : ∀ it' ∈ p.out ++ [it], it'.bad = false :=
    List.forall_mem_append.2 ⟨h.clean, List.forall_mem_singleton.2 hit⟩
  cases hb with
  | nothing => exact h
  | @passive _ e he =>
    cases e with
    | setRst _ | wait _ => exact h
    | hwWord w => exact ⟨h.cs, h.scl, h.between, hclean rfl⟩
    | hwFault w => exact ⟨h.cs, h.scl, h.between, hclean rfl⟩
    | setCs _ | setScl _ | setSda _ => exact he.elim
  | select =>
    rw [view_open cfg h.cs]
    exact ⟨rfl, h.scl, rfl, hclean rfl⟩
  | deselect =>
    rw [view_close cfg h.cs h.between]
    exact ⟨rfl, h.scl, rfl, hclean rfl⟩
  | frame cd b =>
    rw [view_frame cfg cd b h.cs h.between]
    exact ⟨h.cs, rfl, h.between, hclean rfl⟩

end Panel

theorem LineInv.panelInv_iff {s : State} (h : LineInv s) :
    PanelInv s ↔ (Panel.view Panel.View.init s.wire).AtRest s.cs :=
  ⟨fun ⟨hcs, hscl, hbetween, hclean⟩ => ⟨hcs, hscl.trans h.clock_idle, hbetween, hclean⟩,
    fun ⟨hcs, hscl, hbetween, hclean⟩ => ⟨hcs, hscl.trans h.clock_idle.symm, hbetween, hclean⟩⟩

theorem LineMoves.panelAtRest {s t : State} (h : LineMoves s t)
    (hs : (Panel.view Panel.View.init s.wire).AtRest s.cs) : (Panel.view Panel.View.init t.wire).AtRest t.cs := by
  induction h with
  | refl => exact hs
  | tail _ hmove ih =>
    obtain ⟨-, events, hwire, hblock⟩ := hmove
    rw [hwire, Panel.view_append]
    exact ih.block hblock

/-- Settles O24: the panel is at rest between the blocks of which every step's trace is made. -/
theorem stepKeepsPanelInv : Obligations.StepKeepsPanelInv := by
  unfold Obligations.StepKeepsPanelInv
  intro s t hline hpanel hs
  rw [(stepKeepsLineInv s t hline hs).panelInv_iff]
  exact (hline.step_lineMoves hs).panelAtRest (hline.panelInv_iff.1 hpanel)

/-! ## The line timing -/

namespace Trace

/-- The monitor at an operation boundary with chip-select at `c`: everything met so far, the last clock event and rising
edge `T_BIT` ago, and inside a session its lead time over. -/
structure Monitor.AtRest (cfg : Config) (c : Level) (m : Monitor) : Prop where
  ok : m.ok = true
  cs : m.cs = c
  scl : m.scl = true
  since_scl : atLeast cfg.tBit m.sinceScl = true
  since_rise : atLeast cfg.tBit m.sinceRise = true
  since_select : c = false → atLeast cfg.tCsLead m.sinceSelect = true

/-- Inside a session the monitor at rest is ready for a clock period. -/
theorem Monitor.atRest_false_iff {cfg : Config} {m : Monitor} : m.AtRest cfg false ↔ m.Ready cfg :=
  ⟨fun ⟨hok, hcs, hscl, h1, h2, h3⟩ => ⟨hok, hcs, hscl, h1, h2, h3 rfl⟩,
    fun ⟨hok, hcs, hscl, h1, h2, h3⟩ => ⟨hok, hcs, hscl, h1, h2, fun _ => h3⟩⟩

theorem Monitor.AtRest.wait {cfg : Config} {c : Level} {m : Monitor} (h : m.AtRest cfg c) (ns : Nat) :
    (m.next cfg (.wait ns)).AtRest cfg c :=
  ⟨h.ok, h.cs, h.scl, atLeast_later _ h.since_scl, atLeast_later _ h.since_rise,
    fun hc => atLeast_later _ (h.since_select hc)⟩

theorem Monitor.AtRest.block {cfg : Config} {c c' : Level} {events : List Event} {m : Monitor} (h : m.AtRest cfg c)
    (hb : Block cfg c events c') : (monitor cfg m events).AtRest cfg c' := by
  cases hb with
  | nothing => exact h
  | @passive _ e he =>
    cases e with
    | wait ns => exact h.wait ns
    | setRst _ | hwWord _ | hwFault _ => exact h
    | setCs _ | setScl _ | setSda _ => exact he.elim
  | select =>
    exact {
      ok := by simp [monitor, openEvents, Monitor.next, h.ok]
      cs := rfl
      scl := h.scl
      since_scl := atLeast_later _ h.since_scl
      since_rise := atLeast_later _ h.since_rise
      since_select := fun _ => atLeast_add (t := some 0) le_rfl }
  | deselect =>
    have hlag : atLeast cfg.tCsLag (m.sinceRise.map (· + cfg.tCsLag)) = true := atLeast_add le_rfl
    exact {
      ok := by simp [monitor, closeEvents, Monitor.next, h.ok, hlag]
      cs := rfl
      scl := h.scl
      since_scl := atLeast_later _ h.since_scl
      since_rise := atLeast_later _ h.since_rise
      since_select := nofun }
  | frame cd b => exact atRest_false_iff.2 ((atRest_false_iff.1 h).frame cd b)

end Trace

theorem LineInv.timingInv_iff {s : State} (h : LineInv s) :
    TimingInv s ↔ (Trace.monitor s.cfg Trace.Monitor.init s.wire).AtRest s.cfg s.cs :=
  ⟨fun ⟨hok, hcs, hscl, h1, h2, h3⟩ => ⟨hok, hcs, hscl.trans h.clock_idle, h1, h2, h3⟩,
    fun ⟨hok, hcs, hscl, h1, h2, h3⟩ => ⟨hok, hcs, hscl.trans h.clock_idle.symm, h1, h2, h3⟩⟩

theorem LineMoves.monitorAtRest {s t : State} (h : LineMoves s t)
    (hs : (Trace.monitor s.cfg Trace.Monitor.init s.wire).AtRest s.cfg s.cs) :
    (Trace.monitor t.cfg Trace.Monitor.init t.wire).AtRest t.cfg t.cs := by
  induction h with
  | refl => exact hs
  | tail _ hmove ih =>
    obtain ⟨hcfg, events, hwire, hblock⟩ := hmove
    rw [hcfg, hwire, Trace.monitor_append]
    exact ih.block hblock

/-- Settles O25: the monitor is at rest between the blocks of which every step's trace is made. -/
theorem stepKeepsLineTiming : Obligations.StepKeepsLineTiming := by
  unfold Obligations.StepKeepsLineTiming
  intro s t hline htiming hs
  rw [(stepKeepsLineInv s t hline hs).timingInv_iff]
  exact (hline.step_lineMoves hs).monitorAtRest (hline.timingInv_iff.1 htiming)

end Sys2Proof.Machine
end

section
/-! PROOFS. What the panel receives of ST_CMD and ST_DATA under BB (40_serial_transport.md R141), the bytes of a
consumed descriptor (42_ring_buffer.md R170), and written-out operation words and fault codes (95_test_vectors.md V10,
60_exceptions.md R221). -/

namespace Sys2Proof.Machine

open Sys2Proof

/-! ## Bit-banged frames -/

/-- What a BB session around whole frames adds to what the panel receives, at depth 0 and inside a session. -/
theorem received_session_frames {s : State} (hk : s.cfg.kind = .bb) (hline : LineInv s) (hpanel : PanelInv s)
    (cd : Level) (bytes : List Byte) :
    Panel.received (s.wire ++ Trace.session s.cfg s.depth (bytes.flatMap (Trace.frame s.cfg cd))) =
      Panel.received s.wire ++
        if s.depth = 0 then [.select] ++ bytes.map (.frame cd) ++ [.deselect] else bytes.map (.frame cd) := by
  have hcs := hpanel.cs.trans (cs_eq_decide_depth hk hline)
  have hscl := hpanel.scl.trans hline.clock_idle
  rw [Panel.received_append, Trace.session, Panel.received]
  by_cases hd : s.depth = 0
  · rw [decide_eq_true hd] at hcs
    rw [if_pos hd, if_pos hd, Panel.view_append, Panel.view_append, Panel.view_open _ hcs]
    obtain ⟨sda, hframes⟩ := Panel.view_frames s.cfg cd bytes
      (p := { Panel.view Panel.View.init s.wire with
        cs := false, bits := [], out := (Panel.view Panel.View.init s.wire).out ++ [.select] }) rfl hscl rfl
    rw [hframes, Panel.view_close _ rfl rfl]
    simp only [List.append_assoc]
  · rw [decide_eq_false hd] at hcs
    rw [if_neg hd, if_neg hd]
    obtain ⟨sda, hframes⟩ := Panel.view_frames s.cfg cd bytes hcs hscl hpanel.between
    rw [hframes]

/-- Settles O20: ST_CMD and ST_DATA are sessions around whole frames. -/
theorem panelReceivesBitBangedFrames : Obligations.PanelReceivesBitBangedFrames := by
  unfold Obligations.PanelReceivesBitBangedFrames
  intro s hk hline hpanel
  refine ⟨fun b => ⟨_, exec_stCmd_bb hk b, ?_⟩, fun bytes => ⟨_, exec_stData_bb hk bytes, ?_⟩⟩
  · have hframe := received_session_frames hk hline hpanel false [b]
    rw [List.flatMap_singleton] at hframe
    exact hframe
  · exact received_session_frames hk hline hpanel true bytes

/-! ## A consumed descriptor -/

/-- Byte j of a run of cells that all hold a value is the value of cell `pos + j`, modulo the capacity. -/
theorem Memory.getElem?_ringBytes {m : List Host.Cell} {cap n pos j : Nat}
    (h : ∀ i < n, (read m ((pos + i) % cap)).isSome = true) (hj : j < n) :
    (ringBytes m cap pos n)[j]? = read m ((pos + j) % cap) := by
  induction n generalizing pos j with
  | zero => exact absurd hj (Nat.not_lt_zero _)
  | succ n ih =>
    obtain ⟨b, hb⟩ := Option.isSome_iff_exists.1 (h 0 (Nat.succ_pos n))
    rw [Nat.add_zero] at hb
    rw [ringBytes, hb]
    cases j with
    | zero => exact hb.symm
    | succ j =>
      have hrest := ih (pos := pos + 1) (j := j)
        (fun i hi => by rw [Nat.add_assoc, Nat.add_comm 1 i]; exact h (i + 1) (Nat.succ_lt_succ hi))
        (Nat.lt_of_succ_lt_succ hj)
      rw [Nat.add_assoc, Nat.add_comm 1 j] at hrest
      exact hrest

/-- The descriptor at the DMA position ends within the ring. -/
theorem RingInv.rpos_add_ringS_le {s : State} (h : RingInv s) : s.rpos + s.cfg.ringS ≤ s.cfg.ringC := by
  obtain ⟨-, -, hC⟩ := (ringOk_iff _).1 h.config
  have hend := Nat.mul_le_mul_right s.cfg.ringS (Nat.succ_le_of_lt h.position_lt)
  rwa [Nat.succ_mul, h.rpos_eq, ← hC] at hend

/-- Settles O31: the S bytes are the first pending ones, in cells that do not wrap. -/
theorem dmaStepConsumesDescriptor : Obligations.DmaStepConsumesDescriptor := by
  unfold Obligations.DmaStepConsumesDescriptor
  intro s h hfull
  have hvalued (j : Nat) (hj : j < s.cfg.ringS) := h.valued j (hj.trans_le hfull)
  refine ⟨_, Memory.length_ringBytes s.cfg.ringS s.rpos hvalued, fun j hj => ?_, h.dmaStep_consumes hfull⟩
  have hcell : s.rpos + j < s.cfg.ringC := by
    have := h.rpos_add_ringS_le
    omega
  rw [Memory.getElem?_ringBytes hvalued hj, Nat.mod_eq_of_lt hcell]

/-! ## Written-out words and codes -/

/-- Settles O4: each word is the encoding of its operation, which `decodeOfEncode` reads back. -/
theorem writtenOutWordsDecode : Obligations.WrittenOutWordsDecode := by
  unfold Obligations.WrittenOutWordsDecode
  exact ⟨decodeOfEncode .stBegin rfl, decodeOfEncode .stEnd rfl, decodeOfEncode (.stCmd 0x11#8) rfl,
    decodeOfEncode (.stData [0xAA#8]) rfl, decodeOfEncode (.rbPush [1#8, 2#8, 3#8]) rfl, decodeOfEncode .txStart rfl,
    decodeOfEncode (.txPush [0x07#8]) rfl, decodeOfEncode (.rstSet true) rfl, decodeOfEncode (.delayUs 16777215#24) rfl⟩

/-- Settles O11: the table of R221. -/
theorem faultCodeNumbers : Obligations.FaultCodeNumbers := by
  unfold Obligations.FaultCodeNumbers
  exact ⟨rfl, rfl, rfl, rfl, rfl, rfl⟩

end Sys2Proof.Machine
end
